-- ==== Sys2Proof/Word.lean ====
section
/-! DEFINITION. The word types of COBS-CORE (00_scope.md R7, R8, R9): bytes and command bits. -/

namespace Sys2Proof

/-- One byte: `BYTE_W = 8` bits, unsigned, bit 7 the most significant (R7, R9, R52). -/
abbrev Byte := BitVec 8

/-- The bits of one command word: `CMD_W = 11` (R8, R76). -/
abbrev CmdBits := BitVec 11

/-- The operation code field `op`, bits 10:8 of a command word (R76). -/
abbrev OpCode := BitVec 3

end Sys2Proof
end

