-- ==== Sys2Proof/Config.lean ====
section
/-! DEFINITION. What is fixed for the machine: the constants of 00_scope.md R7, the configuration of R8, and
the free values, which the spec leaves without a value. -/

namespace Sys2Proof

/-- `SENTINEL`: the byte 0x00, not configurable (R7, 90_conflicts.md C7). -/
abbrev sentinel : Byte := 0x00#8

/-- `L_FULL`: the length byte of a full block (R7). -/
abbrev fullLength : Byte := 0xFF#8

/-- `RUN_MAX`: literal bytes in a full block (R7). -/
abbrev runMax : Nat := 254

/-- Number of cells of the pending buffer `enc_buf[0..253]` (R23, R37). -/
abbrev bufSize : Nat := 254

/-- The two parameters a model carries as configuration fields (R8): `ELIDE_EMPTY_FINAL` and `DEC_OUT_CAP`
(`none` is "unbounded"). The other parameters of R8 are fixed: `ENC_STRATEGY` incremental, `SRC_CHUNK = 1`,
`TERR_W = 8`, `CMD_W = 11`. DESIGN CHOICE (log 4): the configuration stands in State, so that a statement about
every state speaks for every configuration. -/
structure Config where
  elideEmptyFinal : Bool
  decOutCap : Option Nat
deriving DecidableEq, Repr

/-- The values this hardware takes (R8). -/
def Config.hardware : Config := { elideEmptyFinal := false, decOutCap := none }

/-- FREE VALUE (log 5): what `enc_run` holds after ENC state became unspecified for the n-th time (R177, U1). -/
opaque Config.freeEncRun : Nat → BitVec 8

/-- FREE VALUE (log 5): what `enc_last_full` holds after ENC state became unspecified (R177, U1). -/
opaque Config.freeLastFull : Nat → Bool

/-- FREE VALUE (log 6): what a cell of `enc_buf` holds that nothing has written since the buffer last became
unspecified (R23, R177, R200, U7): first the count of such events, then the cell's index. -/
opaque Config.freeBufByte : Nat → Nat → Byte

end Sys2Proof
end

