-- ==== Sys2Proof/Syntax.lean ====
section
/-! DEFINITION. The ten operations, one constructor per row of spec/opcode_table.json, and command words. -/

namespace Sys2Proof

/-- The two command ports, each with a code space of its own (30_encoding.md R76). -/
inductive Port where
  | enc
  | dec
deriving DecidableEq, Repr

/-- The operations of R77. Only the four with an operand carry one: the `d` field of the others is ignored and
selects nothing (R80). -/
inductive Instr where
  /-- ENC.WRITE d: accept one payload byte (R92). -/
  | encWrite (d : Byte)
  /-- ENC.END: the final block, no delimiter (R95). -/
  | encEnd
  /-- ENC.RESET: the explicit reset (R132). -/
  | encReset
  /-- ENC.FINISH: the final block and the delimiter (R131). -/
  | encFinish
  /-- DEC.BYTE d: one byte of the frame body (R112). -/
  | decByte (d : Byte)
  /-- DEC.END: the frame body is complete (R116). -/
  | decEnd
  /-- DEC.RESET: back to the frame-start state (R154). -/
  | decReset
  /-- RX.BYTE d: one byte pulled from the Source (R151). -/
  | rxByte (d : Byte)
  /-- RX.EOF: the Source signals end of input (R152). -/
  | rxEof
  /-- RX.ERR e: the Source reports a transport error (R153). -/
  | rxErr (e : Byte)
deriving DecidableEq, Repr

/-- The port an operation belongs to (R77). -/
def Instr.port : Instr → Port
  | .encWrite _ | .encEnd | .encReset | .encFinish => .enc
  | .decByte _ | .decEnd | .decReset | .rxByte _ | .rxEof | .rxErr _ => .dec

/-- A command: one 11-bit word presented on a unit's command port (R76). -/
structure CmdWord where
  port : Port
  bits : CmdBits
deriving DecidableEq, Repr

end Sys2Proof
end

