-- ==== Sys2Proof/WellFormed.lean ====
section
/-! DEFINITION. Well-formedness: of command words (30_encoding.md R81), of operations, and of what stands on the
wire (R70, R71). -/

namespace Sys2Proof

/-- A command word selects an operation: its code, `word / 256` (R77), is not one of the reserved codes of R81
(ENC 010, 100, 110, 111; DEC 010, 111). -/
def CmdWord.wf (c : CmdWord) : Bool :=
  match c.port with
  | .enc => !([2, 4, 6, 7].contains (c.bits.toNat / 256))
  | .dec => !([2, 7].contains (c.bits.toNat / 256))

/-- Every operand value is legal: a payload byte (R92), a frame byte (R112) and a wire byte (R151) are any value
0x00..0xFF, and so is the opaque code `e` (R153, D7). The bound 255 is the type's. -/
def Instr.wf : Instr → Bool
  | .encWrite _ | .encEnd | .encReset | .encFinish => true
  | .decByte _ | .decEnd | .decReset | .rxByte _ | .rxEof | .rxErr _ => true

/-- One block: a length byte `L` in 1..255, then exactly `L - 1` literal bytes, none of them 0x00 (R71). -/
def Block.wf : List Byte → Bool
  | [] => false
  | l :: lits => l != sentinel && lits.length + 1 == l.toNat && lits.all (fun b => b != sentinel)

/-- A frame body: zero or more well-formed blocks, one after another (R70 less the delimiter). -/
def IsFrameBody (body : List Byte) : Prop :=
  ∃ blocks : List (List Byte), body = blocks.flatten ∧ ∀ b ∈ blocks, Block.wf b = true

/-- A frame: a body followed by exactly one sentinel byte (R70). -/
def IsFrame (bytes : List Byte) : Prop :=
  ∃ body : List Byte, bytes = body ++ [sentinel] ∧ IsFrameBody body

end Sys2Proof
end

