-- ==== Sys2Proof/Decode.lean ====
section
/-! DEFINITION. Decoding a command word to an operation, total, rejecting by name, and encoding it back
(30_encoding.md R76, R77, R80, R81). -/

namespace Sys2Proof

/-- Why a command word selects no operation: its code is reserved at its port (R81). -/
inductive DecodeReject where
  | reservedCode (port : Port) (op : OpCode)
deriving DecidableEq, Repr

/-- The field `op`, bits 10:8 (R76). -/
def CmdWord.op (c : CmdWord) : OpCode := c.bits.extractLsb' 8 3

/-- The field `d`, bits 7:0, used as is (R76). -/
def CmdWord.d (c : CmdWord) : Byte := c.bits.extractLsb' 0 8

/-- The code table of the ENC command port (R77, R81). -/
def decodeEnc (op : OpCode) (d : Byte) : Except DecodeReject Instr :=
  match op.toNat with
  | 0 => .ok (.encWrite d)
  | 1 => .ok .encEnd
  | 3 => .ok .encReset
  | 5 => .ok .encFinish
  | _ => .error (.reservedCode .enc op)

/-- The code table of the DEC command port (R77, R81). -/
def decodeDec (op : OpCode) (d : Byte) : Except DecodeReject Instr :=
  match op.toNat with
  | 0 => .ok (.decByte d)
  | 1 => .ok .decEnd
  | 3 => .ok .decReset
  | 4 => .ok (.rxByte d)
  | 5 => .ok .rxEof
  | 6 => .ok (.rxErr d)
  | _ => .error (.reservedCode .dec op)

/-- The operation a command word selects: its meaning depends only on its port and its own bits (R66, R75). -/
def decode (c : CmdWord) : Except DecodeReject Instr :=
  match c.port with
  | .enc => decodeEnc c.op c.d
  | .dec => decodeDec c.op c.d

/-- The operation code of an operation (R77). -/
def Instr.opcode : Instr → OpCode
  | .encWrite _ => 0b000#3
  | .encEnd => 0b001#3
  | .encReset => 0b011#3
  | .encFinish => 0b101#3
  | .decByte _ => 0b000#3
  | .decEnd => 0b001#3
  | .decReset => 0b011#3
  | .rxByte _ => 0b100#3
  | .rxEof => 0b101#3
  | .rxErr _ => 0b110#3

/-- The `d` field of an operation's word: its operand, or 0, which producers should drive where the field is
ignored (R80). -/
def Instr.operand : Instr → Byte
  | .encWrite d | .decByte d | .rxByte d => d
  | .rxErr e => e
  | .encEnd | .encReset | .encFinish | .decEnd | .decReset | .rxEof => 0x00#8

/-- The command word of an operation: `word = op * 256 + d` (R77). -/
def encode (i : Instr) : CmdWord := { port := i.port, bits := i.opcode ++ i.operand }

/-- The command a table word stands for. spec/opcode_table.json gives a row its port in its `format`, not in its
bits (R80), and four words stand in both code spaces: DESIGN CHOICE (log 11): a word without a port is read at
the ENC port where that port has the code, else at the DEC port. A number of more than 11 bits is no word. -/
def tableCommand (nbits w : Nat) : Option CmdWord :=
  if w % 2 ^ nbits < 2048 then
    match decode { port := .enc, bits := BitVec.ofNat 11 (w % 2 ^ nbits) } with
    | .ok _ => some { port := .enc, bits := BitVec.ofNat 11 (w % 2 ^ nbits) }
    | .error _ => some { port := .dec, bits := BitVec.ofNat 11 (w % 2 ^ nbits) }
  else none

/-- The operation read from a table word (log 11). -/
def decodeTableWord (nbits w : Nat) : Option Instr :=
  match tableCommand nbits w with
  | none => none
  | some c =>
    match decode c with
    | .ok i => some i
    | .error _ => none

/-- The mnemonic of an operation (R77). -/
def Instr.mnemonic : Instr → String
  | .encWrite _ => "ENC.WRITE"
  | .encEnd => "ENC.END"
  | .encReset => "ENC.RESET"
  | .encFinish => "ENC.FINISH"
  | .decByte _ => "DEC.BYTE"
  | .decEnd => "DEC.END"
  | .decReset => "DEC.RESET"
  | .rxByte _ => "RX.BYTE"
  | .rxEof => "RX.EOF"
  | .rxErr _ => "RX.ERR"

/-- One upper-case hexadecimal digit. -/
def hexDigit (n : Nat) : Char := ("0123456789ABCDEF".toList).getD n '0'

/-- A byte as the listings write it, `0x2A` (R85). -/
def hexByte (b : Byte) : String :=
  "0x" ++ String.ofList [hexDigit (b.toNat / 16), hexDigit (b.toNat % 16)]

/-- One line of a trace: `UNIT.NAME` and its operand, if any (R85). -/
def Instr.listing (i : Instr) : String :=
  match i with
  | .encWrite d | .decByte d | .rxByte d => i.mnemonic ++ " " ++ hexByte d
  | .rxErr e => i.mnemonic ++ " " ++ hexByte e
  | .encEnd | .encReset | .encFinish | .decEnd | .decReset | .rxEof => i.mnemonic

end Sys2Proof
end

