-- ==== Sys2Proof/Machine/State.lean ====
section
/-! DEFINITION. The state of COBS-CORE: both units, the observable sequences, and the parameters of the step
relation (10_state.md R20 to R44), as plain data; the reasons a step can stop; the state at the start. -/

namespace Sys2Proof.Machine

/-- The error taxonomy: exactly three errors (60_exceptions.md R170 to R173). -/
inductive CobsError where
  | malformedFrame
  | unexpectedEof
  | transportError (e : Byte)
deriving DecidableEq, Repr

/-- The status of one accepted ENC command (R12, R78). -/
inductive EncStatus where
  | ok
  | transportError (e : Byte)
deriving DecidableEq, Repr

/-- The result of one frame attempt (R12, R79). -/
inductive DecResult where
  | ok (payload : List Byte)
  | err (x : CobsError)
deriving DecidableEq, Repr

/-- How one `SinkWrite` goes, supplied by the environment (R44). -/
inductive SinkAnswer where
  /-- `ok`: the whole chunk is on the transport (R56). -/
  | ok
  /-- `err(e)`: the first `k` bytes of the chunk are on the transport (R57); a `k` past the chunk's length stands
  for the whole chunk (log 15). -/
  | err (e : Byte) (k : Nat)
  /-- No answer comes: ENC goes on waiting, alone, until a hardware reset (R210, U10, log 3). -/
  | silent
deriving DecidableEq, Repr

/-- What arrives from the environment. -/
inductive Input where
  /-- A command word on a port (R31); an RX command is the Source's answer to a pull (R58). -/
  | command (c : CmdWord)
  /-- DEC pulls from the Source and the pull blocks: its answer is not there yet (R58, R210, log 19). -/
  | pull
  /-- The `rst` input (R200). `k` is how many bytes of an outstanding chunk have reached the wire by then; it counts
  only while ENC waits (R201, log 10). -/
  | rst (k : Nat)
deriving DecidableEq, Repr

/-- The pending buffer: the cells something has written, by index, in one canonical form (`Memory.wf`). A cell
that is not listed holds no known value: its content is unspecified (R23, log 6). -/
abbrev Memory := List Host.Cell

/-- The encoder unit's state (R22 to R25), and the `SinkWrite` it waits in (70_reset_and_hazards.md R210, R219). -/
structure EncUnit where
  /-- `enc_run`, the run counter. -/
  run : BitVec 8
  /-- `enc_buf[0..253]`, the pending buffer. -/
  buf : Memory
  /-- `enc_last_full`. -/
  lastFull : Bool
  /-- `enc_fault`, sticky. -/
  fault : Bool
  /-- The outstanding chunk while ENC waits for a Sink that does not answer; `none` between operations. -/
  waiting : Option (List Byte)
deriving DecidableEq, Repr

/-- The decoder unit's state (R26 to R29), and whether it waits for the Source (60_exceptions.md R193). -/
structure DecUnit where
  /-- `dec_rem`, literal bytes still to come. -/
  rem : BitVec 8
  /-- `dec_pend`, the pending-sentinel flag. -/
  pend : Bool
  /-- `dec_bad`, the malformed-frame latch. -/
  bad : Bool
  /-- `dec_out`, the output accumulator. -/
  out : List Byte
  /-- Whether a pull from the Source is outstanding (R58, 70_reset_and_hazards.md R210). -/
  waiting : Bool
deriving DecidableEq, Repr

/-- The whole machine. -/
structure State where
  /-- The encoder unit. -/
  enc : EncUnit
  /-- The decoder unit. -/
  dec : DecUnit
  /-- `wire_tx`: the bytes the Sink has observed (R30). -/
  wireTx : List Byte
  /-- `enc_status`: one entry per accepted ENC command (R30). -/
  encStatus : List EncStatus
  /-- `dec_results`: one entry per ended frame attempt (R30). -/
  decResults : List DecResult
  /-- The MODEL's record of the chunks handed to the Sink, failed ones included (log 9). -/
  sinkChunks : List (List Byte)
  /-- The configuration (R8, R44), changed by no step (log 4). -/
  cfg : Config
  /-- What the environment presents and no unit has taken yet, in arrival order (R31, R44, log 1). -/
  inputs : List Input
  /-- The Sink's coming answers; past the end of the list it answers `ok` (R44, log 2). -/
  sinkAnswers : List SinkAnswer
  /-- The MODEL's counter of the events that left ENC state unspecified: the argument of the free values (log 5). -/
  draws : Nat
deriving DecidableEq, Repr

/-- Why the machine stops with a fault. -/
inductive Fault where
  /-- ENC is waiting for a Sink that does not answer and accepts no command (R210, U10: stuck). Raised by ENC.WRITE,
  ENC.END, ENC.FINISH, ENC.RESET; `step` answers it only when no unit can take anything. Safe: the unit hangs on the
  hardware too (log 3). -/
  | sinkSilent
  /-- DEC is waiting for the Source and accepts nothing but the answer to its pull (R210, U10: stuck). Raised by
  DEC.BYTE, DEC.END, DEC.RESET, and by `takeInput` for a further pull; `step` answers it only when no unit can take
  anything. Safe: the unit accepts none of them on the hardware either (log 19). -/
  | sourceSilent
  /-- An access to `enc_buf` at an index outside 0..253, which does not exist (R11, R37). Raised by ENC.WRITE,
  ENC.END, ENC.FINISH, in no state a run reaches (`enc_run` is at most 253, R40 (a)). Safe (log 7). -/
  | bufIndexOutOfRange
deriving DecidableEq, Repr

/-- Why a command is not accepted. `step` answers a refusal only when no unit can take anything (log 18). -/
inductive Refusal where
  /-- The instruction has no meaning in the model yet; raised by an arm of `exec` only. Safe. -/
  | notModelled (mnemonic : String)
  /-- A reserved command code, never accepted (R81, U5). Raised by `takeInput`. Safe: the hardware has no step
  either. -/
  | reservedCommand (port : Port) (op : OpCode)
  /-- ENC.WRITE, ENC.END or ENC.FINISH while `enc_fault = 1` (R133, U3). Safe: the unit does not accept it. -/
  | encFaulted
  /-- An append that would pass `DEC_OUT_CAP` (R119, U6). Raised by DEC.BYTE and RX.BYTE. Safe. -/
  | decOutCapacity
deriving DecidableEq, Repr

/-- The frame-start state of DEC (R43), no pull outstanding. -/
def DecUnit.frameStart : DecUnit := { rem := 0#8, pend := false, bad := false, out := [], waiting := false }

/-- The frame-start state of ENC (R43), no `SinkWrite` outstanding; the buffer is logically empty, its cells do not
matter (R23). -/
def EncUnit.FrameStart (u : EncUnit) : Prop :=
  u.run = 0#8 ∧ u.lastFull = false ∧ u.fault = false ∧ u.waiting = none

/-- Right after hardware reset (R42, R200), with nothing observed yet (log 8), the configuration of this hardware
(R8, log 4), nothing presented (log 1), a Sink that will answer `ok` (R203, log 2) and no free value drawn (log 5).
No cell of `enc_buf` is listed: the cells are unspecified (R42, log 6). -/
def State.reset : State where
  enc := { run := 0#8, buf := [], lastFull := false, fault := false, waiting := none }
  dec := DecUnit.frameStart
  wireTx := []
  encStatus := []
  decResults := []
  sinkChunks := []
  cfg := Config.hardware
  inputs := []
  sinkAnswers := []
  draws := 0

end Sys2Proof.Machine
end

