-- ==== Sys2Proof/Machine/Operands.lean ====
section
/-! DEFINITION. The operand forms: the length byte (30_encoding.md R72), and the words on the two output ports
(R78, R79). -/

namespace Sys2Proof.Machine

/-- The length-byte generator: `enc_run + 1` as a byte (40_encode_transform.md R92, R94, R102; exact, log 17). -/
def lengthByte (run : Nat) : Byte := BitVec.ofNat 8 (run + 1)

/-- `lit_count(L) = L - 1`: how many literal bytes follow a length byte (R72). -/
def litCount (l : Byte) : Nat := l.toNat - 1

/-- `implies_sentinel(L) = (L < 255)`: whether the block may stand for a sentinel after its literals (R72). -/
def impliesSentinel (l : Byte) : Bool := l.toNat < 255

/-- The ENC status word: `code` and `e` (R78). -/
structure StatusWord where
  code : BitVec 2
  e : Byte
deriving DecidableEq, Repr

/-- The DEC result word: `code`, `e` and `payload` (R79). -/
structure ResultWord where
  code : BitVec 2
  e : Byte
  payload : List Byte
deriving DecidableEq, Repr

/-- The word ENC puts on its status port (R78). -/
def EncStatus.word : EncStatus → StatusWord
  | .ok => { code := 0#2, e := 0x00#8 }
  | .transportError e => { code := 3#2, e := e }

/-- The word DEC puts on its result port (R79). -/
def DecResult.word : DecResult → ResultWord
  | .ok p => { code := 0#2, e := 0x00#8, payload := p }
  | .err .malformedFrame => { code := 1#2, e := 0x00#8, payload := [] }
  | .err .unexpectedEof => { code := 2#2, e := 0x00#8, payload := [] }
  | .err (.transportError e) => { code := 3#2, e := e, payload := [] }

/-- The level output `fault`, which shows `enc_fault` at all times (R78). -/
def State.faultLine (s : State) : Bool := s.enc.fault

end Sys2Proof.Machine
end

