-- ==== Sys2Proof/Machine/Flags.lean ====
section
/-! DEFINITION. The phases (10_state.md R32, R33) and the flag computations (R34). -/

namespace Sys2Proof.Machine

/-- The encoder's phases (R32). -/
inductive EncPhase where
  | ready
  | faulted
deriving DecidableEq, Repr

/-- The decoder's phases (R33). -/
inductive DecPhase where
  | atLength
  | inLiterals
  | discard
deriving DecidableEq, Repr

/-- `enc_phase` (R32). -/
def EncUnit.phase (u : EncUnit) : EncPhase := if u.fault then .faulted else .ready

/-- `dec_phase` (R33). -/
def DecUnit.phase (u : DecUnit) : DecPhase :=
  if u.bad then .discard else if u.rem.toNat = 0 then .atLength else .inLiterals

/-- The new `dec_pend` at a length position: set exactly when `L < 255` (R34, R113). -/
def pendAfterLength (l : Byte) : Bool := impliesSentinel l

/-- Whether FinalBlock emits nothing: only if `ELIDE_EMPTY_FINAL` and `enc_last_full = 1` (R34, R96). -/
def finalBlockElided (cfg : Config) (u : EncUnit) : Bool := cfg.elideEmptyFinal && u.lastFull

end Sys2Proof.Machine
end

