-- ==== Sys2Proof/Machine/Ops.lean ====
section
/-! DEFINITION. The shared operations: the pending buffer's reads and writes (R11), `SinkWrite`, `Status`, `Result`
(R12), raising an error and recovering from it (R177, R178, R181), hardware reset (R200, R201). -/

namespace Sys2Proof.Machine

/-- What a step answers. -/
abbrev Answer := Host.Outcome State Fault Refusal

/-! ### The pending buffer as memory -/

/-- The value listed for cell `i`, `none` where the cell's content is unspecified (R23). -/
def Memory.read? : Memory → Nat → Option Byte
  | [], _ => none
  | (a, b) :: m, i => if i = a then some b else Memory.read? m i

/-- Cell `i` gets the value `v`; the list stays sorted by index. -/
def Memory.write : Memory → Nat → Byte → Memory
  | [], i, v => [(i, v)]
  | (a, b) :: m, i, v =>
    if i < a then (i, v) :: (a, b) :: m
    else if i = a then (i, v) :: m
    else (a, b) :: Memory.write m i v

/-- The canonical form: indexes strictly rising and all of them cells of `enc_buf` (R37). An unlisted cell holds no
known value, so no entry can equal what it reads as. -/
abbrev Memory.wf (m : Memory) : Prop :=
  m.Pairwise (fun c d => c.1 < d.1) ∧ ∀ c ∈ m, c.1 < bufSize

/-- Reading `enc_buf[i]`: the value listed, else the free value of that cell (R11, U7, log 6). -/
def State.bufByte (s : State) (i : Nat) : Byte :=
  (Memory.read? s.enc.buf i).getD (Config.freeBufByte s.draws i)

/-- The bytes `enc_buf[i], ..., enc_buf[i+n-1]` (R11). -/
def State.bufBytes (s : State) : (i n : Nat) → List Byte
  | _, 0 => []
  | i, n + 1 => s.bufByte i :: s.bufBytes (i + 1) n

/-- `MemRead(i, n)`, which requires `i + n ≤ 254` (R11). -/
def memRead (i n : Nat) (s : State) : Option (List Byte) :=
  if i + n ≤ bufSize then some (s.bufBytes i n) else none

/-- `MemWrite(i, 1, v)`; the cells are 0..253 (R11, R37). -/
def memWrite (i : Nat) (v : Byte) (s : State) : Option State :=
  if i < bufSize then some { s with enc := { s.enc with buf := Memory.write s.enc.buf i v } } else none

/-! ### Register updates of ENC -/

/-- `enc_run <- enc_run + 1` (R93, R102). -/
def bumpRun (s : State) : State :=
  { s with enc := { s.enc with run := BitVec.ofNat 8 (s.enc.run.toNat + 1) } }

/-- `enc_last_full <- f`. -/
def setLastFull (f : Bool) (s : State) : State := { s with enc := { s.enc with lastFull := f } }

/-- A block boundary: `enc_run <- 0`, `enc_last_full <- full` (R93, R94, R95, R131). -/
def closeRun (full : Bool) (s : State) : State :=
  { s with enc := { s.enc with run := 0#8, lastFull := full } }

/-! ### Reports -/

/-- `Status(st)` (R12). -/
def reportStatus (st : EncStatus) (s : State) : State := { s with encStatus := s.encStatus ++ [st] }

/-- `Result(r)` (R12). -/
def reportResult (r : DecResult) (s : State) : State := { s with decResults := s.decResults ++ [r] }

/-! ### Raising an error, and recovering -/

/-- `raise TransportError(e)` in an ENC operation (R177): the fault flag set, run, buffer and last_full unspecified
(free values, U1), the status reported. The operation ends with it. -/
def raiseTransportError (e : Byte) (s : State) : State :=
  reportStatus (.transportError e)
    { s with
      enc := {
        run := Config.freeEncRun s.draws
        buf := []
        lastFull := Config.freeLastFull s.draws
        fault := true
        waiting := none }
      draws := s.draws + 1 }

/-- The way back from an ENC error (R132, R181): `enc_run`, `enc_last_full`, `enc_fault` to 0. `enc_buf` is left as
it is (R39, log 14). -/
def encRecover (s : State) : State :=
  { s with enc := { s.enc with run := 0#8, lastFull := false, fault := false } }

/-- DEC back to its frame-start state (R43, R154). -/
def decFrameStart (s : State) : State := { s with dec := DecUnit.frameStart }

/-- The end of a frame attempt: exactly one result, then the frame-start state (R116, R152, R153, R178). -/
def endAttempt (r : DecResult) (s : State) : State := decFrameStart (reportResult r s)

/-- Hardware reset (R200, R202): the effect of ENC.RESET and DEC.RESET without a status; the cells of `enc_buf` are
unspecified after it; the observable sequences and the environment stay. A `SinkWrite` ENC is waiting in is abandoned,
the first `k` bytes of its chunk being on the wire (R201). -/
def hardwareReset (k : Nat) (s : State) : State :=
  decFrameStart (encRecover { s with
    enc := { s.enc with buf := [], waiting := none }
    wireTx := s.wireTx ++ (s.enc.waiting.getD []).take k
    draws := s.draws + 1 })

/-! ### SinkWrite -/

/-- How the next `SinkWrite` will go: the head of the environment's list, `ok` past its end (R203 (1), log 2). -/
def State.nextAnswer (s : State) : SinkAnswer := s.sinkAnswers.headD .ok

/-- The chunk `c` has been handed to the Sink and the bytes `sent` of it are on the transport. -/
def sinkTake (c sent : List Byte) (s : State) : State :=
  { s with
    wireTx := s.wireTx ++ sent
    sinkChunks := s.sinkChunks ++ [c]
    sinkAnswers := s.sinkAnswers.tail }

/-- The chunk `c` has been handed to a Sink that does not answer: ENC waits in this `SinkWrite`, and nothing more of
the operation happens (R210). What of `c` reaches the wire is settled by the reset that ends the wait (R201). -/
def awaitSink (c : List Byte) (s : State) : State :=
  { s with
    enc := { s.enc with waiting := some c }
    sinkChunks := s.sinkChunks ++ [c]
    sinkAnswers := s.sinkAnswers.tail }

/-- `SinkWrite(c)`, then the rest `k` of the operation if the answer is `ok` (R56); on `err(e)` a prefix of the chunk
is out and the operation raises `TransportError(e)` (R57, R177); without an answer ENC hangs in it, and ENC only
(R210, U10). -/
def emit (c : List Byte) (k : State → Answer) (s : State) : Answer :=
  match s.nextAnswer with
  | .ok => k (sinkTake c c s)
  | .err e n => .next (raiseTransportError e (sinkTake c (c.take n) s))
  | .silent => .next (awaitSink c s)

/-- Emit a block with length byte `l` and the first `n` bytes of the pending buffer as ONE chunk (R55, R92). -/
def emitBlock (l : Byte) (n : Nat) (k : State → Answer) (s : State) : Answer :=
  match memRead 0 n s with
  | none => .fault .bufIndexOutOfRange
  | some bytes => emit (l :: bytes) k s

/-- Emit the current run: length byte `enc_run + 1`, then its bytes (R94, R96). -/
def emitRun (k : State → Answer) (s : State) : Answer :=
  emitBlock (lengthByte s.enc.run.toNat) s.enc.run.toNat k s

/-- `FinalBlock()`, shared by ENC.END and ENC.FINISH (R96). -/
def finalBlock (k : State → Answer) (s : State) : Answer :=
  if finalBlockElided s.cfg s.enc then k s else emitRun k s

/-- While ENC waits for the Sink it accepts no command, ENC.RESET included (R210). -/
def requireFree (k : State → Answer) (s : State) : Answer :=
  if s.enc.waiting.isSome then .fault .sinkSilent else k s

/-- `require enc_fault == 0`: while faulted the command is refused (R133). -/
def requireHealthy (k : State → Answer) (s : State) : Answer :=
  if s.enc.fault then .refused .encFaulted else requireFree k s

/-! ### The pull from the Source -/

/-- DEC's pull from the Source blocks: DEC waits for the answer (R58, R193). -/
def beginPull (s : State) : State := { s with dec := { s.dec with waiting := true } }

/-- The pull is answered, which alone releases DEC (R193); where none had blocked, nothing changes. -/
def answerPull (s : State) : State := { s with dec := { s.dec with waiting := false } }

/-- While DEC waits for the Source it accepts no command but the answer, DEC.RESET included (R210). -/
def requireNoPull (k : State → Answer) (s : State) : Answer :=
  if s.dec.waiting then .fault .sourceSilent else k s

/-! ### The output accumulator and the frame bytes of DEC -/

/-- Whether one more byte may be appended to `dec_out` (R119). -/
def outHasRoom (s : State) : Bool :=
  match s.cfg.decOutCap with
  | none => true
  | some cap => decide (s.dec.out.length + 1 ≤ cap)

/-- `dec_out <- dec_out ++ [b]`. -/
def appendOut (b : Byte) (s : State) : State := { s with dec := { s.dec with out := s.dec.out ++ [b] } }

/-- `dec_rem <- L - 1`, `dec_pend <- 1 if L < 255 else 0` (R113). -/
def loadLength (l : Byte) (s : State) : State :=
  { s with dec := { s.dec with rem := BitVec.ofNat 8 (litCount l), pend := pendAfterLength l } }

/-- A length byte (R113): the deferred sentinel of the previous block first, if there is one. -/
def takeLength (l : Byte) (s : State) : Answer :=
  if s.dec.pend then
    if outHasRoom s then .next (loadLength l (appendOut sentinel s)) else .refused .decOutCapacity
  else .next (loadLength l s)

/-- A literal byte, copied verbatim (R114). -/
def takeLiteral (d : Byte) (s : State) : Answer :=
  if outHasRoom s then
    .next { appendOut d s with
      dec := { (appendOut d s).dec with rem := BitVec.ofNat 8 (s.dec.rem.toNat - 1) } }
  else .refused .decOutCapacity

/-- `dec_bad <- 1` (R115). -/
def latchBad (s : State) : State := { s with dec := { s.dec with bad := true } }

/-- One byte of the frame body, by phase (R112 to R115). -/
def takeFrameByte (d : Byte) (s : State) : Answer :=
  match s.dec.phase with
  | .discard => .next s
  | .inLiterals => takeLiteral d s
  | .atLength => if d = sentinel then .next (latchBad s) else takeLength d s

/-- The result of a frame attempt that its end decides: the latch before the truncation (R116, R180 (a)). -/
def attemptResult (u : DecUnit) : DecResult :=
  if u.bad then .err .malformedFrame
  else if 0 < u.rem.toNat then .err .unexpectedEof
  else .ok u.out

/-- The frame body is complete: one result, then the frame-start state (R116). -/
def completeFrame (s : State) : State := endAttempt (attemptResult s.dec) s

end Sys2Proof.Machine
end

