-- ==== Sys2Proof/Machine/Decoder.lean ====
section
/-! DEFINITION. The transform-level operations of the DEC command port and DEC.RESET (41_decode_transform.md,
43_streaming_decoder.md R154). -/

namespace Sys2Proof.Machine

/-- DEC.BYTE d (R112): 0x00 is not a delimiter here. -/
def execDecByte (d : Byte) (s : State) : Answer := requireNoPull (takeFrameByte d) s

/-- DEC.END (R116). -/
def execDecEnd (s : State) : Answer := requireNoPull (fun s => .next (completeFrame s)) s

/-- DEC.RESET (R154): no result. It is accepted in every phase, but not while a pull blocks (70_reset_and_hazards.md
R210, log 19). -/
def execDecReset (s : State) : Answer := requireNoPull (fun s => .next (decFrameStart s)) s

end Sys2Proof.Machine
end

