-- ==== Sys2Proof/Machine/Encoder.lean ====
section
/-! DEFINITION. The four operations of the ENC command port (40_encode_transform.md, 42_streaming_encoder.md). -/

namespace Sys2Proof.Machine

/-- The last lines of a completing operation: the block boundary and `Status(OK)`. -/
def finishOk (full : Bool) (s : State) : Answer := .next (reportStatus .ok (closeRun full s))

/-- ENC.WRITE d with `d != 0x00` (R93). -/
def bufferByte (d : Byte) (s : State) : Answer :=
  match memWrite s.enc.run.toNat d s with
  | none => .fault .bufIndexOutOfRange
  | some s1 =>
    if (bumpRun s1).enc.run.toNat = runMax then emitBlock fullLength runMax (finishOk true) (bumpRun s1)
    else .next (reportStatus .ok (setLastFull false (bumpRun s1)))

/-- ENC.WRITE d (R92): the sentinel detector chooses R94 or R93. -/
def execEncWrite (d : Byte) (s : State) : Answer :=
  requireHealthy (if d = sentinel then emitRun (finishOk false) else bufferByte d) s

/-- ENC.END (R95). -/
def execEncEnd (s : State) : Answer := requireHealthy (finalBlock (finishOk false)) s

/-- ENC.FINISH (R131): the final block, then the delimiter as a chunk of its own. -/
def execEncFinish (s : State) : Answer :=
  requireHealthy (finalBlock (emit [sentinel] (finishOk false))) s

/-- The effect of ENC.RESET: nothing sent, `OK` reported (R132). -/
def resetOk (s : State) : Answer := .next (reportStatus .ok (encRecover s))

/-- ENC.RESET (R132): accepted always, but for a unit that waits for the Sink (R210). -/
def execEncReset (s : State) : Answer := requireFree resetOk s

end Sys2Proof.Machine
end

