-- ==== Sys2Proof/Machine/Receiver.lean ====
section
/-! DEFINITION. The stream-level operations of the DEC command port (43_streaming_decoder.md R151 to R153): the Source's
answers to DEC's pulls (20_memory.md R58), accepted while DEC waits and releasing it. -/

namespace Sys2Proof.Machine

/-- RX.BYTE d (R151): the receive-side sentinel detector. -/
def execRxByte (d : Byte) (s : State) : Answer :=
  if d = sentinel then .next (completeFrame (answerPull s)) else takeFrameByte d (answerPull s)

/-- RX.EOF (R152): always `Err(UnexpectedEof)`. -/
def execRxEof (s : State) : Answer := .next (endAttempt (.err .unexpectedEof) (answerPull s))

/-- RX.ERR e (R153): always `Err(TransportError(e))`. -/
def execRxErr (e : Byte) (s : State) : Answer := .next (endAttempt (.err (.transportError e)) (answerPull s))

end Sys2Proof.Machine
end

