-- ==== Sys2Proof/Machine/Dispatch.lean ====
section
/-! DEFINITION. One arm per operation: the meaning it calls. -/

namespace Sys2Proof.Machine

def exec (i : Instr) (s : State) : Host.Outcome State Fault Refusal :=
  match i with
  | .encWrite d => Sys2Proof.Machine.execEncWrite d s
  | .encEnd => Sys2Proof.Machine.execEncEnd s
  | .encReset => Sys2Proof.Machine.execEncReset s
  | .encFinish => Sys2Proof.Machine.execEncFinish s
  | .decByte d => Sys2Proof.Machine.execDecByte d s
  | .decEnd => Sys2Proof.Machine.execDecEnd s
  | .decReset => Sys2Proof.Machine.execDecReset s
  | .rxByte d => Sys2Proof.Machine.execRxByte d s
  | .rxEof => Sys2Proof.Machine.execRxEof s
  | .rxErr e => Sys2Proof.Machine.execRxErr e s

end Sys2Proof.Machine
end

