-- ==== Sys2Proof/Machine/Fetch.lean ====
section
/-! DEFINITION. How commands reach the machine (10_state.md R31, 30_encoding.md R76): presented by the environment, on
a port of their own unit; and which of them has to wait for which. -/

namespace Sys2Proof.Machine

/-- The stream-level operations (R155, R156): the answers to DEC's pulls (R58). -/
def isStreamLevel : Instr → Bool
  | .rxByte _ | .rxEof | .rxErr _ => true
  | .encWrite _ | .encEnd | .encReset | .encFinish | .decByte _ | .decEnd | .decReset => false

/-- Whether an input answers a pull from the Source. -/
def Input.isAnswer : Input → Bool
  | .pull | .rst _ => false
  | .command c =>
    match decode c with
    | .ok i => isStreamLevel i
    | .error _ => false

/-- The unit an input is for: a command's port (R31), DEC for its pull (R58), both units for the reset (R200). -/
def Input.unit? : Input → Option Port
  | .command c => some c.port
  | .pull => some .dec
  | .rst _ => none

/-- Whether two inputs are in one unit's sequence (R63 (a), R206). -/
def Input.sameUnit (x y : Input) : Bool := x.unit?.isSome && x.unit? == y.unit?

/-- Whether the input `x` waits for `y`, presented before it and not taken: each unit takes its own in order
(R63 (a)), but for the answer DEC is waiting for, which does not wait for the commands that wait for it (R193). -/
def Input.waitsFor (s : State) (x y : Input) : Bool :=
  x.sameUnit y && !(s.dec.waiting && x.isAnswer && !y.isAnswer)

/-- The inputs for one unit, in arrival order: its one command sequence (70_reset_and_hazards.md R206,
93_implementation_defined.md U11). -/
def inputsFor (p : Port) (l : List Input) : List Input := l.filter (fun x => x.unit? == some p)

/-- The producer presents one more command, ahead of the others. -/
def presentFirst (c : CmdWord) (s : State) : State := { s with inputs := .command c :: s.inputs }

/-- Commands as the environment presents them, one word per operation (R85, R86). -/
def present (cmds : List Instr) : List Input := cmds.map (fun i => .command (encode i))

end Sys2Proof.Machine
end

