-- ==== Sys2Proof/Machine/Schedule.lean ====
section
/-! DEFINITION. Which input the machine takes next. The units are independent agents (60_exceptions.md R191,
20_memory.md R63 (d)): each takes its own commands in arrival order, and a unit that cannot take its next command,
because it waits for the Sink or the Source (70_reset_and_hazards.md R210) or refuses the command, holds up its own
commands only. -/

namespace Sys2Proof.Machine

/-- What taking one input does: a reset, a pull that blocks (one at a time, R58), or the operation its word selects; a
reserved word is refused (R81). -/
def takeInput (x : Input) (s : State) : Answer :=
  match x with
  | .rst k => .next (hardwareReset k s)
  | .pull => requireNoPull (fun s => .next (beginPull s)) s
  | .command c =>
    match decode c with
    | .ok i => exec i s
    | .error (.reservedCode port op) => .refused (.reservedCommand port op)

/-- The state after the first input, in arrival order, that can be taken: it waits for none of those passed over
before it (`passed`), and taking it answers a next state. An input taken is taken once (R59); the others stay. -/
def firstTaken : (passed rest : List Input) → State → Option State
  | _, [], _ => none
  | passed, x :: rest, s =>
    if passed.any (Input.waitsFor s x) then firstTaken (passed ++ [x]) rest s
    else
      match takeInput x { s with inputs := passed ++ rest } with
      | .next t => some t
      | .fault _ | .refused _ => firstTaken (passed ++ [x]) rest s

end Sys2Proof.Machine
end

