-- ==== Sys2Proof/Machine/Step.lean ====
section
/-! DEFINITION. One step: one input taken and run to completion (20_memory.md R63 (a), 92_eei_decisions.md D1). -/

namespace Sys2Proof.Machine

/-- A step takes the first input that can be taken. If there are inputs and no unit can take its own, the step answers
why the oldest of them cannot be: its refusal, or the fault of a waiting unit (logs 3, 18, 19). With nothing presented
the machine is idle and keeps its state (60_exceptions.md R193, log 12). -/
def step (s : State) : Host.Outcome State Fault Refusal :=
  match s.inputs with
  | [] => .next s
  | x :: rest =>
    match firstTaken [] s.inputs s with
    | some t => .next t
    | none => takeInput x { s with inputs := rest }

/-- The command of a table word presented ahead of the others, so that the very next step runs it (logs 11, 13).
A number that is no command word presents nothing. -/
def State.withFetchWord (s : State) (nbits w : Nat) : State :=
  match tableCommand nbits w with
  | none => s
  | some c => presentFirst c s

end Sys2Proof.Machine
end

