-- ==== Sys2Proof/Machine/Pseudo.lean ====
section
/-! DEFINITION. The pseudo-operations and their expansions (30_encoding.md R86). -/

namespace Sys2Proof.Machine

/-- `ENC.WRITEV P`. -/
def encWriteV (p : List Byte) : List Instr := p.map Instr.encWrite

/-- `ENC.ENCODE P`. -/
def encEncode (p : List Byte) : List Instr := encWriteV p ++ [.encEnd]

/-- `ENC.FRAME P`. -/
def encFrame (p : List Byte) : List Instr := encWriteV p ++ [.encFinish]

/-- `DEC.DECODE F`. -/
def decDecode (f : List Byte) : List Instr := f.map Instr.decByte ++ [.decEnd]

/-- `RX.CHUNK W`. -/
def rxChunk (w : List Byte) : List Instr := w.map Instr.rxByte

end Sys2Proof.Machine
end

