-- ==== Sys2Proof/Machine/Transform.lean ====
section
/-! DEFINITION. The pure functions the operations compute a byte at a time: `encode` (40_encode_transform.md R90)
and `decode` (41_decode_transform.md R110), which the spec keeps as the defining functions (90_conflicts.md C3). -/

namespace Sys2Proof.Machine

/-- The loop of R90 with `buf` as the pending bytes (`run` is its length), answering the blocks in the order they
are emitted: the spec's `out` is their concatenation. -/
def blocksFrom (elide : Bool) (buf : List Byte) (lastFull : Bool) : List Byte → List (List Byte)
  | [] => if elide && lastFull then [] else [lengthByte buf.length :: buf]
  | b :: rest =>
    if b = sentinel then (lengthByte buf.length :: buf) :: blocksFrom elide [] false rest
    else if buf.length + 1 = runMax then (fullLength :: (buf ++ [b])) :: blocksFrom elide [] true rest
    else blocksFrom elide (buf ++ [b]) false rest

/-- The blocks of `encode(P)`; `elide` is `ELIDE_EMPTY_FINAL`. -/
def cobsBlocks (elide : Bool) (p : List Byte) : List (List Byte) := blocksFrom elide [] false p

/-- `encode(P)` (R90). -/
def cobsEncode (elide : Bool) (p : List Byte) : List Byte := (cobsBlocks elide p).flatten

/-- The loop of R110 over the bytes from the cursor on, with `out` accumulated so far. The first argument bounds
the number of blocks; the frame's length is enough, since every block has at least one byte. -/
def decodeFrom : (fuel : Nat) → (out : List Byte) → List Byte → DecResult
  | _, out, [] => .ok out
  | 0, out, _ :: _ => .ok out
  | fuel + 1, out, l :: rest =>
    if l = sentinel then .err .malformedFrame
    else if rest.length < litCount l then .err .unexpectedEof
    else
      decodeFrom fuel
        (out ++ rest.take (litCount l)
          ++ (if impliesSentinel l && !(rest.drop (litCount l)).isEmpty then [sentinel] else []))
        (rest.drop (litCount l))

/-- `decode(F)` (R110). -/
def cobsDecode (f : List Byte) : DecResult := decodeFrom f.length [] f

/-- The lengths `r_0, ..., r_z` of the maximal zero-free runs of a payload, `r` bytes of the first already seen
(R91). -/
def runLengthsFrom (r : Nat) : List Byte → List Nat
  | [] => [r]
  | b :: rest => if b = sentinel then r :: runLengthsFrom 0 rest else runLengthsFrom (r + 1) rest

/-- The run lengths of a payload (R91). -/
def runLengths (p : List Byte) : List Nat := runLengthsFrom 0 p

end Sys2Proof.Machine
end

