-- ==== Sys2Proof/Safety.lean ====
section
/-! DEFINITION. The terms claims are made in: the invariants of 10_state.md R40 and R41, what the Sink is assumed to
do, what an operation leaves that failed (60_exceptions.md R177), hangs or was abandoned (70_reset_and_hazards.md R210,
R201), and which inputs a claim counts. -/

namespace Sys2Proof.Machine

/-- The encoder's invariants (R40 (a), (b), (c)); they say nothing while `enc_fault = 1` (R25), nor inside an operation,
which is where a waiting unit stands (R22). A unit that waits has not failed, and waits with a block or the delimiter
outstanding (R40 (e), R56). -/
def EncUnit.Inv (u : EncUnit) : Prop :=
  (u.fault = false → u.waiting = none →
    u.run.toNat ≤ 253 ∧
    (∀ i, i < u.run.toNat → ∃ b, Memory.read? u.buf i = some b ∧ b ≠ sentinel) ∧
    (u.lastFull = true → u.run = 0#8)) ∧
  (∀ c, u.waiting = some c → u.fault = false ∧ (Block.wf c = true ∨ c = [sentinel]))

/-- The decoder's invariants (R26, R28, R41): `dec_rem` is at most 254; the latch is set at a length position only;
right after a length byte 255 nothing is pending. -/
def DecUnit.Inv (u : DecUnit) : Prop :=
  u.rem.toNat ≤ 254 ∧ (u.bad = true → u.rem = 0#8) ∧ (u.rem.toNat = 254 → u.pend = false)

/-- The invariant of the machine: the pending buffer in its canonical form, both units' invariants, and `dec_out`
within its capacity (R29). -/
def State.Inv (s : State) : Prop :=
  Memory.wf s.enc.buf ∧ s.enc.Inv ∧ s.dec.Inv ∧ ∀ cap, s.cfg.decOutCap = some cap → s.dec.out.length ≤ cap

/-- The bytes of the current run, `enc_buf[0..enc_run)`, in payload order (R23). -/
def State.pending (s : State) : List Byte := s.bufBytes 0 s.enc.run.toNat

/-- The block the current run would be closed with: `[enc_run + 1] ++ enc_buf[0..enc_run)` (R40 (d)). -/
def State.runBlock (s : State) : List Byte := BitVec.ofNat 8 (s.enc.run.toNat + 1) :: s.pending

/-- How the `SinkWrite` after the next one will go. -/
def State.secondAnswer (s : State) : SinkAnswer := s.sinkAnswers.tail.headD .ok

/-- Every `SinkWrite` will answer `ok`. -/
def State.SinkOk (s : State) : Prop := ∀ a ∈ s.sinkAnswers, a = SinkAnswer.ok

/-- The Sink answers every `SinkWrite` (R203 (1), fairness F1 of R218). -/
def State.SinkAnswers (s : State) : Prop := SinkAnswer.silent ∉ s.sinkAnswers

/-- What an ENC operation that raised `TransportError(e)` leaves (R177, R57): the fault flag, the status, the bytes
`sent` on the wire, the chunks `handed` over; DEC, the results and the environment as they were. Nothing is said of
`enc_run`, `enc_buf`, `enc_last_full`: they are unspecified. -/
def EncFailedWith (s t : State) (e : Byte) (handed : List (List Byte)) (sent : List Byte) : Prop :=
  t.enc.fault = true ∧ t.enc.waiting = none ∧
  t.encStatus = s.encStatus ++ [.transportError e] ∧
  t.wireTx = s.wireTx ++ sent ∧
  t.sinkChunks = s.sinkChunks ++ handed ∧
  t.dec = s.dec ∧ t.decResults = s.decResults ∧ t.cfg = s.cfg ∧ t.inputs = s.inputs

/-- What an ENC operation leaves that hangs in the `SinkWrite` of the chunk `c` (R210): no status yet, the bytes `sent`
of its chunks before on the wire, the chunks `handed` and then `c` handed over; DEC, the results and the environment as
they were. -/
def HungWith (s t : State) (c : List Byte) (handed : List (List Byte)) (sent : List Byte) : Prop :=
  t.enc.waiting = some c ∧ t.enc.fault = false ∧
  t.encStatus = s.encStatus ∧
  t.wireTx = s.wireTx ++ sent ∧
  t.sinkChunks = s.sinkChunks ++ handed ++ [c] ∧
  t.dec = s.dec ∧ t.decResults = s.decResults ∧ t.cfg = s.cfg ∧ t.inputs = s.inputs

/-- What an ENC operation abandoned by a hardware reset leaves (R200, R201): both units in their frame-start states,
no status, no result, the bytes `sent` on the wire. -/
def AbandonedByReset (s t : State) (handed : List (List Byte)) (sent : List Byte) : Prop :=
  t.enc.FrameStart ∧ t.dec = DecUnit.frameStart ∧
  t.encStatus = s.encStatus ∧ t.decResults = s.decResults ∧
  t.wireTx = s.wireTx ++ sent ∧ t.sinkChunks = s.sinkChunks ++ handed ∧
  t.cfg = s.cfg

/-- The operation `i`, run in `s`, hangs in a `SinkWrite`; the hardware reset that arrives then, with `k` bytes of the
outstanding chunk on the wire, abandons it, and the inputs `rest` behind the reset are still to come (R201). -/
def ResetInWrite (i : Instr) (s : State) (k : Nat) (rest : List Input) (handed : List (List Byte))
    (sent : List Byte) : Prop :=
  ∃ t u, exec i s = .next t ∧ t.enc.waiting ≠ none ∧
    step { t with inputs := .rst k :: rest } = .next u ∧ u.inputs = rest ∧ AbandonedByReset s u handed sent

/-- The operations that end a frame attempt: DEC.END, RX.BYTE 0x00, RX.EOF, RX.ERR (R159). -/
def endsAttempt : Instr → Bool
  | .decEnd | .rxEof | .rxErr _ => true
  | .rxByte d => d == sentinel
  | .encWrite _ | .encEnd | .encReset | .encFinish | .decByte _ | .decReset => false

/-- Whether an input is a command that will end a frame attempt. -/
def Input.endsAttempt : Input → Bool
  | .pull | .rst _ => false
  | .command c =>
    match decode c with
    | .ok i => Machine.endsAttempt i
    | .error _ => false

end Sys2Proof.Machine
end

