-- ==== Sys2Proof/Certificates/Slice0/Obligations.lean ====
section
/-! DEFINITION. The statements about COBS-CORE for the provers. Each docstring names the rule it formalises.
Two fields the statements mention are the model's own: `sinkChunks` records the chunks the spec says are handed to
the Sink (log 9), and a cell of `enc_buf` that is not listed is the spec's "unspecified" cell (log 6). -/

open Sys2Proof Sys2Proof.Machine

/-! ### Command words -/

/-- 30_encoding.md R77 and R80: the two code tables, reserved codes included, for every value of the `d` field; as a
number a word is `op * 256 + d`. -/
def Obligations.CommandWordsSelectTheTabledOperations : Prop :=
  ∀ d : Byte,
    decode { port := .enc, bits := 0b000#3 ++ d } = .ok (.encWrite d) ∧
    decode { port := .enc, bits := 0b001#3 ++ d } = .ok .encEnd ∧
    decode { port := .enc, bits := 0b011#3 ++ d } = .ok .encReset ∧
    decode { port := .enc, bits := 0b101#3 ++ d } = .ok .encFinish ∧
    decode { port := .dec, bits := 0b000#3 ++ d } = .ok (.decByte d) ∧
    decode { port := .dec, bits := 0b001#3 ++ d } = .ok .decEnd ∧
    decode { port := .dec, bits := 0b011#3 ++ d } = .ok .decReset ∧
    decode { port := .dec, bits := 0b100#3 ++ d } = .ok (.rxByte d) ∧
    decode { port := .dec, bits := 0b101#3 ++ d } = .ok .rxEof ∧
    decode { port := .dec, bits := 0b110#3 ++ d } = .ok (.rxErr d) ∧
    (∀ op ∈ [0b010#3, 0b100#3, 0b110#3, 0b111#3],
      decode { port := .enc, bits := op ++ d } = .error (.reservedCode .enc op)) ∧
    (∀ op ∈ [0b010#3, 0b111#3], decode { port := .dec, bits := op ++ d } = .error (.reservedCode .dec op)) ∧
    (∀ op : OpCode, (op ++ d).toNat = op.toNat * 256 + d.toNat)

/-- The numbered words of 30_encoding.md R77 and of 95_test_vectors.md T16 and X21. -/
def Obligations.NumberedCommandWordsDecode : Prop :=
  decode { port := .enc, bits := 0x011#11 } = .ok (.encWrite 0x11#8) ∧
  decode { port := .enc, bits := 0x15A#11 } = .ok .encEnd ∧
  decode { port := .enc, bits := 0x300#11 } = .ok .encReset ∧
  decode { port := .enc, bits := 0x500#11 } = .ok .encFinish ∧
  decode { port := .dec, bits := 0x003#11 } = .ok (.decByte 0x03#8) ∧
  decode { port := .dec, bits := 0x403#11 } = .ok (.rxByte 0x03#8) ∧
  decode { port := .dec, bits := 0x5FF#11 } = .ok .rxEof ∧
  decode { port := .dec, bits := 0x62A#11 } = .ok (.rxErr 0x2A#8)

/-- Decoding and encoding agree, in both directions: an encoded operation decodes to itself; a word that decodes
has the port and the code of its operation and, where the operation has an operand, is its encoding; the words that
decode are exactly the well-formed ones (30_encoding.md section 2). -/
def Obligations.DecodeAndEncodeAgree : Prop :=
  (∀ i : Instr, i.wf = true → decode (encode i) = .ok i ∧ (encode i).wf = true) ∧
  (∀ (c : CmdWord) (i : Instr), decode c = .ok i →
    c.port = i.port ∧ c.op = i.opcode ∧
    (i.opcode ≠ 0b001#3 → i.opcode ≠ 0b011#3 → i.opcode ≠ 0b101#3 → c = encode i)) ∧
  (∀ c : CmdWord, (∃ i, decode c = .ok i) ↔ c.wf = true)

/-- 30_encoding.md R78 and R79: the status and result words, and the `fault` line. -/
def Obligations.ReportWordsCarryTheirCodes : Prop :=
  (∀ (s : State) (e : Byte) (p : List Byte),
    EncStatus.ok.word = { code := 0#2, e := 0x00#8 } ∧
    (EncStatus.transportError e).word = { code := 3#2, e := e } ∧
    (DecResult.ok p).word = { code := 0#2, e := 0x00#8, payload := p } ∧
    (DecResult.err .malformedFrame).word = { code := 1#2, e := 0x00#8, payload := [] } ∧
    (DecResult.err .unexpectedEof).word = { code := 2#2, e := 0x00#8, payload := [] } ∧
    (DecResult.err (.transportError e)).word = { code := 3#2, e := e, payload := [] } ∧
    s.faultLine = s.enc.fault) ∧
  (∀ r r' : DecResult, r.word = r'.word → r = r')

/-! ### Steps, reset, idleness -/

/-- A step runs a decoded operation to completion (20_memory.md section 7). The command `c` at the head of the arrival
list, decoding to `i`, is taken if it can be, and `step` is `exec i` with that command removed; it is `exec i` also
where it cannot be taken and all presented behind it waits for it. A command that waits for none of those before it (for
the other unit, or held up until the answer it is), the oldest of which cannot be taken, is taken if it can be, and
those stay presented. Across the ports this is the model's choice: that the oldest input of the common list is taken
first (log 1; the spec leaves the interleaving open), and that a step answers the fault or the refusal of `exec` where
nothing can be taken (logs 3, 18 and 19). -/
def Obligations.StepRunsTheDecodedOperation : Prop :=
  ∀ (s : State) (c : CmdWord) (i : Instr), decode c = .ok i →
    (∀ rest, s.inputs = .command c :: rest →
      (∀ t, exec i { s with inputs := rest } = .next t → step s = .next t) ∧
      ((∀ x ∈ rest, Input.waitsFor s x (.command c) = true) → step s = exec i { s with inputs := rest })) ∧
    (∀ oldest between rest, s.inputs = oldest :: between ++ .command c :: rest →
      (∀ x ∈ between, Input.waitsFor s x oldest = true) →
      (∀ x ∈ oldest :: between, Input.waitsFor s (.command c) x = false) →
      (∀ t, takeInput oldest { s with inputs := between ++ .command c :: rest } ≠ .next t) →
      ∀ t, exec i { s with inputs := oldest :: between ++ rest } = .next t → step s = .next t)

/-- Each unit takes its commands in arrival order, one at a time (10_state.md section 5, 20_memory.md section 7): a step
that answers a next state, with something presented, took one input and left all others presented; no reset was
presented before it, and nothing for its own unit, but that DEC, waiting for the Source, takes the answer before the
commands that wait with it (60_exceptions.md section 6). -/
def Obligations.EachUnitTakesItsCommandsInOrder : Prop :=
  ∀ s t : State, s.inputs ≠ [] → step s = .next t →
    ∃ (before : List Input) (x : Input) (rest : List Input),
      s.inputs = before ++ x :: rest ∧ t.inputs = before ++ rest ∧
      takeInput x { s with inputs := before ++ rest } = .next t ∧
      ∀ y ∈ before, (∀ k, y ≠ .rst k) ∧
        (x.sameUnit y = true → s.dec.waiting = true ∧ x.isAnswer = true ∧ y.isAnswer = false)

/-- The units do not hold each other up (20_memory.md section 7, 60_exceptions.md sections 3 and 6,
70_reset_and_hazards.md section 3): with no reset presented, if what is presented for one unit, presented alone, is all
taken, then it is all taken also among the other unit's, whatever becomes of those (a hang, a refusal, an error), and
leaves that unit and its observables the same. -/
def Obligations.UnitsDoNotHoldEachOtherUp : Prop :=
  ∀ s : State, (∀ k, .rst k ∉ s.inputs) →
    (∀ t, Sys2Proof.core.run (inputsFor .dec s.inputs).length { s with inputs := inputsFor .dec s.inputs } = .next t →
      ∃ n u, Sys2Proof.core.run n s = .next u ∧ inputsFor .dec u.inputs = [] ∧
        u.dec = t.dec ∧ u.decResults = t.decResults) ∧
    (∀ t, Sys2Proof.core.run (inputsFor .enc s.inputs).length { s with inputs := inputsFor .enc s.inputs } = .next t →
      ∃ n u, Sys2Proof.core.run n s = .next u ∧ inputsFor .enc u.inputs = [] ∧
        u.enc = t.enc ∧ u.wireTx = t.wireTx ∧ u.encStatus = t.encStatus ∧ u.sinkChunks = t.sinkChunks)

/-- 30_encoding.md R81: a reserved code is never accepted: no step takes it, and where all else that is presented waits
behind it, there is no step. -/
def Obligations.ReservedCommandCodesAreRefused : Prop :=
  ∀ (s : State) (c : CmdWord),
    ((c.port = .enc ∧ (c.op = 0b010#3 ∨ c.op = 0b100#3 ∨ c.op = 0b110#3 ∨ c.op = 0b111#3)) ∨
      (c.port = .dec ∧ (c.op = 0b010#3 ∨ c.op = 0b111#3))) →
    takeInput (.command c) s = .refused (.reservedCommand c.port c.op) ∧
    (∀ t, step s = .next t → t.inputs.count (.command c) = s.inputs.count (.command c)) ∧
    (∀ rest, s.inputs = .command c :: rest → (∀ x ∈ rest, Input.waitsFor s x (.command c) = true) →
      step s = .refused (.reservedCommand c.port c.op))

/-- The model's choice (log 12), from 60_exceptions.md section 6: with nothing to take, the machine keeps its
state. -/
def Obligations.IdleMachineKeepsItsState : Prop :=
  ∀ s : State, s.inputs = [] → step s = .next s

/-- 70_reset_and_hazards.md R200 and R202: `rst` puts both units in their frame-start states, the cells of `enc_buf`
unspecified, with no status, and leaves the environment alone; a pull from the Source DEC was waiting in is abandoned
(R201). Where ENC was waiting in a `SinkWrite`, that is
abandoned too; the prefix of its chunk on the wire is R201's, stated in ResetDuringSinkWriteAbandonsTheOperation. -/
def Obligations.HardwareResetPutsBothUnitsAtFrameStart : Prop :=
  ∀ (s : State) (k : Nat) (rest : List Input), s.inputs = .rst k :: rest →
    ∃ t, step s = .next t ∧
      t.enc.run = 0#8 ∧ t.enc.lastFull = false ∧ t.enc.fault = false ∧ t.enc.waiting = none ∧
      (∀ a, Memory.read? t.enc.buf a = none) ∧
      t.dec.rem = 0#8 ∧ t.dec.pend = false ∧ t.dec.bad = false ∧ t.dec.out = [] ∧ t.dec.waiting = false ∧
      t.encStatus = s.encStatus ∧ t.decResults = s.decResults ∧
      (s.enc.waiting = none → t.wireTx = s.wireTx) ∧
      t.sinkChunks = s.sinkChunks ∧ t.inputs = rest ∧ t.sinkAnswers = s.sinkAnswers ∧ t.cfg = s.cfg

/-- 10_state.md R42: the reset values, after hardware reset (State.reset), and equally after ENC.RESET (encoder
half, from every state in which ENC is not waiting for the Sink, R210) and DEC.RESET (decoder half, from every state
in which DEC is not waiting for the Source). -/
def Obligations.ResetValuesAreTheTabledOnes : Prop :=
  (State.reset.enc.run = 0#8 ∧ State.reset.enc.lastFull = false ∧ State.reset.enc.fault = false ∧
    (∀ a, Memory.read? State.reset.enc.buf a = none) ∧
    State.reset.dec.rem = 0#8 ∧ State.reset.dec.pend = false ∧ State.reset.dec.bad = false ∧
    State.reset.dec.out = []) ∧
  (∀ s : State, s.enc.waiting = none → ∃ t, exec .encReset s = .next t ∧
    t.enc.run = 0#8 ∧ t.enc.lastFull = false ∧ t.enc.fault = false) ∧
  (∀ s : State, s.dec.waiting = false → ∃ t, exec .decReset s = .next t ∧
    t.dec.rem = 0#8 ∧ t.dec.pend = false ∧ t.dec.bad = false ∧ t.dec.out = [])

/-- 70_reset_and_hazards.md R201: a hardware reset while ENC waits for the Sink abandons the operation, for every
operation and every `SinkWrite` it can be waiting in; and from every state in which ENC waits, whichever chunk is
outstanding. The number `k` of bytes of it on the wire comes with the reset (log 10). -/
def Obligations.ResetDuringSinkWriteAbandonsTheOperation : Prop :=
  (∀ (s : State) (k : Nat) (rest : List Input),
    s.enc.fault = false → s.enc.waiting = none → s.enc.run.toNat ≤ 253 →
    (s.nextAnswer = .silent →
      ResetInWrite (.encWrite sentinel) s k rest [s.runBlock] (s.runBlock.take k) ∧
      (∀ d, d ≠ sentinel → s.enc.run.toNat = 253 →
        ResetInWrite (.encWrite d) s k rest [fullLength :: (s.pending ++ [d])]
          ((fullLength :: (s.pending ++ [d])).take k)) ∧
      (finalBlockElided s.cfg s.enc = false →
        ResetInWrite .encEnd s k rest [s.runBlock] (s.runBlock.take k) ∧
        ResetInWrite .encFinish s k rest [s.runBlock] (s.runBlock.take k)) ∧
      (finalBlockElided s.cfg s.enc = true →
        ResetInWrite .encFinish s k rest [[sentinel]] ([sentinel].take k))) ∧
    (finalBlockElided s.cfg s.enc = false → s.nextAnswer = .ok → s.secondAnswer = .silent →
      ResetInWrite .encFinish s k rest [s.runBlock, [sentinel]] (s.runBlock ++ [sentinel].take k))) ∧
  (∀ (s : State) (k : Nat) (rest : List Input) (c : List Byte),
    s.enc.waiting = some c → s.inputs = .rst k :: rest →
    ∃ t, step s = .next t ∧ AbandonedByReset s t [] (c.take k) ∧ t.inputs = rest)

/-! ### The ENC operations -/

/-- 40_encode_transform.md R93: a non-sentinel byte is buffered; the 254th of a run closes a full block as one
chunk of 255 bytes; a failing Sink raises `TransportError(e)`. -/
def Obligations.EncWriteOfNonZeroByte : Prop :=
  ∀ (s : State) (d : Byte), s.enc.fault = false → s.enc.waiting = none → d ≠ sentinel →
    s.enc.run.toNat ≤ 253 →
    (s.enc.run.toNat < 253 →
      exec (.encWrite d) s = .next { s with
        enc := {
          run := BitVec.ofNat 8 (s.enc.run.toNat + 1)
          buf := Memory.write s.enc.buf s.enc.run.toNat d
          lastFull := false
          fault := false
          waiting := none }
        encStatus := s.encStatus ++ [.ok] }) ∧
    (s.enc.run.toNat = 253 → s.nextAnswer = .ok →
      exec (.encWrite d) s = .next { s with
        enc := {
          run := 0#8
          buf := Memory.write s.enc.buf 253 d
          lastFull := true
          fault := false
          waiting := none }
        wireTx := s.wireTx ++ (fullLength :: (s.bufBytes 0 253 ++ [d]))
        sinkChunks := s.sinkChunks ++ [fullLength :: (s.bufBytes 0 253 ++ [d])]
        sinkAnswers := s.sinkAnswers.tail
        encStatus := s.encStatus ++ [.ok] }) ∧
    (∀ e k, s.enc.run.toNat = 253 → s.nextAnswer = .err e k →
      ∃ t, exec (.encWrite d) s = .next t ∧
        EncFailedWith s t e [fullLength :: (s.bufBytes 0 253 ++ [d])]
          ((fullLength :: (s.bufBytes 0 253 ++ [d])).take k))

/-- 40_encode_transform.md R94: a sentinel byte closes the run as one block; the 0x00 itself is neither stored nor
sent; a failing Sink raises `TransportError(e)`. -/
def Obligations.EncWriteOfSentinelByte : Prop :=
  ∀ s : State, s.enc.fault = false → s.enc.waiting = none → s.enc.run.toNat ≤ 253 →
    (s.nextAnswer = .ok →
      exec (.encWrite sentinel) s = .next { s with
        enc := { s.enc with run := 0#8, lastFull := false }
        wireTx := s.wireTx ++ s.runBlock
        sinkChunks := s.sinkChunks ++ [s.runBlock]
        sinkAnswers := s.sinkAnswers.tail
        encStatus := s.encStatus ++ [.ok] }) ∧
    (∀ e k, s.nextAnswer = .err e k →
      ∃ t, exec (.encWrite sentinel) s = .next t ∧
        EncFailedWith s t e [s.runBlock] (s.runBlock.take k))

/-- 40_encode_transform.md R95 and R96: ENC.END emits the final block, even an empty one, unless
`ELIDE_EMPTY_FINAL` is true and the last thing emitted was a full block; it sends no delimiter. -/
def Obligations.EncEndEmitsTheFinalBlock : Prop :=
  ∀ s : State, s.enc.fault = false → s.enc.waiting = none → s.enc.run.toNat ≤ 253 →
    (s.cfg.elideEmptyFinal = true ∧ s.enc.lastFull = true →
      exec .encEnd s = .next { s with
        enc := { s.enc with run := 0#8, lastFull := false }
        encStatus := s.encStatus ++ [.ok] }) ∧
    (¬(s.cfg.elideEmptyFinal = true ∧ s.enc.lastFull = true) →
      (s.nextAnswer = .ok →
        exec .encEnd s = .next { s with
          enc := { s.enc with run := 0#8, lastFull := false }
          wireTx := s.wireTx ++ s.runBlock
          sinkChunks := s.sinkChunks ++ [s.runBlock]
          sinkAnswers := s.sinkAnswers.tail
          encStatus := s.encStatus ++ [.ok] }) ∧
      (∀ e k, s.nextAnswer = .err e k →
        ∃ t, exec .encEnd s = .next t ∧ EncFailedWith s t e [s.runBlock] (s.runBlock.take k)))

/-- 42_streaming_encoder.md R131: ENC.FINISH sends the final block, then the delimiter as a chunk of its own, then
returns to the frame-start state; if the final block fails, the delimiter is not attempted. -/
def Obligations.EncFinishSendsFinalBlockThenDelimiter : Prop :=
  ∀ s : State, s.enc.fault = false → s.enc.waiting = none → s.enc.run.toNat ≤ 253 →
    (¬(s.cfg.elideEmptyFinal = true ∧ s.enc.lastFull = true) →
      (s.nextAnswer = .ok → s.secondAnswer = .ok →
        exec .encFinish s = .next { s with
          enc := { s.enc with run := 0#8, lastFull := false }
          wireTx := s.wireTx ++ s.runBlock ++ [sentinel]
          sinkChunks := s.sinkChunks ++ [s.runBlock] ++ [[sentinel]]
          sinkAnswers := s.sinkAnswers.tail.tail
          encStatus := s.encStatus ++ [.ok] }) ∧
      (∀ e k, s.nextAnswer = .err e k →
        ∃ t, exec .encFinish s = .next t ∧ EncFailedWith s t e [s.runBlock] (s.runBlock.take k)) ∧
      (∀ e k, s.nextAnswer = .ok → s.secondAnswer = .err e k →
        ∃ t, exec .encFinish s = .next t ∧
          EncFailedWith s t e [s.runBlock, [sentinel]] (s.runBlock ++ [sentinel].take k))) ∧
    (s.cfg.elideEmptyFinal = true ∧ s.enc.lastFull = true →
      (s.nextAnswer = .ok →
        exec .encFinish s = .next { s with
          enc := { s.enc with run := 0#8, lastFull := false }
          wireTx := s.wireTx ++ [sentinel]
          sinkChunks := s.sinkChunks ++ [[sentinel]]
          sinkAnswers := s.sinkAnswers.tail
          encStatus := s.encStatus ++ [.ok] }) ∧
      (∀ e k, s.nextAnswer = .err e k →
        ∃ t, exec .encFinish s = .next t ∧ EncFailedWith s t e [[sentinel]] ([sentinel].take k)))

/-- ENC.RESET (42_streaming_encoder.md section 3) is accepted in every state in which ENC is not waiting for the Sink,
sends nothing and reports `OK`; a waiting unit does not accept it (70_reset_and_hazards.md R210). That a waiting unit
then answers the fault `sinkSilent` is the model's choice (log 3). That the cells of `enc_buf` are as before is the
model's choice too (log 14): the access matrix of 10_state.md section 9 leaves them
untouched, its section 11 calls them unspecified. -/
def Obligations.EncResetIsAlwaysAccepted : Prop :=
  ∀ s : State,
    (s.enc.waiting = none →
      exec .encReset s = .next { s with
        enc := { s.enc with run := 0#8, lastFull := false, fault := false }
        encStatus := s.encStatus ++ [.ok] }) ∧
    (s.enc.waiting ≠ none → exec .encReset s = .fault .sinkSilent)

/-- 42_streaming_encoder.md R133: while `enc_fault = 1` only ENC.RESET is accepted. (A unit that waits for the Sink
has not failed: EveryStepKeepsTheInvariant.) -/
def Obligations.FaultedEncoderAcceptsOnlyReset : Prop :=
  ∀ s : State, s.enc.fault = true →
    (∀ d, exec (.encWrite d) s = .refused .encFaulted) ∧
    exec .encEnd s = .refused .encFaulted ∧
    exec .encFinish s = .refused .encFaulted ∧
    (s.enc.waiting = none → ∃ t, exec .encReset s = .next t ∧ t.enc.fault = false)

/-- What issuing an operation twice does (20_memory.md section 5): the resets are idempotent; a second ENC.FINISH
emits the frame `01 00`, a second DEC.END the result `Ok([])`. -/
def Obligations.RepeatedOperationsActAsStated : Prop :=
  (∀ s : State, s.enc.waiting = none →
    ∃ t u, exec .encReset s = .next t ∧ exec .encReset t = .next u ∧ u.enc = t.enc) ∧
  (∀ s : State, s.dec.waiting = false → ∃ t, exec .decReset s = .next t ∧ exec .decReset t = .next t) ∧
  (∀ s t : State, s.SinkOk → exec .encFinish s = .next t →
    ∃ u, exec .encFinish t = .next u ∧ u.wireTx = t.wireTx ++ [0x01#8, 0x00#8]) ∧
  (∀ s : State, s.dec.waiting = false → ∃ t u, exec .decEnd s = .next t ∧ exec .decEnd t = .next u ∧
    u.decResults = t.decResults ++ [.ok []])

/-- A Sink that does not answer leaves ENC waiting in the `SinkWrite`, with the chunks before it on the wire and no
status (70_reset_and_hazards.md R210, 93_implementation_defined.md U10); while it waits it accepts no command, ENC.RESET
included, and DEC goes on as if nothing had happened: a DEC command presented behind ENC's is taken. That a command
offered to a waiting unit answers a fault is the model's choice (log 3), and so is that nothing of the outstanding
chunk counts as on the wire yet (log 10). -/
def Obligations.SilentSinkHangsTheEncoder : Prop :=
  (∀ s : State, s.enc.fault = false → s.enc.waiting = none → s.enc.run.toNat ≤ 253 →
    (s.nextAnswer = .silent →
      (∃ t, exec (.encWrite sentinel) s = .next t ∧ HungWith s t s.runBlock [] []) ∧
      (∀ d, d ≠ sentinel → s.enc.run.toNat = 253 →
        ∃ t, exec (.encWrite d) s = .next t ∧ HungWith s t (fullLength :: (s.pending ++ [d])) [] []) ∧
      (finalBlockElided s.cfg s.enc = false →
        (∃ t, exec .encEnd s = .next t ∧ HungWith s t s.runBlock [] []) ∧
        (∃ t, exec .encFinish s = .next t ∧ HungWith s t s.runBlock [] [])) ∧
      (finalBlockElided s.cfg s.enc = true →
        ∃ t, exec .encFinish s = .next t ∧ HungWith s t [sentinel] [] [])) ∧
    (finalBlockElided s.cfg s.enc = false → s.nextAnswer = .ok → s.secondAnswer = .silent →
      ∃ t, exec .encFinish s = .next t ∧ HungWith s t [sentinel] [s.runBlock] s.runBlock)) ∧
  (∀ s : State, s.enc.waiting ≠ none → s.enc.fault = false →
    (∀ i, i.port = .enc → exec i s = .fault .sinkSilent) ∧
    (∀ (c d : CmdWord) (j : Instr) (rest : List Input) (t : State),
      c.port = .enc → d.port = .dec → decode d = .ok j → s.inputs = .command c :: .command d :: rest →
      exec j { s with inputs := .command c :: rest } = .next t → step s = .next t))

/-- A pull from the Source that blocks (20_memory.md section 5, 70_reset_and_hazards.md section 3,
93_implementation_defined.md U10): DEC waits, its frame as it was; it accepts no other command then, DEC.RESET included,
and no further pull; the RX command that answers the pull does what it does where none has blocked, and releases DEC,
also where commands that wait were presented before it; ENC goes on. That the blocked pull is an input, and that what
is offered to a waiting DEC answers a fault, is the model's choice (log 19). -/
def Obligations.BlockedPullHoldsTheDecoder : Prop :=
  (∀ (s : State) (rest : List Input), s.dec.waiting = false → s.inputs = .pull :: rest →
    step s = .next { s with dec := { s.dec with waiting := true }, inputs := rest }) ∧
  (∀ s : State, s.dec.waiting = true →
    (∀ i, i.port = .dec → isStreamLevel i = false → exec i s = .fault .sourceSilent) ∧
    takeInput .pull s = .fault .sourceSilent) ∧
  (∀ (s : State) (i : Instr), isStreamLevel i = true →
    exec i s = exec i { s with dec := { s.dec with waiting := false } } ∧
    ∀ t, exec i s = .next t → t.dec.waiting = false) ∧
  (∀ (s t : State) (c : CmdWord) (i : Instr) (held rest : List Input), s.dec.waiting = true →
    decode c = .ok i → isStreamLevel i = true →
    s.inputs = held ++ .command c :: rest → (∀ x ∈ held, x.unit? = some .dec ∧ x.isAnswer = false) →
    exec i { s with inputs := held ++ rest } = .next t → step s = .next t) ∧
  (∀ (s t : State) (c : CmdWord) (i : Instr) (held rest : List Input), s.dec.waiting = true →
    decode c = .ok i → i.port = .enc →
    s.inputs = held ++ .command c :: rest → (∀ x ∈ held, x.unit? = some .dec ∧ x.isAnswer = false) →
    exec i { s with inputs := held ++ rest } = .next t → step s = .next t)

/-- A waiting unit is blocked and keeps its state, and is released only by the answer or by hardware reset
(60_exceptions.md section 6, 70_reset_and_hazards.md sections 1 and 3): of ENC, whose answer the Sink never gives, only
by the reset; of DEC by the RX command that answers the pull, or the reset. DEC comes to wait only by a pull that
blocks (log 19). -/
def Obligations.WaitingUnitsAreReleasedOnlyByTheirAnswer : Prop :=
  ∀ s t : State, step s = .next t →
    (s.enc.waiting ≠ none →
      t.enc = s.enc ∨ ∃ k before rest, s.inputs = before ++ .rst k :: rest ∧ t.inputs = before ++ rest) ∧
    (s.dec.waiting = true →
      t.dec = s.dec ∨
      (∃ k before rest, s.inputs = before ++ .rst k :: rest ∧ t.inputs = before ++ rest) ∨
      (∃ x before rest, x.isAnswer = true ∧ s.inputs = before ++ x :: rest ∧ t.inputs = before ++ rest)) ∧
    (s.dec.waiting = false → t.dec.waiting = true →
      ∃ before rest, s.inputs = before ++ .pull :: rest ∧ t.inputs = before ++ rest)

/-- The sticky fault flag (10_state.md section 2, 60_exceptions.md section 2): a step that sets it was an ENC
operation whose last chunk the Sink answered with `err(e)`, and it reports `TransportError(e)` with a prefix of that
chunk on the wire after the complete ones; a step that clears it took ENC.RESET or a hardware reset. -/
def Obligations.FaultFlagChangesOnlyAsStated : Prop :=
  (∀ (s t : State) (i : Instr), exec i s = .next t → s.enc.fault = false → t.enc.fault = true →
    i.port = .enc ∧
    ∃ (e : Byte) (k : Nat) (before : List (List Byte)) (chunk : List Byte),
      SinkAnswer.err e k ∈ s.sinkAnswers ∧
      EncFailedWith s t e (before ++ [chunk]) (before.flatten ++ chunk.take k)) ∧
  (∀ s t : State, step s = .next t → s.enc.fault = true → t.enc.fault = false →
    (∃ k before rest, s.inputs = before ++ .rst k :: rest ∧ t.inputs = before ++ rest) ∨
    (∃ c before rest, s.inputs = before ++ .command c :: rest ∧ t.inputs = before ++ rest ∧
      decode c = .ok .encReset))

/-- Every accepted ENC command that ends, ends with exactly one status, `OK` exactly when the fault flag is clear
after it (42_streaming_encoder.md section 4); one that hangs in a `SinkWrite` has not ended and has none yet; no DEC
command reports a status. -/
def Obligations.OneStatusPerEncCommand : Prop :=
  ∀ (i : Instr) (s t : State), exec i s = .next t →
    (i.port = .enc →
      (t.encStatus = s.encStatus ++ [.ok] ∧ t.enc.fault = false ∧ t.enc.waiting = none) ∨
      (∃ e k, SinkAnswer.err e k ∈ s.sinkAnswers ∧
        t.encStatus = s.encStatus ++ [.transportError e] ∧ t.enc.fault = true ∧ t.enc.waiting = none) ∨
      (SinkAnswer.silent ∈ s.sinkAnswers ∧ t.encStatus = s.encStatus ∧ t.enc.waiting ≠ none)) ∧
    (i.port = .dec → t.encStatus = s.encStatus)

/-! ### Frames -/

/-- What an ENC command leaves unchanged (10_state.md section 1): the decoder, its results, the configuration and
what is still to arrive. -/
def Obligations.EncCommandsLeaveTheDecoderAlone : Prop :=
  ∀ (i : Instr) (s t : State), i.port = .enc → exec i s = .next t →
    t.dec = s.dec ∧ t.decResults = s.decResults ∧ t.cfg = s.cfg ∧ t.inputs = s.inputs

/-- What a DEC command leaves unchanged (10_state.md section 1): the encoder, every byte of its buffer, the wire,
the statuses, the Sink's answers, the configuration and what is still to arrive. -/
def Obligations.DecCommandsLeaveTheEncoderAlone : Prop :=
  ∀ (i : Instr) (s t : State), i.port = .dec → exec i s = .next t →
    t.enc = s.enc ∧ (∀ a, t.bufByte a = s.bufByte a) ∧
    t.wireTx = s.wireTx ∧ t.encStatus = s.encStatus ∧ t.sinkChunks = s.sinkChunks ∧
    t.sinkAnswers = s.sinkAnswers ∧ t.cfg = s.cfg ∧ t.inputs = s.inputs

/-- The pending buffer's frame (10_state.md sections 2 and 8): a non-sentinel ENC.WRITE that does not fail changes
the cell at index `enc_run`, which gets the byte, and no other; every other ENC command that does not fail changes
none. That ENC.RESET changes none is the model's choice (log 14): the access matrix of section 9 says so, section 11
calls the cells unspecified after it. -/
def Obligations.BufferChangesOnlyAtTheRunCounter : Prop :=
  ∀ (i : Instr) (s t : State), i.port = .enc → exec i s = .next t →
    t.enc.fault = false →
    ∀ a, t.bufByte a =
      match i with
      | .encWrite d => if d ≠ sentinel ∧ a = s.enc.run.toNat then d else s.bufByte a
      | _ => s.bufByte a

/-- The two units' commands commute (60_exceptions.md section 6, 20_memory.md section 7): the order in which an ENC
and a DEC command are taken makes no difference to the state they lead to. -/
def Obligations.EncAndDecCommandsCommute : Prop :=
  ∀ (i j : Instr) (s : State), i.port = .enc → j.port = .dec →
    (∀ t u, exec i s = .next t → exec j t = .next u →
      ∃ v, exec j s = .next v ∧ exec i v = .next u) ∧
    (∀ v u, exec j s = .next v → exec i v = .next u →
      ∃ t, exec i s = .next t ∧ exec j t = .next u)

/-- The observable sequences are append-only (10_state.md section 4): no step, hardware reset included, takes
anything back. -/
def Obligations.ObservableSequencesOnlyGrow : Prop :=
  ∀ s t : State, step s = .next t →
    s.wireTx <+: t.wireTx ∧ s.encStatus <+: t.encStatus ∧ s.decResults <+: t.decResults

/-! ### The DEC operations -/

/-- 41_decode_transform.md R113: a length byte resolves the deferred sentinel of the previous block and loads the
literal count; the append is refused if it would pass `DEC_OUT_CAP`. -/
def Obligations.DecByteTakesALengthByte : Prop :=
  ∀ (s : State) (d : Byte), s.dec.waiting = false → s.dec.bad = false → s.dec.rem = 0#8 → d ≠ sentinel →
    (s.dec.pend = true → (∀ cap, s.cfg.decOutCap = some cap → s.dec.out.length + 1 ≤ cap) →
      exec (.decByte d) s = .next { s with
        dec := {
          rem := BitVec.ofNat 8 (d.toNat - 1)
          pend := decide (d.toNat < 255)
          bad := false
          out := s.dec.out ++ [0x00#8]
          waiting := false } }) ∧
    (∀ cap, s.dec.pend = true → s.cfg.decOutCap = some cap → cap < s.dec.out.length + 1 →
      exec (.decByte d) s = .refused .decOutCapacity) ∧
    (s.dec.pend = false →
      exec (.decByte d) s = .next { s with
        dec := {
          rem := BitVec.ofNat 8 (d.toNat - 1)
          pend := decide (d.toNat < 255)
          bad := false
          out := s.dec.out
          waiting := false } })

/-- 41_decode_transform.md R114: a literal byte is copied verbatim, 0x00 included; the append is refused if it would
pass `DEC_OUT_CAP`. -/
def Obligations.DecByteCopiesALiteralByte : Prop :=
  ∀ (s : State) (d : Byte), s.dec.waiting = false → s.dec.bad = false → 0 < s.dec.rem.toNat →
    ((∀ cap, s.cfg.decOutCap = some cap → s.dec.out.length + 1 ≤ cap) →
      exec (.decByte d) s = .next { s with
        dec := {
          rem := BitVec.ofNat 8 (s.dec.rem.toNat - 1)
          pend := s.dec.pend
          bad := false
          out := s.dec.out ++ [d]
          waiting := false } }) ∧
    (∀ cap, s.cfg.decOutCap = some cap → cap < s.dec.out.length + 1 →
      exec (.decByte d) s = .refused .decOutCapacity)

/-- 41_decode_transform.md R115: a 0x00 at a length position sets the latch; with the latch set every byte is
ignored. -/
def Obligations.DecByteLatchesMalformedFrame : Prop :=
  ∀ (s : State) (d : Byte), s.dec.waiting = false →
    (s.dec.bad = true → exec (.decByte d) s = .next s) ∧
    (s.dec.bad = false → s.dec.rem = 0#8 → d = sentinel →
      exec (.decByte d) s = .next { s with dec := { s.dec with bad := true } })

/-- 41_decode_transform.md R119: an append past `DEC_OUT_CAP` is refused, and with no capacity none is. -/
def Obligations.AppendPastTheCapacityIsRefused : Prop :=
  ∀ (s : State) (d : Byte), s.dec.bad = false →
    ((s.dec.rem = 0#8 ∧ s.dec.pend = true ∧ d ≠ sentinel) ∨ 0 < s.dec.rem.toNat) →
    (∀ cap, s.cfg.decOutCap = some cap → cap < s.dec.out.length + 1 →
      (s.dec.waiting = false → exec (.decByte d) s = .refused .decOutCapacity) ∧
      (d ≠ sentinel → exec (.rxByte d) s = .refused .decOutCapacity)) ∧
    (s.cfg.decOutCap = none →
      (s.dec.waiting = false →
        ∃ t, exec (.decByte d) s = .next t ∧ t.dec.out.length = s.dec.out.length + 1) ∧
      (d ≠ sentinel → ∃ t, exec (.rxByte d) s = .next t ∧ t.dec.out.length = s.dec.out.length + 1))

/-- 41_decode_transform.md R116: DEC.END produces exactly one result, by the latch, then the count, and leaves the
frame-start state. -/
def Obligations.DecEndReportsTheFrame : Prop :=
  ∀ s : State, s.dec.waiting = false →
    exec .decEnd s = .next { s with
      dec := { rem := 0#8, pend := false, bad := false, out := [], waiting := false }
      decResults := s.decResults ++
        [if s.dec.bad = true then .err .malformedFrame
          else if 0 < s.dec.rem.toNat then .err .unexpectedEof
          else .ok s.dec.out] }

/-- 43_streaming_decoder.md R154: DEC.RESET, in every phase, leaves the frame-start state and produces no result.
(While a pull blocks no command is accepted: BlockedPullHoldsTheDecoder.) -/
def Obligations.DecResetAbandonsTheFrame : Prop :=
  ∀ s : State, s.dec.waiting = false →
    exec .decReset s = .next { s with dec := { rem := 0#8, pend := false, bad := false, out := [], waiting := false } }

/-- 43_streaming_decoder.md R151: RX.BYTE 0x00 is DEC.END, any other RX.BYTE is DEC.BYTE of the same byte, and it
never sets the latch. Being the answer to a pull, it is so also where that pull had blocked. -/
def Obligations.RxByteIsDecEndOrDecByte : Prop :=
  ∀ (s : State) (d : Byte),
    (d = sentinel → exec (.rxByte d) s = exec .decEnd (answerPull s) ∧ ∃ t, exec (.rxByte d) s = .next t) ∧
    (d ≠ sentinel →
      exec (.rxByte d) s = exec (.decByte d) (answerPull s) ∧
      (∀ t, exec (.rxByte d) s = .next t → t.dec.bad = s.dec.bad) ∧
      (s.cfg.decOutCap = none → ∃ t, exec (.rxByte d) s = .next t)) ∧
    (s.dec.waiting = false → answerPull s = s)

/-- 43_streaming_decoder.md R151, written out: what RX.BYTE does in each phase, with the next state in full. -/
def Obligations.RxByteRunsInEveryPhase : Prop :=
  ∀ (s : State) (d : Byte),
    (d = sentinel →
      exec (.rxByte d) s = .next { s with
        dec := { rem := 0#8, pend := false, bad := false, out := [], waiting := false }
        decResults := s.decResults ++
          [if s.dec.bad = true then .err .malformedFrame
            else if 0 < s.dec.rem.toNat then .err .unexpectedEof
            else .ok s.dec.out] }) ∧
    (d ≠ sentinel → s.dec.bad = true → exec (.rxByte d) s = .next { s with dec := { s.dec with waiting := false } }) ∧
    (d ≠ sentinel → s.dec.bad = false → 0 < s.dec.rem.toNat →
      (∀ cap, s.cfg.decOutCap = some cap → s.dec.out.length + 1 ≤ cap) →
      exec (.rxByte d) s = .next { s with
        dec := {
          rem := BitVec.ofNat 8 (s.dec.rem.toNat - 1)
          pend := s.dec.pend
          bad := false
          out := s.dec.out ++ [d]
          waiting := false } }) ∧
    (d ≠ sentinel → s.dec.bad = false → s.dec.rem = 0#8 →
      (s.dec.pend = true → ∀ cap, s.cfg.decOutCap = some cap → s.dec.out.length + 1 ≤ cap) →
      exec (.rxByte d) s = .next { s with
        dec := {
          rem := BitVec.ofNat 8 (d.toNat - 1)
          pend := decide (d.toNat < 255)
          bad := false
          out := s.dec.out ++ (if s.dec.pend = true then [0x00#8] else [])
          waiting := false } })

/-- 60_exceptions.md R174: which operation can report which error. -/
def Obligations.OnlyTheTabledErrorsAreReported : Prop :=
  ∀ (i : Instr) (s t : State), exec i s = .next t →
    (i.port = .dec → ∀ x, t.decResults = s.decResults ++ [.err x] →
      (x = .malformedFrame → (i = .decEnd ∨ i = .rxByte sentinel) ∧ s.dec.bad = true) ∧
      (x = .unexpectedEof → i = .decEnd ∨ i = .rxByte sentinel ∨ i = .rxEof) ∧
      (∀ e, x = .transportError e → i = .rxErr e)) ∧
    (i = .rxEof → t.decResults = s.decResults ++ [.err .unexpectedEof]) ∧
    (∀ e, i = .rxErr e → t.decResults = s.decResults ++ [.err (.transportError e)]) ∧
    (∀ e, t.encStatus = s.encStatus ++ [.transportError e] →
      (∃ d, i = .encWrite d ∧ (d = sentinel ∨ s.enc.run.toNat = 253)) ∨ i = .encEnd ∨ i = .encFinish)

/-- 43_streaming_decoder.md R152: RX.EOF gives `Err(UnexpectedEof)` whatever the state. -/
def Obligations.RxEofAlwaysReportsUnexpectedEof : Prop :=
  ∀ s : State,
    exec .rxEof s = .next { s with
      dec := { rem := 0#8, pend := false, bad := false, out := [], waiting := false }
      decResults := s.decResults ++ [.err .unexpectedEof] }

/-- 43_streaming_decoder.md R153: RX.ERR e gives `Err(TransportError(e))` whatever the state. -/
def Obligations.RxErrPassesTheCodeThrough : Prop :=
  ∀ (s : State) (e : Byte),
    exec (.rxErr e) s = .next { s with
      dec := { rem := 0#8, pend := false, bad := false, out := [], waiting := false }
      decResults := s.decResults ++ [.err (.transportError e)] }

/-- 41_decode_transform.md R123: the decoder's phase transitions, complete. -/
def Obligations.DecoderPhaseTransitions : Prop :=
  ∀ (s t : State) (i : Instr), exec i s = .next t →
    (∀ d, i = .decByte d ∨ (i = .rxByte d ∧ d ≠ sentinel) →
      (s.dec.phase = .atLength → d = 0x01#8 → t.dec.phase = .atLength) ∧
      (s.dec.phase = .atLength → 2 ≤ d.toNat →
        t.dec.phase = .inLiterals ∧ t.dec.rem.toNat = d.toNat - 1) ∧
      (s.dec.phase = .atLength → d = sentinel → t.dec.phase = .discard) ∧
      (s.dec.phase = .inLiterals → 1 < s.dec.rem.toNat → t.dec.phase = .inLiterals) ∧
      (s.dec.phase = .inLiterals → s.dec.rem.toNat = 1 → t.dec.phase = .atLength) ∧
      (s.dec.phase = .discard → t.dec.phase = .discard)) ∧
    (i = .decEnd ∨ i = .rxByte sentinel ∨ i = .rxEof ∨ (∃ e, i = .rxErr e) ∨ i = .decReset →
      t.dec = DecUnit.frameStart ∧ t.dec.phase = .atLength)

/-- 43_streaming_decoder.md R159: each operation that ends a frame attempt produces exactly one result, every other DEC
command none, so over any run, whatever else is presented, the results grow by the number of those operations taken:
the number taken and the number still presented stay the same together. -/
def Obligations.OneResultPerFrameAttempt : Prop :=
  (∀ (i : Instr) (s t : State), i.port = .dec → exec i s = .next t →
    (endsAttempt i = true → ∃ r, t.decResults = s.decResults ++ [r]) ∧
    (endsAttempt i = false → t.decResults = s.decResults)) ∧
  (∀ (n : Nat) (s t : State), Sys2Proof.core.run n s = .next t →
    t.decResults.length + (t.inputs.filter Input.endsAttempt).length =
      s.decResults.length + (s.inputs.filter Input.endsAttempt).length)

/-- At the stream level MalformedFrame cannot occur (43_streaming_decoder.md section 6): from a state without the
latch, if every DEC command presented is an RX command, no run, of any length and whatever ENC does, adds a result
`MalformedFrame`. -/
def Obligations.StreamLevelNeverReportsMalformedFrame : Prop :=
  ∀ (n : Nat) (s t : State),
    s.dec.bad = false →
    (∀ c i, .command c ∈ s.inputs → decode c = .ok i → i.port = .dec → isStreamLevel i = true) →
    Sys2Proof.core.run n s = .next t →
    t.dec.bad = false ∧
    ∃ added, t.decResults = s.decResults ++ added ∧ DecResult.err .malformedFrame ∉ added

/-! ### The functions encode and decode -/

/-- No-sentinel invariant (40_encode_transform.md section 1, (b)), for both values of the parameter. -/
def Obligations.EncodedPayloadHasNoSentinel : Prop :=
  ∀ (elide : Bool) (p : List Byte), sentinel ∉ cobsEncode elide p

/-- Exact length (40_encode_transform.md section 1, (c)), for both values of the parameter. -/
def Obligations.EncodedLengthIsExact : Prop :=
  ∀ p : List Byte,
    (cobsEncode false p).length = p.length + 1 + ((runLengths p).map (fun r => r / 254)).sum ∧
    (cobsEncode true p).length
        + (if 0 < (runLengths p).getLastD 0 ∧ (runLengths p).getLastD 0 % 254 = 0 then 1 else 0)
      = p.length + 1 + ((runLengths p).map (fun r => r / 254)).sum

/-- Overhead bound (40_encode_transform.md section 1, (d), (e)): at most one byte per 254, rounded up, and one more;
never empty. -/
def Obligations.EncodingOverheadIsBounded : Prop :=
  ∀ (elide : Bool) (p : List Byte),
    (cobsEncode elide p).length ≤ p.length + (p.length + 253) / 254 + 1 ∧
    1 ≤ (cobsEncode elide p).length

/-- What the encoder produces is a frame body of well-formed blocks (40_encode_transform.md section 1, (f)), and with
the delimiter a frame. -/
def Obligations.EncodedPayloadIsWellFormedBlocks : Prop :=
  ∀ (elide : Bool) (p : List Byte),
    (∀ b ∈ cobsBlocks elide p, Block.wf b = true) ∧
    IsFrameBody (cobsEncode elide p) ∧ IsFrame (cobsEncode elide p ++ [sentinel])

/-- Round trip (41_decode_transform.md section 1, (b)), for both values of `ELIDE_EMPTY_FINAL`. -/
def Obligations.DecodeOfEncodeIsThePayload : Prop :=
  ∀ (elide : Bool) (p : List Byte), cobsDecode (cobsEncode elide p) = .ok p

/-- What decode detects, and how long its output is (41_decode_transform.md section 1, (c), (d), (e), (h)). -/
def Obligations.DecodeDetectsMalformedAndTruncated : Prop :=
  cobsDecode [] = .ok [] ∧
  (∀ rest, cobsDecode (sentinel :: rest) = .err .malformedFrame) ∧
  (∀ l rest, l ≠ sentinel → rest.length < l.toNat - 1 → cobsDecode (l :: rest) = .err .unexpectedEof) ∧
  (∀ f p, f ≠ [] → cobsDecode f = .ok p → p.length ≤ f.length - 1)

/-- The second spelling of a payload (30_encoding.md section 4): an empty block after nothing, or after a full block,
changes nothing. -/
def Obligations.EmptyBlockAfterFullBlockDecodesAlike : Prop :=
  ∀ blocks : List (List Byte), (∀ b ∈ blocks, Block.wf b = true) →
    (blocks = [] ∨ ∃ before lits, blocks = before ++ [fullLength :: lits]) →
    cobsDecode (blocks.flatten ++ [0x01#8]) = cobsDecode blocks.flatten

/-! ### The units against the functions -/

/-- 40_encode_transform.md R97: ENC.WRITE of each payload byte and ENC.END put exactly `encode(P)` on the wire, one
chunk per block, with one `OK` per command; before the END the blocks other than the last are out. -/
def Obligations.EncUnitComputesEncode : Prop :=
  ∀ (s : State) (p : List Byte) (rest : List Input),
    s.enc.FrameStart → s.SinkOk → s.inputs = present (encEncode p) ++ rest →
    (∃ t, Sys2Proof.core.run (p.length + 1) s = .next t ∧
      t.wireTx = s.wireTx ++ cobsEncode s.cfg.elideEmptyFinal p ∧
      t.sinkChunks = s.sinkChunks ++ cobsBlocks s.cfg.elideEmptyFinal p ∧
      t.encStatus = s.encStatus ++ List.replicate (p.length + 1) .ok ∧
      t.enc.FrameStart ∧ t.dec = s.dec ∧ t.decResults = s.decResults ∧ t.inputs = rest) ∧
    (∃ u, Sys2Proof.core.run p.length s = .next u ∧
      u.sinkChunks = s.sinkChunks ++ (cobsBlocks false p).dropLast)

/-- The encoder's representation invariant (10_state.md section 10, (d)): what is on the wire since the frame
boundary, followed by the block of the pending run, is `encode` of the bytes accepted since. -/
def Obligations.WireAndPendingRunEncodeThePayload : Prop :=
  ∀ (s : State) (p : List Byte) (rest : List Input),
    s.enc.FrameStart → s.SinkOk → s.inputs = present (encWriteV p) ++ rest →
    ∃ t sent, Sys2Proof.core.run p.length s = .next t ∧
      t.wireTx = s.wireTx ++ sent ∧ sent ++ t.runBlock = cobsEncode false p ∧ t.enc.run.toNat ≤ 253

/-- 42_streaming_encoder.md R135: any number of frames put `encode(P) ++ [0x00]` on the wire one after another, each
with exactly one 0x00, with one `OK` per command. -/
def Obligations.FramesOnTheWireAreEncodedPayloads : Prop :=
  (∀ (s : State) (ps : List (List Byte)) (rest : List Input),
    s.enc.FrameStart → s.SinkOk → s.inputs = present (ps.flatMap encFrame) ++ rest →
    ∃ t, Sys2Proof.core.run (ps.flatMap encFrame).length s = .next t ∧
      t.wireTx = s.wireTx ++ ps.flatMap (fun p => cobsEncode s.cfg.elideEmptyFinal p ++ [sentinel]) ∧
      t.encStatus = s.encStatus ++ List.replicate (ps.flatMap encFrame).length .ok ∧
      t.enc.FrameStart ∧ t.dec = s.dec ∧ t.decResults = s.decResults ∧ t.inputs = rest) ∧
  (∀ (elide : Bool) (p : List Byte), (cobsEncode elide p ++ [sentinel]).count sentinel = 1)

/-- 41_decode_transform.md R117: DEC.BYTE of each frame byte and DEC.END yield exactly one result, `decode(F)`, and the
frame-start state, whenever the capacity is not exceeded (the commands run to their end); unbounded, or at least the
frame's length, it is not, whatever is presented behind them. -/
def Obligations.DecUnitComputesDecode : Prop :=
  ∀ (s : State) (f : List Byte), s.dec = DecUnit.frameStart →
    (∀ t, s.inputs = present (decDecode f) → Sys2Proof.core.run (f.length + 1) s = .next t →
      t = { s with decResults := s.decResults ++ [cobsDecode f], inputs := [] }) ∧
    (∀ rest, s.inputs = present (decDecode f) ++ rest →
      (∀ cap, s.cfg.decOutCap = some cap → f.length ≤ cap) →
      Sys2Proof.core.run (f.length + 1) s =
        .next { s with decResults := s.decResults ++ [cobsDecode f], inputs := rest })

/-- 43_streaming_decoder.md R155: a wire of frames yields `decode` of each frame body, in order, whenever the capacity
is not exceeded (the commands run to their end); unbounded, or at least the length of each body, it is not, whatever is
presented behind them. -/
def Obligations.ReceiverYieldsDecodeOfEachFrame : Prop :=
  ∀ (s : State) (ws : List (List Byte)), s.dec = DecUnit.frameStart → (∀ w ∈ ws, sentinel ∉ w) →
    (∀ t, s.inputs = present (rxChunk (ws.flatMap (fun w => w ++ [sentinel]))) →
      Sys2Proof.core.run (ws.flatMap (fun w => w ++ [sentinel])).length s = .next t →
      t = { s with decResults := s.decResults ++ ws.map cobsDecode, inputs := [] }) ∧
    (∀ rest, s.inputs = present (rxChunk (ws.flatMap (fun w => w ++ [sentinel]))) ++ rest →
      (∀ cap, s.cfg.decOutCap = some cap → ∀ w ∈ ws, w.length ≤ cap) →
      Sys2Proof.core.run (ws.flatMap (fun w => w ++ [sentinel])).length s =
        .next { s with decResults := s.decResults ++ ws.map cobsDecode, inputs := rest })

/-- 42_streaming_encoder.md R136: loopback. The wire bytes of any number of frames, fed to a DEC in its frame-start
state, give back the payloads, in order, where the capacity holds each payload (unbounded, it always does). -/
def Obligations.LoopbackReturnsThePayloads : Prop :=
  ∀ (s : State) (ps : List (List Byte)),
    s.enc.FrameStart → s.dec = DecUnit.frameStart → s.SinkOk →
    (∀ cap, s.cfg.decOutCap = some cap → ∀ p ∈ ps, p.length ≤ cap) →
    s.inputs = present (ps.flatMap encFrame) →
    ∃ t sent, Sys2Proof.core.run (ps.flatMap encFrame).length s = .next t ∧
      t.wireTx = s.wireTx ++ sent ∧
      ∃ u, Sys2Proof.core.run sent.length { t with inputs := present (rxChunk sent) } = .next u ∧
        u.decResults = s.decResults ++ ps.map DecResult.ok

/-! ### Invariants and completion -/

/-- The reset state meets the invariant (10_state.md section 10). -/
def Obligations.ResetStateMeetsTheInvariant : Prop := State.reset.Inv

/-- Every step keeps the invariant: the buffer's canonical form, the run counter's bound, no 0x00 among the pending
bytes, a waiting ENC healthy with a block or the delimiter outstanding, the decoder's bounds, the capacity
(10_state.md section 10). -/
def Obligations.EveryStepKeepsTheInvariant : Prop :=
  ∀ s t : State, s.Inv → step s = .next t → t.Inv

/-- Every chunk handed to the Sink is one well-formed block or the delimiter, and only ENC.FINISH hands over a 0x00
byte (20_memory.md section 4, 10_state.md section 10 (e)). -/
def Obligations.ChunksAreBlocksOrTheDelimiter : Prop :=
  ∀ (i : Instr) (s t : State), s.Inv → exec i s = .next t →
    ∃ added sent, t.sinkChunks = s.sinkChunks ++ added ∧ t.wireTx = s.wireTx ++ sent ∧
      (∀ c ∈ added, Block.wf c = true ∨ c = [sentinel]) ∧
      (i ≠ .encFinish → (∀ c ∈ added, Block.wf c = true) ∧ sentinel ∉ sent)

/-- Every operation completes (70_reset_and_hazards.md section 2): where the invariant holds, the Sink answers, the
capacity is unbounded, ENC is neither faulted nor waiting and DEC is not waiting (or the operation is ENC's, or the
answer), every operation answers a next state, and no `SinkWrite` is outstanding in it; so after reset any command may
be the first. -/
def Obligations.EveryOperationCompletes : Prop :=
  (∀ (i : Instr) (s : State), s.Inv → s.SinkAnswers → s.cfg.decOutCap = none → s.enc.fault = false →
    s.enc.waiting = none → (s.dec.waiting = true → i.port = .enc ∨ isStreamLevel i = true) →
    ∃ t, exec i s = .next t ∧ t.enc.waiting = none) ∧
  (∀ i : Instr, ∃ t, exec i State.reset = .next t ∧ t.enc.waiting = none)
end

