-- ==== Sys2Proof/Laws/State.lean ====
section
/-! SUPPORT. One lemma per field and update of State, true by rfl, so that no proof unfolds an update. -/

namespace Sys2Proof.Machine

variable (s : State)

/-! ### bumpRun -/

@[simp] theorem bumpRun_enc : (bumpRun s).enc = { s.enc with run := BitVec.ofNat 8 (s.enc.run.toNat + 1) } := rfl
@[simp] theorem bumpRun_dec : (bumpRun s).dec = s.dec := rfl
@[simp] theorem bumpRun_wireTx : (bumpRun s).wireTx = s.wireTx := rfl
@[simp] theorem bumpRun_encStatus : (bumpRun s).encStatus = s.encStatus := rfl
@[simp] theorem bumpRun_decResults : (bumpRun s).decResults = s.decResults := rfl
@[simp] theorem bumpRun_sinkChunks : (bumpRun s).sinkChunks = s.sinkChunks := rfl
@[simp] theorem bumpRun_cfg : (bumpRun s).cfg = s.cfg := rfl
@[simp] theorem bumpRun_inputs : (bumpRun s).inputs = s.inputs := rfl
@[simp] theorem bumpRun_sinkAnswers : (bumpRun s).sinkAnswers = s.sinkAnswers := rfl
@[simp] theorem bumpRun_draws : (bumpRun s).draws = s.draws := rfl

/-! ### setLastFull -/

@[simp] theorem setLastFull_enc (f : Bool) : (setLastFull f s).enc = { s.enc with lastFull := f } := rfl
@[simp] theorem setLastFull_dec (f : Bool) : (setLastFull f s).dec = s.dec := rfl
@[simp] theorem setLastFull_wireTx (f : Bool) : (setLastFull f s).wireTx = s.wireTx := rfl
@[simp] theorem setLastFull_encStatus (f : Bool) : (setLastFull f s).encStatus = s.encStatus := rfl
@[simp] theorem setLastFull_decResults (f : Bool) : (setLastFull f s).decResults = s.decResults := rfl
@[simp] theorem setLastFull_sinkChunks (f : Bool) : (setLastFull f s).sinkChunks = s.sinkChunks := rfl
@[simp] theorem setLastFull_cfg (f : Bool) : (setLastFull f s).cfg = s.cfg := rfl
@[simp] theorem setLastFull_inputs (f : Bool) : (setLastFull f s).inputs = s.inputs := rfl
@[simp] theorem setLastFull_sinkAnswers (f : Bool) : (setLastFull f s).sinkAnswers = s.sinkAnswers := rfl
@[simp] theorem setLastFull_draws (f : Bool) : (setLastFull f s).draws = s.draws := rfl

/-! ### closeRun -/

@[simp] theorem closeRun_enc (f : Bool) : (closeRun f s).enc = { s.enc with run := 0#8, lastFull := f } := rfl
@[simp] theorem closeRun_dec (f : Bool) : (closeRun f s).dec = s.dec := rfl
@[simp] theorem closeRun_wireTx (f : Bool) : (closeRun f s).wireTx = s.wireTx := rfl
@[simp] theorem closeRun_encStatus (f : Bool) : (closeRun f s).encStatus = s.encStatus := rfl
@[simp] theorem closeRun_decResults (f : Bool) : (closeRun f s).decResults = s.decResults := rfl
@[simp] theorem closeRun_sinkChunks (f : Bool) : (closeRun f s).sinkChunks = s.sinkChunks := rfl
@[simp] theorem closeRun_cfg (f : Bool) : (closeRun f s).cfg = s.cfg := rfl
@[simp] theorem closeRun_inputs (f : Bool) : (closeRun f s).inputs = s.inputs := rfl
@[simp] theorem closeRun_sinkAnswers (f : Bool) : (closeRun f s).sinkAnswers = s.sinkAnswers := rfl
@[simp] theorem closeRun_draws (f : Bool) : (closeRun f s).draws = s.draws := rfl

/-! ### reportStatus -/

@[simp] theorem reportStatus_enc (st : EncStatus) : (reportStatus st s).enc = s.enc := rfl
@[simp] theorem reportStatus_dec (st : EncStatus) : (reportStatus st s).dec = s.dec := rfl
@[simp] theorem reportStatus_wireTx (st : EncStatus) : (reportStatus st s).wireTx = s.wireTx := rfl
@[simp] theorem reportStatus_encStatus (st : EncStatus) : (reportStatus st s).encStatus = s.encStatus ++ [st] := rfl
@[simp] theorem reportStatus_decResults (st : EncStatus) : (reportStatus st s).decResults = s.decResults := rfl
@[simp] theorem reportStatus_sinkChunks (st : EncStatus) : (reportStatus st s).sinkChunks = s.sinkChunks := rfl
@[simp] theorem reportStatus_cfg (st : EncStatus) : (reportStatus st s).cfg = s.cfg := rfl
@[simp] theorem reportStatus_inputs (st : EncStatus) : (reportStatus st s).inputs = s.inputs := rfl
@[simp] theorem reportStatus_sinkAnswers (st : EncStatus) : (reportStatus st s).sinkAnswers = s.sinkAnswers := rfl
@[simp] theorem reportStatus_draws (st : EncStatus) : (reportStatus st s).draws = s.draws := rfl

/-! ### reportResult -/

@[simp] theorem reportResult_enc (r : DecResult) : (reportResult r s).enc = s.enc := rfl
@[simp] theorem reportResult_dec (r : DecResult) : (reportResult r s).dec = s.dec := rfl
@[simp] theorem reportResult_wireTx (r : DecResult) : (reportResult r s).wireTx = s.wireTx := rfl
@[simp] theorem reportResult_encStatus (r : DecResult) : (reportResult r s).encStatus = s.encStatus := rfl
@[simp] theorem reportResult_decResults (r : DecResult) : (reportResult r s).decResults = s.decResults ++ [r] := rfl
@[simp] theorem reportResult_sinkChunks (r : DecResult) : (reportResult r s).sinkChunks = s.sinkChunks := rfl
@[simp] theorem reportResult_cfg (r : DecResult) : (reportResult r s).cfg = s.cfg := rfl
@[simp] theorem reportResult_inputs (r : DecResult) : (reportResult r s).inputs = s.inputs := rfl
@[simp] theorem reportResult_sinkAnswers (r : DecResult) : (reportResult r s).sinkAnswers = s.sinkAnswers := rfl
@[simp] theorem reportResult_draws (r : DecResult) : (reportResult r s).draws = s.draws := rfl

/-! ### raiseTransportError -/

@[simp] theorem raiseTransportError_enc (e : Byte) : (raiseTransportError e s).enc =
      { run := Config.freeEncRun s.draws, buf := [], lastFull := Config.freeLastFull s.draws, fault := true,
        waiting := none } := rfl
@[simp] theorem raiseTransportError_dec (e : Byte) : (raiseTransportError e s).dec = s.dec := rfl
@[simp] theorem raiseTransportError_wireTx (e : Byte) : (raiseTransportError e s).wireTx = s.wireTx := rfl
@[simp] theorem raiseTransportError_encStatus (e : Byte) :
    (raiseTransportError e s).encStatus = s.encStatus ++ [.transportError e] := rfl
@[simp] theorem raiseTransportError_decResults (e : Byte) : (raiseTransportError e s).decResults = s.decResults := rfl
@[simp] theorem raiseTransportError_sinkChunks (e : Byte) : (raiseTransportError e s).sinkChunks = s.sinkChunks := rfl
@[simp] theorem raiseTransportError_cfg (e : Byte) : (raiseTransportError e s).cfg = s.cfg := rfl
@[simp] theorem raiseTransportError_inputs (e : Byte) : (raiseTransportError e s).inputs = s.inputs := rfl
@[simp] theorem raiseTransportError_sinkAnswers (e : Byte) :
    (raiseTransportError e s).sinkAnswers = s.sinkAnswers := rfl
@[simp] theorem raiseTransportError_draws (e : Byte) : (raiseTransportError e s).draws = s.draws + 1 := rfl

/-! ### encRecover -/

@[simp] theorem encRecover_enc :
    (encRecover s).enc = { s.enc with run := 0#8, lastFull := false, fault := false } := rfl
@[simp] theorem encRecover_dec : (encRecover s).dec = s.dec := rfl
@[simp] theorem encRecover_wireTx : (encRecover s).wireTx = s.wireTx := rfl
@[simp] theorem encRecover_encStatus : (encRecover s).encStatus = s.encStatus := rfl
@[simp] theorem encRecover_decResults : (encRecover s).decResults = s.decResults := rfl
@[simp] theorem encRecover_sinkChunks : (encRecover s).sinkChunks = s.sinkChunks := rfl
@[simp] theorem encRecover_cfg : (encRecover s).cfg = s.cfg := rfl
@[simp] theorem encRecover_inputs : (encRecover s).inputs = s.inputs := rfl
@[simp] theorem encRecover_sinkAnswers : (encRecover s).sinkAnswers = s.sinkAnswers := rfl
@[simp] theorem encRecover_draws : (encRecover s).draws = s.draws := rfl

/-! ### decFrameStart -/

@[simp] theorem decFrameStart_enc : (decFrameStart s).enc = s.enc := rfl
@[simp] theorem decFrameStart_dec : (decFrameStart s).dec = DecUnit.frameStart := rfl
@[simp] theorem decFrameStart_wireTx : (decFrameStart s).wireTx = s.wireTx := rfl
@[simp] theorem decFrameStart_encStatus : (decFrameStart s).encStatus = s.encStatus := rfl
@[simp] theorem decFrameStart_decResults : (decFrameStart s).decResults = s.decResults := rfl
@[simp] theorem decFrameStart_sinkChunks : (decFrameStart s).sinkChunks = s.sinkChunks := rfl
@[simp] theorem decFrameStart_cfg : (decFrameStart s).cfg = s.cfg := rfl
@[simp] theorem decFrameStart_inputs : (decFrameStart s).inputs = s.inputs := rfl
@[simp] theorem decFrameStart_sinkAnswers : (decFrameStart s).sinkAnswers = s.sinkAnswers := rfl
@[simp] theorem decFrameStart_draws : (decFrameStart s).draws = s.draws := rfl

/-! ### endAttempt -/

@[simp] theorem endAttempt_enc (r : DecResult) : (endAttempt r s).enc = s.enc := rfl
@[simp] theorem endAttempt_dec (r : DecResult) : (endAttempt r s).dec = DecUnit.frameStart := rfl
@[simp] theorem endAttempt_wireTx (r : DecResult) : (endAttempt r s).wireTx = s.wireTx := rfl
@[simp] theorem endAttempt_encStatus (r : DecResult) : (endAttempt r s).encStatus = s.encStatus := rfl
@[simp] theorem endAttempt_decResults (r : DecResult) : (endAttempt r s).decResults = s.decResults ++ [r] := rfl
@[simp] theorem endAttempt_sinkChunks (r : DecResult) : (endAttempt r s).sinkChunks = s.sinkChunks := rfl
@[simp] theorem endAttempt_cfg (r : DecResult) : (endAttempt r s).cfg = s.cfg := rfl
@[simp] theorem endAttempt_inputs (r : DecResult) : (endAttempt r s).inputs = s.inputs := rfl
@[simp] theorem endAttempt_sinkAnswers (r : DecResult) : (endAttempt r s).sinkAnswers = s.sinkAnswers := rfl
@[simp] theorem endAttempt_draws (r : DecResult) : (endAttempt r s).draws = s.draws := rfl

/-! ### completeFrame -/

@[simp] theorem completeFrame_enc : (completeFrame s).enc = s.enc := rfl
@[simp] theorem completeFrame_dec : (completeFrame s).dec = DecUnit.frameStart := rfl
@[simp] theorem completeFrame_wireTx : (completeFrame s).wireTx = s.wireTx := rfl
@[simp] theorem completeFrame_encStatus : (completeFrame s).encStatus = s.encStatus := rfl
@[simp] theorem completeFrame_decResults : (completeFrame s).decResults = s.decResults ++ [attemptResult s.dec] := rfl
@[simp] theorem completeFrame_sinkChunks : (completeFrame s).sinkChunks = s.sinkChunks := rfl
@[simp] theorem completeFrame_cfg : (completeFrame s).cfg = s.cfg := rfl
@[simp] theorem completeFrame_inputs : (completeFrame s).inputs = s.inputs := rfl
@[simp] theorem completeFrame_sinkAnswers : (completeFrame s).sinkAnswers = s.sinkAnswers := rfl
@[simp] theorem completeFrame_draws : (completeFrame s).draws = s.draws := rfl

/-! ### hardwareReset -/

@[simp] theorem hardwareReset_enc (k : Nat) :
    (hardwareReset k s).enc = 
      { run := 0#8, buf := [], lastFull := false, fault := false, waiting := none } := rfl
@[simp] theorem hardwareReset_dec (k : Nat) : (hardwareReset k s).dec = DecUnit.frameStart := rfl
@[simp] theorem hardwareReset_wireTx (k : Nat) :
    (hardwareReset k s).wireTx = s.wireTx ++ (s.enc.waiting.getD []).take k := rfl
@[simp] theorem hardwareReset_encStatus (k : Nat) : (hardwareReset k s).encStatus = s.encStatus := rfl
@[simp] theorem hardwareReset_decResults (k : Nat) : (hardwareReset k s).decResults = s.decResults := rfl
@[simp] theorem hardwareReset_sinkChunks (k : Nat) : (hardwareReset k s).sinkChunks = s.sinkChunks := rfl
@[simp] theorem hardwareReset_cfg (k : Nat) : (hardwareReset k s).cfg = s.cfg := rfl
@[simp] theorem hardwareReset_inputs (k : Nat) : (hardwareReset k s).inputs = s.inputs := rfl
@[simp] theorem hardwareReset_sinkAnswers (k : Nat) : (hardwareReset k s).sinkAnswers = s.sinkAnswers := rfl
@[simp] theorem hardwareReset_draws (k : Nat) : (hardwareReset k s).draws = s.draws + 1 := rfl

/-! ### sinkTake -/

@[simp] theorem sinkTake_enc (c sent : List Byte) : (sinkTake c sent s).enc = s.enc := rfl
@[simp] theorem sinkTake_dec (c sent : List Byte) : (sinkTake c sent s).dec = s.dec := rfl
@[simp] theorem sinkTake_wireTx (c sent : List Byte) : (sinkTake c sent s).wireTx = s.wireTx ++ sent := rfl
@[simp] theorem sinkTake_encStatus (c sent : List Byte) : (sinkTake c sent s).encStatus = s.encStatus := rfl
@[simp] theorem sinkTake_decResults (c sent : List Byte) : (sinkTake c sent s).decResults = s.decResults := rfl
@[simp] theorem sinkTake_sinkChunks (c sent : List Byte) : (sinkTake c sent s).sinkChunks = s.sinkChunks ++ [c] := rfl
@[simp] theorem sinkTake_cfg (c sent : List Byte) : (sinkTake c sent s).cfg = s.cfg := rfl
@[simp] theorem sinkTake_inputs (c sent : List Byte) : (sinkTake c sent s).inputs = s.inputs := rfl
@[simp] theorem sinkTake_sinkAnswers (c sent : List Byte) : (sinkTake c sent s).sinkAnswers = s.sinkAnswers.tail := rfl
@[simp] theorem sinkTake_draws (c sent : List Byte) : (sinkTake c sent s).draws = s.draws := rfl

/-! ### awaitSink -/

@[simp] theorem awaitSink_enc (c : List Byte) : (awaitSink c s).enc = { s.enc with waiting := some c } := rfl
@[simp] theorem awaitSink_dec (c : List Byte) : (awaitSink c s).dec = s.dec := rfl
@[simp] theorem awaitSink_wireTx (c : List Byte) : (awaitSink c s).wireTx = s.wireTx := rfl
@[simp] theorem awaitSink_encStatus (c : List Byte) : (awaitSink c s).encStatus = s.encStatus := rfl
@[simp] theorem awaitSink_decResults (c : List Byte) : (awaitSink c s).decResults = s.decResults := rfl
@[simp] theorem awaitSink_sinkChunks (c : List Byte) : (awaitSink c s).sinkChunks = s.sinkChunks ++ [c] := rfl
@[simp] theorem awaitSink_cfg (c : List Byte) : (awaitSink c s).cfg = s.cfg := rfl
@[simp] theorem awaitSink_inputs (c : List Byte) : (awaitSink c s).inputs = s.inputs := rfl
@[simp] theorem awaitSink_sinkAnswers (c : List Byte) : (awaitSink c s).sinkAnswers = s.sinkAnswers.tail := rfl
@[simp] theorem awaitSink_draws (c : List Byte) : (awaitSink c s).draws = s.draws := rfl

/-! ### beginPull -/

@[simp] theorem beginPull_enc : (beginPull s).enc = s.enc := rfl
@[simp] theorem beginPull_dec : (beginPull s).dec = { s.dec with waiting := true } := rfl
@[simp] theorem beginPull_wireTx : (beginPull s).wireTx = s.wireTx := rfl
@[simp] theorem beginPull_encStatus : (beginPull s).encStatus = s.encStatus := rfl
@[simp] theorem beginPull_decResults : (beginPull s).decResults = s.decResults := rfl
@[simp] theorem beginPull_sinkChunks : (beginPull s).sinkChunks = s.sinkChunks := rfl
@[simp] theorem beginPull_cfg : (beginPull s).cfg = s.cfg := rfl
@[simp] theorem beginPull_inputs : (beginPull s).inputs = s.inputs := rfl
@[simp] theorem beginPull_sinkAnswers : (beginPull s).sinkAnswers = s.sinkAnswers := rfl
@[simp] theorem beginPull_draws : (beginPull s).draws = s.draws := rfl

/-! ### answerPull -/

@[simp] theorem answerPull_enc : (answerPull s).enc = s.enc := rfl
@[simp] theorem answerPull_dec : (answerPull s).dec = { s.dec with waiting := false } := rfl
@[simp] theorem answerPull_wireTx : (answerPull s).wireTx = s.wireTx := rfl
@[simp] theorem answerPull_encStatus : (answerPull s).encStatus = s.encStatus := rfl
@[simp] theorem answerPull_decResults : (answerPull s).decResults = s.decResults := rfl
@[simp] theorem answerPull_sinkChunks : (answerPull s).sinkChunks = s.sinkChunks := rfl
@[simp] theorem answerPull_cfg : (answerPull s).cfg = s.cfg := rfl
@[simp] theorem answerPull_inputs : (answerPull s).inputs = s.inputs := rfl
@[simp] theorem answerPull_sinkAnswers : (answerPull s).sinkAnswers = s.sinkAnswers := rfl
@[simp] theorem answerPull_draws : (answerPull s).draws = s.draws := rfl

/-! ### appendOut -/

@[simp] theorem appendOut_enc (b : Byte) : (appendOut b s).enc = s.enc := rfl
@[simp] theorem appendOut_dec (b : Byte) : (appendOut b s).dec = { s.dec with out := s.dec.out ++ [b] } := rfl
@[simp] theorem appendOut_wireTx (b : Byte) : (appendOut b s).wireTx = s.wireTx := rfl
@[simp] theorem appendOut_encStatus (b : Byte) : (appendOut b s).encStatus = s.encStatus := rfl
@[simp] theorem appendOut_decResults (b : Byte) : (appendOut b s).decResults = s.decResults := rfl
@[simp] theorem appendOut_sinkChunks (b : Byte) : (appendOut b s).sinkChunks = s.sinkChunks := rfl
@[simp] theorem appendOut_cfg (b : Byte) : (appendOut b s).cfg = s.cfg := rfl
@[simp] theorem appendOut_inputs (b : Byte) : (appendOut b s).inputs = s.inputs := rfl
@[simp] theorem appendOut_sinkAnswers (b : Byte) : (appendOut b s).sinkAnswers = s.sinkAnswers := rfl
@[simp] theorem appendOut_draws (b : Byte) : (appendOut b s).draws = s.draws := rfl

/-! ### loadLength -/

@[simp] theorem loadLength_enc (l : Byte) : (loadLength l s).enc = s.enc := rfl
@[simp] theorem loadLength_dec (l : Byte) : (loadLength l s).dec =
      { s.dec with rem := BitVec.ofNat 8 (litCount l), pend := pendAfterLength l } := rfl
@[simp] theorem loadLength_wireTx (l : Byte) : (loadLength l s).wireTx = s.wireTx := rfl
@[simp] theorem loadLength_encStatus (l : Byte) : (loadLength l s).encStatus = s.encStatus := rfl
@[simp] theorem loadLength_decResults (l : Byte) : (loadLength l s).decResults = s.decResults := rfl
@[simp] theorem loadLength_sinkChunks (l : Byte) : (loadLength l s).sinkChunks = s.sinkChunks := rfl
@[simp] theorem loadLength_cfg (l : Byte) : (loadLength l s).cfg = s.cfg := rfl
@[simp] theorem loadLength_inputs (l : Byte) : (loadLength l s).inputs = s.inputs := rfl
@[simp] theorem loadLength_sinkAnswers (l : Byte) : (loadLength l s).sinkAnswers = s.sinkAnswers := rfl
@[simp] theorem loadLength_draws (l : Byte) : (loadLength l s).draws = s.draws := rfl

/-! ### latchBad -/

@[simp] theorem latchBad_enc : (latchBad s).enc = s.enc := rfl
@[simp] theorem latchBad_dec : (latchBad s).dec = { s.dec with bad := true } := rfl
@[simp] theorem latchBad_wireTx : (latchBad s).wireTx = s.wireTx := rfl
@[simp] theorem latchBad_encStatus : (latchBad s).encStatus = s.encStatus := rfl
@[simp] theorem latchBad_decResults : (latchBad s).decResults = s.decResults := rfl
@[simp] theorem latchBad_sinkChunks : (latchBad s).sinkChunks = s.sinkChunks := rfl
@[simp] theorem latchBad_cfg : (latchBad s).cfg = s.cfg := rfl
@[simp] theorem latchBad_inputs : (latchBad s).inputs = s.inputs := rfl
@[simp] theorem latchBad_sinkAnswers : (latchBad s).sinkAnswers = s.sinkAnswers := rfl
@[simp] theorem latchBad_draws : (latchBad s).draws = s.draws := rfl

/-! ### presentFirst -/

@[simp] theorem presentFirst_enc (c : CmdWord) : (presentFirst c s).enc = s.enc := rfl
@[simp] theorem presentFirst_dec (c : CmdWord) : (presentFirst c s).dec = s.dec := rfl
@[simp] theorem presentFirst_wireTx (c : CmdWord) : (presentFirst c s).wireTx = s.wireTx := rfl
@[simp] theorem presentFirst_encStatus (c : CmdWord) : (presentFirst c s).encStatus = s.encStatus := rfl
@[simp] theorem presentFirst_decResults (c : CmdWord) : (presentFirst c s).decResults = s.decResults := rfl
@[simp] theorem presentFirst_sinkChunks (c : CmdWord) : (presentFirst c s).sinkChunks = s.sinkChunks := rfl
@[simp] theorem presentFirst_cfg (c : CmdWord) : (presentFirst c s).cfg = s.cfg := rfl
@[simp] theorem presentFirst_inputs (c : CmdWord) : (presentFirst c s).inputs = .command c :: s.inputs := rfl
@[simp] theorem presentFirst_sinkAnswers (c : CmdWord) : (presentFirst c s).sinkAnswers = s.sinkAnswers := rfl
@[simp] theorem presentFirst_draws (c : CmdWord) : (presentFirst c s).draws = s.draws := rfl

end Sys2Proof.Machine
end

