-- ==== Sys2Proof/Laws/Memory.lean ====
section
/-! SUPPORT. The laws of the pending buffer: a read after a write, the canonical form, runs of bytes. -/

namespace Sys2Proof.Machine

@[simp] theorem Memory.read?_nil (i : Nat) : Memory.read? [] i = none := rfl

/-- A read at the written index gives the value written. -/
@[simp] theorem Memory.read?_write_same (m : Memory) (i : Nat) (v : Byte) :
    Memory.read? (Memory.write m i v) i = some v := by
  induction m with
  | nil => simp [Memory.write, Memory.read?]
  | cons c m ih =>
    obtain ⟨a, b⟩ := c
    simp only [Memory.write]
    split
    · simp [Memory.read?]
    · split
      · simp [Memory.read?]
      · simp [Memory.read?, *]

/-- A write leaves every other index alone. -/
theorem Memory.read?_write_other (m : Memory) (i j : Nat) (v : Byte) (h : j ≠ i) :
    Memory.read? (Memory.write m i v) j = Memory.read? m j := by
  induction m with
  | nil => simp [Memory.write, Memory.read?, h]
  | cons c m ih =>
    obtain ⟨a, b⟩ := c
    simp only [Memory.write]
    split
    · simp [Memory.read?, h]
    · split
      · subst_vars; simp [Memory.read?, h]
      · simp [Memory.read?, ih]

/-- The cells of a written memory: the new one and old ones. -/
theorem Memory.mem_write {m : Memory} {i : Nat} {v : Byte} {c : Host.Cell} (h : c ∈ Memory.write m i v) :
    c = (i, v) ∨ c ∈ m := by
  induction m with
  | nil => simpa [Memory.write] using h
  | cons d m ih =>
    obtain ⟨a, b⟩ := d
    simp only [Memory.write] at h
    split at h
    · simpa using h
    · split at h
      · simp only [List.mem_cons] at h ⊢; tauto
      · simp only [List.mem_cons] at h ⊢; tauto

theorem Memory.wf_nil : Memory.wf [] := by simp [Memory.wf]

/-- A write inside the buffer keeps the canonical form. -/
theorem Memory.write_wf {m : Memory} {i : Nat} (v : Byte) (h : Memory.wf m) (hi : i < bufSize) :
    Memory.wf (Memory.write m i v) := by
  refine ⟨?_, fun c hc => ?_⟩
  · obtain ⟨hp, -⟩ := h
    induction m with
    | nil => simp [Memory.write]
    | cons d m ih =>
      obtain ⟨a, b⟩ := d
      obtain ⟨hd, hm⟩ := List.pairwise_cons.1 hp
      simp only [Memory.write]
      split
      · refine List.pairwise_cons.2 ⟨fun c hc => ?_, hp⟩
        rcases List.mem_cons.1 hc with rfl | hc
        · assumption
        · exact Nat.lt_trans ‹i < a› (hd c hc)
      · split
        · subst_vars; exact List.pairwise_cons.2 ⟨hd, hm⟩
        · refine List.pairwise_cons.2 ⟨fun c hc => ?_, ih hm⟩
          rcases Memory.mem_write hc with rfl | hc
          · show a < i; omega
          · exact hd c hc
  · rcases Memory.mem_write hc with rfl | hc
    · exact hi
    · exact h.2 c hc

/-- A byte is determined by the buffer and the count of draws. -/
theorem State.bufByte_congr {s t : State} (h : t.enc.buf = s.enc.buf) (hd : t.draws = s.draws) (a : Nat) :
    t.bufByte a = s.bufByte a := by simp [State.bufByte, h, hd]

@[simp] theorem State.bufBytes_length (s : State) (i n : Nat) : (s.bufBytes i n).length = n := by
  induction n generalizing i with
  | zero => rfl
  | succ n ih => simp [State.bufBytes, ih]

/-- Runs of bytes agree where their bytes do. -/
theorem State.bufBytes_congr {s t : State} (i n : Nat)
    (h : ∀ a, i ≤ a → a < i + n → t.bufByte a = s.bufByte a) : t.bufBytes i n = s.bufBytes i n := by
  induction n generalizing i with
  | zero => rfl
  | succ n ih =>
    simp only [State.bufBytes]
    rw [h i (le_refl i) (by omega), ih (i + 1) (fun a h1 h2 => h a (by omega) (by omega))]

/-- One byte more at the end of a run. -/
theorem State.bufBytes_succ (s : State) (i n : Nat) :
    s.bufBytes i (n + 1) = s.bufBytes i n ++ [s.bufByte (i + n)] := by
  induction n generalizing i with
  | zero => rfl
  | succ n ih =>
    conv_lhs => rw [State.bufBytes, ih (i + 1)]
    simp [State.bufBytes, Nat.add_comm, Nat.add_left_comm]

/-- A byte of a run is a byte of the buffer. -/
theorem State.mem_bufBytes {s : State} {i n : Nat} {b : Byte} (h : b ∈ s.bufBytes i n) :
    ∃ a, i ≤ a ∧ a < i + n ∧ b = s.bufByte a := by
  induction n generalizing i with
  | zero => simp [State.bufBytes] at h
  | succ n ih =>
    rcases List.mem_cons.1 h with rfl | h
    · exact ⟨i, le_refl i, by omega, rfl⟩
    · obtain ⟨a, h1, h2, h3⟩ := ih h
      exact ⟨a, by omega, by omega, h3⟩

theorem memRead_eq_some {i n : Nat} (s : State) (h : i + n ≤ bufSize) : memRead i n s = some (s.bufBytes i n) :=
  if_pos h

theorem memRead_eq_none {i n : Nat} (s : State) (h : bufSize < i + n) : memRead i n s = none :=
  if_neg (Nat.not_le.2 h)

theorem memWrite_eq_some {i : Nat} (v : Byte) (s : State) (h : i < bufSize) :
    memWrite i v s = some { s with enc := { s.enc with buf := Memory.write s.enc.buf i v } } :=
  if_pos h

/-- All a buffer write can do. -/
theorem memWrite_cases {i : Nat} {v : Byte} {s t : State} (h : memWrite i v s = some t) :
    i < bufSize ∧ t = { s with enc := { s.enc with buf := Memory.write s.enc.buf i v } } := by
  unfold memWrite at h
  split at h
  · exact ⟨‹_›, (Option.some.inj h).symm⟩
  · cases h

end Sys2Proof.Machine
end

