-- ==== Sys2Proof/Laws/Ops.lean ====
section
/-! SUPPORT. One lemma per shared operation that says once everything it can do, and one per operation for the case
in which it completes; provers cite these instead of unfolding. -/

namespace Sys2Proof.Machine

/-! ### SinkWrite and what is built on it -/

section
variable {s t : State} {k : State → Answer}

theorem emit_ok (c : List Byte) (h : s.nextAnswer = .ok) : emit c k s = k (sinkTake c c s) := by simp [emit, h]

theorem emit_err (c : List Byte) {e : Byte} {n : Nat} (h : s.nextAnswer = .err e n) :
    emit c k s = .next (raiseTransportError e (sinkTake c (c.take n) s)) := by simp [emit, h]

theorem emit_silent (c : List Byte) (h : s.nextAnswer = .silent) : emit c k s = .next (awaitSink c s) := by
  simp [emit, h]

/-- All a `SinkWrite` can lead to. -/
theorem emit_cases {c : List Byte} (h : emit c k s = .next t) :
    (s.nextAnswer = .ok ∧ k (sinkTake c c s) = .next t) ∨
    (∃ e n, s.nextAnswer = .err e n ∧ t = raiseTransportError e (sinkTake c (c.take n) s)) ∨
    (s.nextAnswer = .silent ∧ t = awaitSink c s) := by
  unfold emit at h
  split at h
  · exact .inl ⟨‹_›, h⟩
  · exact .inr (.inl ⟨_, _, ‹_›, (Host.Outcome.next.inj h).symm⟩)
  · exact .inr (.inr ⟨‹_›, (Host.Outcome.next.inj h).symm⟩)

theorem emitBlock_eq (l : Byte) {n : Nat} (h : n ≤ bufSize) :
    emitBlock l n k s = emit (l :: s.bufBytes 0 n) k s := by
  simp [emitBlock, memRead_eq_some s (i := 0) (n := n) (by omega)]

/-- All that emitting a block can lead to. -/
theorem emitBlock_cases {l : Byte} {n : Nat} (h : emitBlock l n k s = .next t) :
    n ≤ bufSize ∧ emit (l :: s.bufBytes 0 n) k s = .next t := by
  by_cases hn : n ≤ bufSize
  · exact ⟨hn, by rw [← emitBlock_eq l hn]; exact h⟩
  · simp [emitBlock, memRead_eq_none s (i := 0) (n := n) (by omega)] at h

/-- In range, emitting the run is the `SinkWrite` of its block. -/
theorem emitRun_eq (h : s.enc.run.toNat ≤ bufSize) : emitRun k s = emit s.runBlock k s := emitBlock_eq _ h

/-- All that emitting the run can lead to. -/
theorem emitRun_cases (h : emitRun k s = .next t) :
    s.enc.run.toNat ≤ bufSize ∧ emit s.runBlock k s = .next t := emitBlock_cases h

theorem finalBlock_elided (h : finalBlockElided s.cfg s.enc = true) : finalBlock k s = k s := by
  simp [finalBlock, h]

theorem finalBlock_emitted (h : finalBlockElided s.cfg s.enc = false) (hr : s.enc.run.toNat ≤ bufSize) :
    finalBlock k s = emit s.runBlock k s := by
  simp [finalBlock, h, emitRun_eq hr]

/-- All FinalBlock can lead to. -/
theorem finalBlock_cases (h : finalBlock k s = .next t) :
    (finalBlockElided s.cfg s.enc = true ∧ k s = .next t) ∨
    (finalBlockElided s.cfg s.enc = false ∧ s.enc.run.toNat ≤ bufSize ∧ emit s.runBlock k s = .next t) := by
  unfold finalBlock at h
  split at h
  · exact .inl ⟨‹_›, h⟩
  · exact .inr ⟨Bool.eq_false_of_not_eq_true ‹_›, emitRun_cases h⟩

theorem requireHealthy_faulted (h : s.enc.fault = true) : requireHealthy k s = .refused .encFaulted := by
  simp [requireHealthy, h]

@[simp] theorem requireFree_free (h : s.enc.waiting = none) : requireFree k s = k s := by simp [requireFree, h]

theorem requireFree_waiting (h : s.enc.waiting ≠ none) : requireFree k s = .fault .sinkSilent := by
  simp [requireFree, Option.isSome_iff_ne_none, h]

/-- A command that requires a unit not waiting and answers a next state found it so. -/
theorem requireFree_cases (h : requireFree k s = .next t) : s.enc.waiting = none ∧ k s = .next t := by
  by_cases hw : s.enc.waiting = none
  · exact ⟨hw, (requireFree_free hw).symm.trans h⟩
  · rw [requireFree_waiting hw] at h
    cases h

@[simp] theorem requireHealthy_healthy (h : s.enc.fault = false) (hw : s.enc.waiting = none) :
    requireHealthy k s = k s := by
  simp [requireHealthy, h, hw]

/-- A command that requires health and answers a next state ran healthy, with no `SinkWrite` outstanding. -/
theorem requireHealthy_cases (h : requireHealthy k s = .next t) :
    s.enc.fault = false ∧ s.enc.waiting = none ∧ k s = .next t := by
  unfold requireHealthy at h
  split at h
  · cases h
  · exact ⟨Bool.eq_false_of_not_eq_true ‹_›, requireFree_cases h⟩

end

/-! ### The ENC operations -/

/-- The run counter after one more byte, in range. -/
theorem bumpRun_run_toNat {s : State} (h : s.enc.run.toNat ≤ 253) :
    (bumpRun s).enc.run.toNat = s.enc.run.toNat + 1 := by
  simp only [bumpRun_enc, BitVec.toNat_ofNat]
  omega

/-- The state after `enc_buf[enc_run] <- d` and the increment (R93). -/
def buffered (d : Byte) (s : State) : State :=
  bumpRun { s with enc := { s.enc with buf := Memory.write s.enc.buf s.enc.run.toNat d } }

/-- The cells after a byte has been buffered. -/
theorem buffered_bufByte (d : Byte) (s : State) (a : Nat) :
    (buffered d s).bufByte a = if a = s.enc.run.toNat then d else s.bufByte a := by
  unfold State.bufByte buffered
  split
  · subst_vars; simp
  · simp [Memory.read?_write_other, *]

/-- The pending bytes after a byte has been buffered. -/
theorem buffered_bufBytes (d : Byte) (s : State) :
    (buffered d s).bufBytes 0 (s.enc.run.toNat + 1) = s.pending ++ [d] := by
  rw [State.bufBytes_succ, buffered_bufByte, if_pos (by omega)]
  rw [State.bufBytes_congr (s := s) 0 _ fun a _ h => by rw [buffered_bufByte, if_neg (by omega)]]
  rfl

theorem buffered_run_toNat {d : Byte} {s : State} (h : s.enc.run.toNat ≤ 253) :
    (buffered d s).enc.run.toNat = s.enc.run.toNat + 1 := bumpRun_run_toNat (s := { s with enc := _ }) h

/-- A byte that does not fill the run. -/
theorem bufferByte_short {d : Byte} {s : State} (h : s.enc.run.toNat < 253) :
    bufferByte d s = .next (reportStatus .ok (setLastFull false (buffered d s))) := by
  unfold bufferByte
  rw [memWrite_eq_some d s (show s.enc.run.toNat < bufSize by simp [bufSize]; omega)]
  have := buffered_run_toNat (d := d) (s := s) (by omega)
  simp only [buffered] at this ⊢
  rw [if_neg (by rw [this]; simp only [runMax]; omega)]

/-- The byte that fills the run: the `SinkWrite` of the full block. -/
theorem bufferByte_full {d : Byte} {s : State} (h : s.enc.run.toNat = 253) :
    bufferByte d s = emit (fullLength :: (s.pending ++ [d])) (finishOk true) (buffered d s) := by
  unfold bufferByte
  rw [memWrite_eq_some d s (show s.enc.run.toNat < bufSize by simp [bufSize]; omega)]
  have h1 := buffered_run_toNat (d := d) (s := s) (by omega)
  have h2 := buffered_bufBytes d s
  simp only [h] at h1 h2
  rw [← h2]
  simp only [buffered] at h1 ⊢
  rw [if_pos h1, emitBlock_eq _ (by simp)]

/-- All buffering a byte can lead to. -/
theorem bufferByte_cases {d : Byte} {s t : State} (h : bufferByte d s = .next t) :
    (s.enc.run.toNat < 253 ∧ t = reportStatus .ok (setLastFull false (buffered d s))) ∨
    (s.enc.run.toNat = 253 ∧ emit (fullLength :: (s.pending ++ [d])) (finishOk true) (buffered d s) = .next t) := by
  rcases Nat.lt_trichotomy s.enc.run.toNat 253 with hr | hr | hr
  · rw [bufferByte_short hr] at h
    exact .inl ⟨hr, (Host.Outcome.next.inj h).symm⟩
  · exact .inr ⟨hr, by rw [← bufferByte_full hr]; exact h⟩
  · unfold bufferByte memWrite at h
    rw [if_neg (by simp [bufSize]; omega)] at h
    cases h

/-- The two operations of ENC.WRITE (R92). -/
theorem execEncWrite_healthy (d : Byte) {s : State} (h : s.enc.fault = false) (hw : s.enc.waiting = none) :
    execEncWrite d s = if d = sentinel then emitRun (finishOk false) s else bufferByte d s := by
  unfold execEncWrite
  rw [requireHealthy_healthy h hw]
  split <;> rfl

/-! ### The DEC operations -/

section
variable {s t : State} {k : State → Answer}

@[simp] theorem requireNoPull_free (h : s.dec.waiting = false) : requireNoPull k s = k s := by
  simp [requireNoPull, h]

theorem requireNoPull_waiting (h : s.dec.waiting = true) : requireNoPull k s = .fault .sourceSilent := by
  simp [requireNoPull, h]

/-- A command that requires no pull outstanding and answers a next state found none. -/
theorem requireNoPull_cases (h : requireNoPull k s = .next t) : s.dec.waiting = false ∧ k s = .next t := by
  cases hw : s.dec.waiting
  · exact ⟨rfl, (requireNoPull_free hw).symm.trans h⟩
  · rw [requireNoPull_waiting hw] at h
    cases h

theorem execDecByte_free (d : Byte) (h : s.dec.waiting = false) : execDecByte d s = takeFrameByte d s :=
  requireNoPull_free h

theorem execDecEnd_free (h : s.dec.waiting = false) : execDecEnd s = .next (completeFrame s) :=
  requireNoPull_free (k := fun s => .next (completeFrame s)) h

theorem execDecReset_free (h : s.dec.waiting = false) : execDecReset s = .next (decFrameStart s) :=
  requireNoPull_free (k := fun s => .next (decFrameStart s)) h

/-- Where no pull has blocked, an answer changes nothing by itself. -/
theorem answerPull_free (h : s.dec.waiting = false) : answerPull s = s := by
  rcases s with ⟨_, ⟨_, _, _, _, w⟩, _⟩
  simp only at h
  simp [answerPull, h]

@[simp] theorem completeFrame_answerPull : completeFrame (answerPull s) = completeFrame s := rfl
@[simp] theorem endAttempt_answerPull (r : DecResult) : endAttempt r (answerPull s) = endAttempt r s := rfl

end

/-- Whether an append fits, in the words of R119. -/
theorem outHasRoom_iff (s : State) :
    outHasRoom s = true ↔ ∀ cap, s.cfg.decOutCap = some cap → s.dec.out.length + 1 ≤ cap := by
  unfold outHasRoom
  split <;> simp_all

theorem outHasRoom_of_unbounded {s : State} (h : s.cfg.decOutCap = none) : outHasRoom s = true := by
  simp [outHasRoom, h]

theorem phase_discard {u : DecUnit} : u.phase = .discard ↔ u.bad = true := by
  unfold DecUnit.phase; split
  · simp_all
  · split <;> simp_all

theorem phase_atLength {u : DecUnit} : u.phase = .atLength ↔ u.bad = false ∧ u.rem.toNat = 0 := by
  unfold DecUnit.phase; split
  · simp_all
  · split <;> simp_all

theorem phase_inLiterals {u : DecUnit} : u.phase = .inLiterals ↔ u.bad = false ∧ 0 < u.rem.toNat := by
  unfold DecUnit.phase; split
  · simp_all
  · split <;> simp_all
    omega

/-- The state after a literal byte (R114). -/
def literalTaken (d : Byte) (s : State) : State :=
  { appendOut d s with dec := { (appendOut d s).dec with rem := BitVec.ofNat 8 (s.dec.rem.toNat - 1) } }

/-- All one frame byte can lead to (R112). -/
theorem takeFrameByte_cases {d : Byte} {s t : State} (h : takeFrameByte d s = .next t) :
    (s.dec.phase = .discard ∧ t = s) ∨
    (s.dec.phase = .inLiterals ∧ outHasRoom s = true ∧ t = literalTaken d s) ∨
    (s.dec.phase = .atLength ∧ d = sentinel ∧ t = latchBad s) ∨
    (s.dec.phase = .atLength ∧ d ≠ sentinel ∧ s.dec.pend = true ∧ outHasRoom s = true ∧
      t = loadLength d (appendOut sentinel s)) ∨
    (s.dec.phase = .atLength ∧ d ≠ sentinel ∧ s.dec.pend = false ∧ t = loadLength d s) := by
  unfold takeFrameByte at h
  split at h
  · exact .inl ⟨‹_›, (Host.Outcome.next.inj h).symm⟩
  · unfold takeLiteral at h
    split at h
    · exact .inr (.inl ⟨‹_›, ‹_›, (Host.Outcome.next.inj h).symm⟩)
    · cases h
  · split at h
    · exact .inr (.inr (.inl ⟨‹_›, ‹_›, (Host.Outcome.next.inj h).symm⟩))
    · unfold takeLength at h
      split at h
      · split at h
        · exact .inr (.inr (.inr (.inl ⟨‹_›, ‹_›, ‹_›, ‹_›, (Host.Outcome.next.inj h).symm⟩)))
        · cases h
      · exact .inr (.inr (.inr (.inr ⟨‹_›, ‹_›, Bool.eq_false_of_not_eq_true ‹_›, (Host.Outcome.next.inj h).symm⟩)))

/-- A frame byte that may be appended, or appends nothing, is taken. -/
theorem takeFrameByte_completes (d : Byte) {s : State} (h : outHasRoom s = true) :
    ∃ t, takeFrameByte d s = .next t := by
  unfold takeFrameByte
  split
  · exact ⟨_, rfl⟩
  · exact ⟨_, if_pos h⟩
  · split
    · exact ⟨_, rfl⟩
    · unfold takeLength
      split <;> exact ⟨_, rfl⟩

/-- A frame byte does not change whether DEC waits for the Source. -/
theorem takeFrameByte_waiting {d : Byte} {s t : State} (h : takeFrameByte d s = .next t) :
    t.dec.waiting = s.dec.waiting := by
  rcases takeFrameByte_cases h with ⟨-, rfl⟩ | ⟨-, -, rfl⟩ | ⟨-, -, rfl⟩ | ⟨-, -, -, -, rfl⟩ | ⟨-, -, -, rfl⟩ <;> rfl

/-- A frame byte touches DEC only. -/
theorem takeFrameByte_frame {d : Byte} {s t : State} (h : takeFrameByte d s = .next t) :
    t = { s with dec := t.dec } := by
  rcases takeFrameByte_cases h with ⟨-, rfl⟩ | ⟨-, -, rfl⟩ | ⟨-, -, rfl⟩ | ⟨-, -, -, -, rfl⟩ | ⟨-, -, -, rfl⟩ <;> rfl

end Sys2Proof.Machine
end

