-- ==== Sys2Proof/Laws/PerInstr.lean ====
section
/-! SUPPORT. The family `OpField`, per operation: the command word `encode` builds carries the operation's port, its
code in bits 10:8 and its operand in bits 7:0 (30_encoding.md R76, R77). -/

namespace Sys2Proof

/-- The field `op` of a word put together from its two fields. -/
theorem op_of_fields (p : Port) (o : OpCode) (d : Byte) : CmdWord.op { port := p, bits := o ++ d } = o :=
  BitVec.extractLsb'_append_eq_left ..

/-- The field `d` of a word put together from its two fields. -/
theorem d_of_fields (p : Port) (o : OpCode) (d : Byte) : CmdWord.d { port := p, bits := o ++ d } = d :=
  BitVec.extractLsb'_append_eq_right ..

/-- What the family says of one operation. -/
def Laws.OpField.Statement (i : Instr) : Prop :=
  (encode i).port = i.port ∧ (encode i).op = i.opcode ∧ (encode i).d = i.operand

theorem Laws.OpField.encWrite (d : Byte) : Laws.OpField.Statement (.encWrite d) :=
  ⟨rfl, op_of_fields .., d_of_fields ..⟩

theorem Laws.OpField.encEnd : Laws.OpField.Statement .encEnd := ⟨rfl, op_of_fields .., d_of_fields ..⟩

theorem Laws.OpField.encReset : Laws.OpField.Statement .encReset := ⟨rfl, op_of_fields .., d_of_fields ..⟩

theorem Laws.OpField.encFinish : Laws.OpField.Statement .encFinish := ⟨rfl, op_of_fields .., d_of_fields ..⟩

theorem Laws.OpField.decByte (d : Byte) : Laws.OpField.Statement (.decByte d) :=
  ⟨rfl, op_of_fields .., d_of_fields ..⟩

theorem Laws.OpField.decEnd : Laws.OpField.Statement .decEnd := ⟨rfl, op_of_fields .., d_of_fields ..⟩

theorem Laws.OpField.decReset : Laws.OpField.Statement .decReset := ⟨rfl, op_of_fields .., d_of_fields ..⟩

theorem Laws.OpField.rxByte (d : Byte) : Laws.OpField.Statement (.rxByte d) :=
  ⟨rfl, op_of_fields .., d_of_fields ..⟩

theorem Laws.OpField.rxEof : Laws.OpField.Statement .rxEof := ⟨rfl, op_of_fields .., d_of_fields ..⟩

theorem Laws.OpField.rxErr (e : Byte) : Laws.OpField.Statement (.rxErr e) :=
  ⟨rfl, op_of_fields .., d_of_fields ..⟩

end Sys2Proof
end

