-- ==== Sys2Proof/Laws/Step.lean ====
section
/-! SUPPORT. Inversion: all that an ENC command, a DEC command and a step can lead to; the Sink's next two answers under
the usual assumptions; splitting a run of the machine. Provers cite these instead of unfolding `exec` and `step`. -/

namespace Sys2Proof.Machine

variable {s t : State}

/-! ### The Sink's answers -/

theorem State.SinkOk.next (h : s.SinkOk) : s.nextAnswer = .ok := by
  unfold State.nextAnswer
  cases hs : s.sinkAnswers with
  | nil => rfl
  | cons a l => exact h a (by simp [hs])

theorem State.SinkOk.second (h : s.SinkOk) : s.secondAnswer = .ok := by
  unfold State.secondAnswer
  rcases hs : s.sinkAnswers with _ | ⟨a, _ | ⟨b, l⟩⟩
  · rfl
  · rfl
  · exact h b (by simp [hs])

theorem mem_of_nextAnswer_err {e : Byte} {k : Nat} (h : s.nextAnswer = .err e k) :
    SinkAnswer.err e k ∈ s.sinkAnswers := by
  unfold State.nextAnswer at h
  cases hs : s.sinkAnswers with
  | nil => simp [hs] at h
  | cons a l => simp only [hs, List.headD_cons] at h; simp [h]

/-- The answer a second `SinkWrite` of the same operation gets. -/
@[simp] theorem sinkTake_nextAnswer (c sent : List Byte) : (sinkTake c sent s).nextAnswer = s.secondAnswer := rfl

/-! ### Inversion -/

/-- All that an ENC command can lead to, up to how its `SinkWrite`s go (`emit_cases`). -/
inductive EncRun (i : Instr) (s : State) : State → Prop
  /-- ENC.RESET. -/
  | reset : i = .encReset → EncRun i s (reportStatus .ok (encRecover s))
  /-- ENC.WRITE of a byte that does not fill the run. -/
  | short (d : Byte) : i = .encWrite d → d ≠ sentinel → s.enc.fault = false → s.enc.run.toNat < 253 →
      EncRun i s (reportStatus .ok (setLastFull false (buffered d s)))
  /-- ENC.WRITE of the byte that fills the run. -/
  | full (d : Byte) (t : State) : i = .encWrite d → d ≠ sentinel → s.enc.fault = false →
      s.enc.run.toNat = 253 →
      emit (fullLength :: (s.pending ++ [d])) (finishOk true) (buffered d s) = .next t → EncRun i s t
  /-- ENC.WRITE 0x00, or ENC.END with a final block. -/
  | one (t : State) : i = .encEnd ∨ i = .encWrite sentinel → s.enc.fault = false →
      s.enc.run.toNat ≤ bufSize → emit s.runBlock (finishOk false) s = .next t → EncRun i s t
  /-- ENC.END without a final block. -/
  | elided : i = .encEnd → s.enc.fault = false → EncRun i s (reportStatus .ok (closeRun false s))
  /-- ENC.FINISH without a final block. -/
  | delim (t : State) : i = .encFinish → s.enc.fault = false →
      emit [sentinel] (finishOk false) s = .next t → EncRun i s t
  /-- ENC.FINISH with a final block. -/
  | two (t : State) : i = .encFinish → s.enc.fault = false → s.enc.run.toNat ≤ bufSize →
      emit s.runBlock (emit [sentinel] (finishOk false)) s = .next t → EncRun i s t

/-- An ENC command that answers a next state found ENC not waiting, and did one of these. -/
theorem encRun_of_exec {i : Instr} (hp : i.port = .enc) (h : exec i s = .next t) :
    s.enc.waiting = none ∧ EncRun i s t := by
  cases i <;> simp only [Instr.port, reduceCtorEq] at hp
  case encWrite d =>
    obtain ⟨hf, hw, -⟩ := requireHealthy_cases (show requireHealthy _ s = .next t from h)
    refine ⟨hw, ?_⟩
    simp only [exec] at h
    rw [execEncWrite_healthy _ hf hw] at h
    split at h
    · subst_vars
      exact .one _ (.inr rfl) hf (emitRun_cases h).1 (emitRun_cases h).2
    · rcases bufferByte_cases h with ⟨a, rfl⟩ | ⟨a, b⟩
      · exact .short d rfl ‹_› hf a
      · exact .full d _ rfl ‹_› hf a b
  case encEnd =>
    obtain ⟨hf, hw, h⟩ := requireHealthy_cases (show requireHealthy _ s = .next t from h)
    refine ⟨hw, ?_⟩
    rcases finalBlock_cases h with ⟨-, h⟩ | ⟨-, hr, h⟩
    · obtain rfl := Host.Outcome.next.inj h
      exact .elided rfl hf
    · exact .one _ (.inl rfl) hf hr h
  case encFinish =>
    obtain ⟨hf, hw, h⟩ := requireHealthy_cases (show requireHealthy _ s = .next t from h)
    refine ⟨hw, ?_⟩
    rcases finalBlock_cases h with ⟨-, h⟩ | ⟨-, hr, h⟩
    · exact .delim _ rfl hf h
    · exact .two _ rfl hf hr h
  case encReset =>
    obtain ⟨hw, h⟩ := requireFree_cases (show requireFree _ s = .next t from h)
    obtain rfl := Host.Outcome.next.inj h
    exact ⟨hw, .reset rfl⟩

/-- All that a DEC command can lead to, up to what its frame byte does (`takeFrameByte_cases`). -/
inductive DecRun (i : Instr) (s : State) : State → Prop
  /-- DEC.BYTE, or RX.BYTE of a byte other than 0x00. -/
  | byte (d : Byte) (t : State) : (i = .decByte d ∧ s.dec.waiting = false) ∨ (i = .rxByte d ∧ d ≠ sentinel) →
      takeFrameByte d (answerPull s) = .next t → DecRun i s t
  /-- DEC.END, or RX.BYTE 0x00. -/
  | complete : (i = .decEnd ∧ s.dec.waiting = false) ∨ i = .rxByte sentinel → DecRun i s (completeFrame s)
  /-- RX.EOF. -/
  | eof : i = .rxEof → DecRun i s (endAttempt (.err .unexpectedEof) s)
  /-- RX.ERR. -/
  | err (e : Byte) : i = .rxErr e → DecRun i s (endAttempt (.err (.transportError e)) s)
  /-- DEC.RESET. -/
  | reset : i = .decReset → s.dec.waiting = false → DecRun i s (decFrameStart s)

/-- A DEC command that answers a next state did one of these. -/
theorem decRun_of_exec {i : Instr} (hp : i.port = .dec) (h : exec i s = .next t) : DecRun i s t := by
  cases i <;> simp only [Instr.port, reduceCtorEq] at hp
  case decByte d =>
    obtain ⟨hw, h⟩ := requireNoPull_cases (show requireNoPull (takeFrameByte d) s = .next t from h)
    exact .byte d t (.inl ⟨rfl, hw⟩) (by rw [answerPull_free hw]; exact h)
  case decEnd =>
    obtain ⟨hw, h⟩ := requireNoPull_cases (k := fun s => .next (completeFrame s)) h
    obtain rfl := Host.Outcome.next.inj h
    exact .complete (.inl ⟨rfl, hw⟩)
  case decReset =>
    obtain ⟨hw, h⟩ := requireNoPull_cases (k := fun s => .next (decFrameStart s)) h
    obtain rfl := Host.Outcome.next.inj h
    exact .reset rfl hw
  case rxByte d =>
    simp only [exec, execRxByte] at h
    split at h
    · subst_vars
      obtain rfl := Host.Outcome.next.inj h
      exact .complete (.inr rfl)
    · exact .byte d t (.inr ⟨rfl, ‹_›⟩) h
  case rxEof =>
    obtain rfl := Host.Outcome.next.inj h
    exact .eof rfl
  case rxErr e =>
    obtain rfl := Host.Outcome.next.inj h
    exact .err e rfl

/-! ### Which input is taken -/

/-- Where DEC does not wait for the Source, an input waits for every earlier one of its own unit. -/
theorem Input.waitsFor_free (h : s.dec.waiting = false) (x y : Input) : Input.waitsFor s x y = x.sameUnit y := by
  simp [Input.waitsFor, h]

/-- The reset waits for nothing. -/
@[simp] theorem Input.waitsFor_rst (s : State) (k : Nat) (y : Input) : Input.waitsFor s (.rst k) y = false := rfl

theorem takeInput_rst (k : Nat) (s : State) : takeInput (.rst k) s = .next (hardwareReset k s) := rfl

/-- `x`, at its place in the arrival list, cannot be taken: it waits for one before it, or is not accepted. -/
def Blocked (s : State) (before : List Input) (x : Input) (rest : List Input) : Prop :=
  (∃ y ∈ before, Input.waitsFor s x y = true) ∨ ∀ t, takeInput x { s with inputs := before ++ rest } ≠ .next t

/-- What the search does with its next candidate. -/
theorem firstTaken_cons (passed rest : List Input) (x : Input) (s : State) :
    (Blocked s passed x rest ∧ firstTaken passed (x :: rest) s = firstTaken (passed ++ [x]) rest s) ∨
    (∃ t, (∀ y ∈ passed, Input.waitsFor s x y = false) ∧
      takeInput x { s with inputs := passed ++ rest } = .next t ∧ firstTaken passed (x :: rest) s = some t) := by
  simp only [firstTaken]
  split
  · next h => exact .inl ⟨.inl (List.any_eq_true.1 h), rfl⟩
  · next h =>
    have hx : ∀ y ∈ passed, Input.waitsFor s x y = false := fun y hy =>
      Bool.eq_false_of_not_eq_true fun hc => h (List.any_eq_true.2 ⟨y, hy, hc⟩)
    cases ht : takeInput x { s with inputs := passed ++ rest } with
    | next t => exact .inr ⟨t, hx, rfl, rfl⟩
    | fault r => exact .inl ⟨.inr (by simp [ht]), rfl⟩
    | refused r => exact .inl ⟨.inr (by simp [ht]), rfl⟩

/-- All that the search for an input that can be taken can lead to: the first that can be was taken. -/
theorem firstTaken_cases {passed rest : List Input} (h : firstTaken passed rest s = some t) :
    ∃ mid x after, rest = mid ++ x :: after ∧
      takeInput x { s with inputs := passed ++ mid ++ after } = .next t ∧
      (∀ y ∈ passed ++ mid, Input.waitsFor s x y = false) ∧
      (∀ a y b, mid = a ++ y :: b → Blocked s (passed ++ a) y (b ++ x :: after)) := by
  induction rest generalizing passed with
  | nil => simp [firstTaken] at h
  | cons x rest ih =>
    rcases firstTaken_cons passed rest x s with ⟨hb, he⟩ | ⟨u, hx, hu, he⟩
    · obtain ⟨mid, y, after, rfl, h1, h2, h3⟩ := ih (he.symm.trans h)
      refine ⟨x :: mid, y, after, rfl, by simpa using h1, by simpa using h2, fun a z b hab => ?_⟩
      cases a with
      | nil => obtain ⟨rfl, rfl⟩ := List.cons.inj hab; simpa using hb
      | cons a as =>
        obtain ⟨rfl, rfl⟩ := List.cons.inj hab
        simpa using h3 as z b rfl
    · obtain rfl := Option.some.inj (he.symm.trans h)
      exact ⟨[], x, rest, rfl, by simpa using hu, by simpa using hx, by simp⟩

/-- Where the search finds none, every input is blocked. -/
theorem firstTaken_none {passed rest : List Input} (h : firstTaken passed rest s = none) :
    ∀ a y b, rest = a ++ y :: b → Blocked s (passed ++ a) y b := by
  induction rest generalizing passed with
  | nil => simp
  | cons x rest ih =>
    rcases firstTaken_cons passed rest x s with ⟨hb, he⟩ | ⟨u, -, -, he⟩
    · rintro (_ | ⟨a, as⟩) y b hab
      · obtain ⟨rfl, rfl⟩ := List.cons.inj hab
        simpa using hb
      · obtain ⟨rfl, rfl⟩ := List.cons.inj hab
        simpa using ih (he.symm.trans h) as y b rfl
    · exact absurd (he.symm.trans h) (by simp)

/-- The first input that can be taken is taken. -/
theorem firstTaken_eq {passed mid after : List Input} {x : Input}
    (hb : ∀ a y b, mid = a ++ y :: b → Blocked s (passed ++ a) y (b ++ x :: after))
    (hx : ∀ y ∈ passed ++ mid, Input.waitsFor s x y = false)
    (h : takeInput x { s with inputs := passed ++ mid ++ after } = .next t) :
    firstTaken passed (mid ++ x :: after) s = some t := by
  induction mid generalizing passed with
  | nil =>
    rw [List.append_nil] at h hx
    rcases firstTaken_cons passed after x s with ⟨⟨y, hy, hw⟩ | hn, -⟩ | ⟨u, -, hu, he⟩
    · rw [hx y hy] at hw; cases hw
    · exact absurd h (hn t)
    · rw [List.nil_append, he, Host.Outcome.next.inj (hu.symm.trans h)]
  | cons y mid ih =>
    have hy := hb [] y mid rfl
    rw [List.append_nil] at hy
    rw [List.cons_append]
    rcases firstTaken_cons passed (mid ++ x :: after) y s with ⟨-, he⟩ | ⟨u, hu, hn, -⟩
    · rw [he]
      refine ih (fun a z b hab => ?_) (fun z hz => hx z (by simpa using hz)) (by simpa using h)
      simpa using hb (y :: a) z b (by simp [hab])
    · rcases hy with ⟨z, hz, hw⟩ | hy
      · rw [hu z hz] at hw; cases hw
      · exact absurd hn (hy u)

/-- All that a step which answers a next state can have done: nothing, with nothing presented; or it took the first
input that could be taken, and those before it are for one unit. -/
theorem step_cases (h : step s = .next t) :
    (s.inputs = [] ∧ t = s) ∨
    (∃ before x rest, s.inputs = before ++ x :: rest ∧
      takeInput x { s with inputs := before ++ rest } = .next t ∧
      (∀ y ∈ before, Input.waitsFor s x y = false ∧ ∃ p, y.unit? = some p) ∧
      (∀ a y b, before = a ++ y :: b → Blocked s a y (b ++ x :: rest))) := by
  unfold step at h
  cases hi : s.inputs with
  | nil => rw [hi] at h; exact .inl ⟨rfl, (Host.Outcome.next.inj h).symm⟩
  | cons x rest =>
    rw [hi] at h
    cases hf : firstTaken [] (x :: rest) s with
    | none =>
      simp only [hf] at h
      rcases firstTaken_none hf [] x rest rfl with ⟨y, hy, -⟩ | hn
      · simp at hy
      · exact absurd h (hn t)
    | some u =>
      simp only [hf] at h
      obtain rfl := Host.Outcome.next.inj h
      obtain ⟨mid, y, after, h1, h2, h3, h4⟩ := firstTaken_cases hf
      refine .inr ⟨mid, y, after, h1, by simpa using h2, fun z hz => ⟨h3 z (by simpa using hz), ?_⟩,
        fun a z b hab => by simpa using h4 a z b hab⟩
      obtain ⟨a, b, hab⟩ := List.append_of_mem hz
      cases z with
      | command c => exact ⟨_, rfl⟩
      | pull => exact ⟨_, rfl⟩
      | rst k =>
        rcases h4 a _ b hab with ⟨w, -, hw⟩ | hn
        · simp at hw
        · exact absurd (takeInput_rst k _) (hn _)

/-- All that taking one input can lead to. -/
theorem takeInput_cases {x : Input} (h : takeInput x s = .next t) :
    (∃ k, x = .rst k ∧ t = hardwareReset k s) ∨
    (x = .pull ∧ s.dec.waiting = false ∧ t = beginPull s) ∨
    (∃ c i, x = .command c ∧ decode c = .ok i ∧ exec i s = .next t) := by
  cases x with
  | rst k => exact .inl ⟨k, rfl, (Host.Outcome.next.inj h).symm⟩
  | pull =>
    obtain ⟨hw, h⟩ := requireNoPull_cases (k := fun s => .next (beginPull s)) h
    exact .inr (.inl ⟨rfl, hw, (Host.Outcome.next.inj h).symm⟩)
  | command c =>
    unfold takeInput at h
    rcases hd : decode c with ⟨p, o⟩ | i
    · simp [hd] at h
    · simp only [hd] at h
      exact .inr (.inr ⟨c, i, rfl, hd, h⟩)

/-- A step takes the first input that can be taken. -/
theorem step_eq {before rest : List Input} {x : Input} (hi : s.inputs = before ++ x :: rest)
    (hb : ∀ a y b, before = a ++ y :: b → Blocked s a y (b ++ x :: rest))
    (hx : ∀ y ∈ before, Input.waitsFor s x y = false)
    (h : takeInput x { s with inputs := before ++ rest } = .next t) : step s = .next t := by
  have := firstTaken_eq (passed := []) (by simpa using hb) (by simpa using hx) (by simpa using h)
  unfold step
  rw [hi]
  cases before <;> simp_all

/-- The oldest input is taken if it can be. -/
theorem step_head {x : Input} {rest : List Input} (hi : s.inputs = x :: rest)
    (h : takeInput x { s with inputs := rest } = .next t) : step s = .next t :=
  step_eq (before := []) hi (by simp) (by simp) h

/-- If some input can be taken, there is a step. -/
theorem step_exists {before rest : List Input} {x : Input} (hi : s.inputs = before ++ x :: rest)
    (hx : ¬Blocked s before x rest) : ∃ t, step s = .next t := by
  unfold step
  rw [hi]
  cases hf : firstTaken [] (before ++ x :: rest) s with
  | none => exact absurd (firstTaken_none hf before x rest rfl) (by simpa using hx)
  | some t => exact ⟨t, by cases before <;> simp_all⟩

/-- A step that finds nothing but inputs which wait for the oldest, which cannot be taken, answers why. -/
theorem step_stuck {x : Input} {rest : List Input} (hi : s.inputs = x :: rest)
    (hr : ∀ y ∈ rest, Input.waitsFor s y x = true)
    (h : ∀ t, takeInput x { s with inputs := rest } ≠ .next t) :
    step s = takeInput x { s with inputs := rest } := by
  have : firstTaken [] (x :: rest) s = none := by
    cases hf : firstTaken [] (x :: rest) s with
    | none => rfl
    | some t =>
      obtain ⟨mid, y, after, h1, h2, h3, -⟩ := firstTaken_cases hf
      cases mid with
      | nil => obtain ⟨rfl, rfl⟩ := List.cons.inj h1; exact absurd h2 (h t)
      | cons z mid =>
        obtain ⟨rfl, rfl⟩ := List.cons.inj h1
        have := h3 x (by simp)
        rw [hr y (by simp)] at this
        cases this
  unfold step
  rw [hi]
  simp [this]

/-- The step takes an input that waits for none before it, where the oldest cannot be taken and the others wait for
the oldest. -/
theorem step_passing {o x : Input} {mid after : List Input} (hi : s.inputs = o :: mid ++ x :: after)
    (hm : ∀ y ∈ mid, Input.waitsFor s y o = true)
    (hn : ∀ t, takeInput o { s with inputs := mid ++ x :: after } ≠ .next t)
    (hx : ∀ y ∈ o :: mid, Input.waitsFor s x y = false)
    (h : takeInput x { s with inputs := o :: mid ++ after } = .next t) : step s = .next t := by
  refine step_eq hi (fun a y b hab => ?_) hx h
  cases a with
  | nil => obtain ⟨rfl, rfl⟩ := List.cons.inj hab; exact .inr (by simpa using hn)
  | cons z a =>
    obtain ⟨rfl, rfl⟩ := List.cons.inj hab
    exact .inl ⟨o, by simp, hm y (by simp)⟩

/-! ### Runs -/

/-- A run goes on from where its first part ended. -/
theorem run_append {m n : Nat} {s t : State} (h : Sys2Proof.core.run m s = .next t) :
    Sys2Proof.core.run (m + n) s = Sys2Proof.core.run n t := by
  induction m generalizing s with
  | zero => obtain rfl := Host.Outcome.next.inj h; simp
  | succ m ih =>
    rw [Nat.succ_add]
    simp only [Host.Core.run] at h ⊢
    cases hs : Sys2Proof.core.step s with
    | next u => rw [hs] at h; exact ih h
    | fault r => rw [hs] at h; cases h
    | refused r => rw [hs] at h; cases h

/-- A run that ends in a next state passes through a next state after its first part. -/
theorem run_split {m n : Nat} {s u : State} (h : Sys2Proof.core.run (m + n) s = .next u) :
    ∃ t, Sys2Proof.core.run m s = .next t ∧ Sys2Proof.core.run n t = .next u := by
  induction m generalizing s with
  | zero => exact ⟨s, rfl, by simpa using h⟩
  | succ m ih =>
    rw [Nat.succ_add] at h
    simp only [Host.Core.run] at h ⊢
    cases hs : Sys2Proof.core.step s with
    | next v => rw [hs] at h; exact ih h
    | fault r => rw [hs] at h; cases h
    | refused r => rw [hs] at h; cases h

/-! ### The pending bytes -/

theorem pending_congr (hb : t.enc.buf = s.enc.buf) (hr : t.enc.run = s.enc.run) (hd : t.draws = s.draws) :
    t.pending = s.pending := by
  unfold State.pending
  rw [hr]
  exact State.bufBytes_congr _ _ fun a _ _ => State.bufByte_congr hb hd a

theorem pending_zero (h : s.enc.run = 0#8) : s.pending = [] := by simp [State.pending, h, State.bufBytes]

end Sys2Proof.Machine
end

