-- ==== Sys2Proof/Tests/Slice0.lean ====
section
/-! SUPPORT. The model's own tests: the well-formedness checks on ill-formed terms, the decoder on words written out
bit by bit from 30_encoding.md R76 and R77, one step of every operation against a worked example of the spec, and for
every statement with hypotheses a state and operands that meet them. -/

namespace Sys2Proof.Tests

open Sys2Proof.Machine

/-! ### Well-formedness: what each check refuses -/

/-- The four reserved ENC codes of R81. -/
theorem test_wf_refuses_reserved_enc_words :
    CmdWord.wf { port := .enc, bits := 0b01000000000#11 } = false ∧
    CmdWord.wf { port := .enc, bits := 0b10011111111#11 } = false ∧
    CmdWord.wf { port := .enc, bits := 0b11000000000#11 } = false ∧
    CmdWord.wf { port := .enc, bits := 0b11100000001#11 } = false := by decide

/-- The two reserved DEC codes of R81. -/
theorem test_wf_refuses_reserved_dec_words :
    CmdWord.wf { port := .dec, bits := 0b01011111111#11 } = false ∧
    CmdWord.wf { port := .dec, bits := 0b11110101011#11 } = false := by decide

/-- Every tabled code is accepted (R77). -/
theorem test_wf_accepts_tabled_words :
    CmdWord.wf { port := .enc, bits := 0b10100000000#11 } = true ∧
    CmdWord.wf { port := .dec, bits := 0b11000101010#11 } = true ∧
    Instr.wf (.rxErr 0xFF#8) = true := by decide

/-- No length byte, length byte 0, too few literals, too many, a 0x00 among them (R71). -/
theorem test_block_wf_refuses :
    Block.wf [] = false ∧ Block.wf [0x00#8] = false ∧ Block.wf [0x03#8, 0x11#8] = false ∧
    Block.wf [0x02#8, 0x11#8, 0x22#8] = false ∧ Block.wf [0x03#8, 0x11#8, 0x00#8] = false := by decide

/-- The empty block and the blocks of vector S3. -/
theorem test_block_wf_accepts :
    Block.wf [0x01#8] = true ∧ Block.wf [0x03#8, 0x11#8, 0x22#8] = true ∧ Block.wf [0x02#8, 0x33#8] = true := by
  decide

/-! ### Decoding: words written out bit by bit from R76 and R77 -/

theorem test_decode_encWrite : decode { port := .enc, bits := 0b00000010001#11 } = .ok (.encWrite 0x11#8) := by decide

theorem test_decode_encEnd : decode { port := .enc, bits := 0b00101011010#11 } = .ok .encEnd := by decide

theorem test_decode_encReset : decode { port := .enc, bits := 0b01100000000#11 } = .ok .encReset := by decide

theorem test_decode_encFinish : decode { port := .enc, bits := 0b10100000000#11 } = .ok .encFinish := by decide

theorem test_decode_decByte : decode { port := .dec, bits := 0b00011111110#11 } = .ok (.decByte 0xFE#8) := by decide

theorem test_decode_decEnd : decode { port := .dec, bits := 0b00100000000#11 } = .ok .decEnd := by decide

theorem test_decode_decReset : decode { port := .dec, bits := 0b01110000001#11 } = .ok .decReset := by decide

theorem test_decode_rxByte : decode { port := .dec, bits := 0b10000000011#11 } = .ok (.rxByte 0x03#8) := by decide

theorem test_decode_rxEof : decode { port := .dec, bits := 0b10111111111#11 } = .ok .rxEof := by decide

theorem test_decode_rxErr : decode { port := .dec, bits := 0b11000101010#11 } = .ok (.rxErr 0x2A#8) := by decide

/-- N1 and N2 of 95_test_vectors.md. -/
theorem test_decode_rejects_by_name :
    decode { port := .enc, bits := 0x2FF#11 } = .error (.reservedCode .enc 0b010#3) ∧
    decode { port := .enc, bits := 0x600#11 } = .error (.reservedCode .enc 0b110#3) ∧
    decode { port := .dec, bits := 0x7AB#11 } = .error (.reservedCode .dec 0b111#3) := by decide

/-- Table words: a word without a port is read at ENC where ENC has the code, else at DEC (log 11). -/
theorem test_decodeTableWord :
    decodeTableWord 16 0x033 = some (.encWrite 0x33#8) ∧ decodeTableWord 16 0x500 = some .encFinish ∧
    decodeTableWord 16 0x433 = some (.rxByte 0x33#8) ∧ decodeTableWord 16 0x62A = some (.rxErr 0x2A#8) ∧
    decodeTableWord 16 0x200 = none ∧ decodeTableWord 16 0x833 = none := by decide

/-- R85's own examples of the listing syntax. -/
theorem test_listing :
    Instr.listing (.encWrite 0x11#8) = "ENC.WRITE 0x11" ∧ Instr.listing .encFinish = "ENC.FINISH" ∧
    Instr.listing (.rxErr 0x2A#8) = "RX.ERR 0x2A" := by decide

/-! ### States for the tests -/

/-- ENC with `run` bytes pending in the listed cells, and a Sink that will answer as listed. -/
def encState (run : BitVec 8) (cells : Memory) (lastFull fault : Bool) (answers : List SinkAnswer) : State :=
  { State.reset with
    enc := { run := run, buf := cells, lastFull := lastFull, fault := fault, waiting := none }
    sinkAnswers := answers }

/-- DEC in a given state. -/
def decState (rem : BitVec 8) (pend bad : Bool) (out : List Byte) : State :=
  { State.reset with dec := { rem := rem, pend := pend, bad := bad, out := out, waiting := false } }

/-- The same with a capacity of the output accumulator. -/
def capped (cap : Nat) (s : State) : State := { s with cfg := { s.cfg with decOutCap := some cap } }

/-- The same with `ELIDE_EMPTY_FINAL = true`. -/
def eliding (s : State) : State := { s with cfg := { s.cfg with elideEmptyFinal := true } }

/-- `11 22` pending, as in the worked examples of R93 and R94. -/
def pending1122 (answers : List SinkAnswer) : State :=
  encState 2#8 [(0, 0x11#8), (1, 0x22#8)] false false answers

/-- One byte short of a full block. -/
def almostFull (answers : List SinkAnswer) : State :=
  encState 253#8 ((List.range 253).map fun i => (i, 0x07#8)) false false answers

/-- ENC waiting for a Sink that does not answer, the chunk `03 11 22` outstanding (R210), and inputs behind. -/
def hung (inputs : List Input) : State :=
  { pending1122 [] with
    enc := { (pending1122 []).enc with waiting := some [0x03#8, 0x11#8, 0x22#8] }
    inputs := inputs }

/-- DEC waiting for the Source in mid-frame, a deferred sentinel and two literals to come, and inputs behind. -/
def pulling (inputs : List Input) : State :=
  { State.reset with
    dec := { rem := 2#8, pend := true, bad := false, out := [0x11#8], waiting := true }
    inputs := inputs }

/-- Whether an answer is a next state of which `p` holds. -/
def answersNext (a : Answer) (p : State → Bool) : Bool :=
  match a with
  | .next t => p t
  | _ => false

/-- Whether an answer is the fault `f`. -/
def answersFault (a : Answer) (f : Fault) : Bool :=
  match a with
  | .fault g => g == f
  | _ => false

/-- The very next step runs the presented word. -/
theorem test_withFetchWord :
    answersNext (step (State.reset.withFetchWord 16 0x403)) (fun t => t.dec.rem == 2#8 && t.inputs == []) = true := by
  decide

/-! ### The two units side by side: R63 (d), R191, R210, U10 -/

/-- A Sink that does not answer: ENC waits with the chunk outstanding and no status; nothing else has stopped. -/
theorem test_silent_sink_hangs_enc_only :
    answersNext (step { pending1122 [.silent] with inputs := present [.encEnd, .decByte 0x02#8] }) (fun t =>
      t.enc.waiting == some [0x03#8, 0x11#8, 0x22#8] && t.wireTx == [] && t.encStatus == [] &&
      t.inputs == present [.decByte 0x02#8]) = true := by decide

/-- ENC.FINISH whose delimiter hangs: the final block is on the wire already (R55, R131). -/
theorem test_finish_hangs_in_the_delimiter :
    answersNext (exec .encFinish (pending1122 [.ok, .silent])) (fun t =>
      t.wireTx == [0x03#8, 0x11#8, 0x22#8] && t.enc.waiting == some [0x00#8]) = true := by decide

/-- A DEC command behind a command of the waiting ENC is taken, and ENC's stays presented. -/
theorem test_dec_goes_on_behind_a_hung_enc :
    answersNext (step (hung (present [.encEnd, .encReset, .decByte 0x02#8]))) (fun t =>
      t.dec.rem == 1#8 && t.inputs == present [.encEnd, .encReset] && t.enc.waiting.isSome) = true := by decide

/-- A DEC command behind a refused ENC command is taken (R133), and so is an ENC command behind a reserved DEC word. -/
theorem test_a_refused_command_holds_up_its_own_port_only :
    answersNext (step { encState 0#8 [] false true [] with inputs := present [.encEnd, .rxEof] }) (fun t =>
      t.decResults == [.err .unexpectedEof] && t.inputs == present [.encEnd]) = true ∧
    answersNext (step { State.reset with
      inputs := .command { port := .dec, bits := 0x200#11 } :: present [.decEnd, .encWrite 0x11#8] }) (fun t =>
      t.enc.run == 1#8 && t.decResults == [] && t.inputs.length == 2) = true := by decide

/-- Where no unit can take anything, the step answers why the oldest input cannot be taken. -/
theorem test_step_answers_the_oldest_reason :
    step (hung (present [.encReset, .encEnd])) = .fault .sinkSilent ∧
    step { encState 0#8 [] false true [] with inputs := present [.encFinish] } = .refused .encFaulted :=
  ⟨rfl, rfl⟩

/-- R201: the reset abandons the write ENC waits in; the prefix that had been taken is on the wire, no status. -/
theorem test_reset_ends_the_wait :
    answersNext (step (hung [.rst 2])) (fun t =>
      t.wireTx == [0x03#8, 0x11#8] && t.enc.waiting == none && t.enc.run == 0#8 && t.encStatus == []) = true ∧
    answersNext (step { pending1122 [] with inputs := [.rst 2] }) (fun t => t.wireTx == []) = true := by decide

/-! ### A pull from the Source that blocks: R58, R193, R210 -/

/-- The pull blocks: DEC waits, its frame as it was. -/
theorem test_a_pull_blocks :
    answersNext (step { decState 2#8 true false [0x11#8] with inputs := .pull :: present [.decEnd] }) (fun t =>
      t == pulling (present [.decEnd])) = true := by decide

/-- No command is accepted then, RESET included, nor a further pull. -/
theorem test_a_waiting_dec_accepts_no_command :
    step (pulling (present [.decReset])) = .fault .sourceSilent ∧
    step (pulling (present [.decByte 0x22#8, .decEnd])) = .fault .sourceSilent ∧
    step (pulling [.pull]) = .fault .sourceSilent :=
  ⟨rfl, rfl, rfl⟩

/-- The answer is taken though DEC.RESET was presented before it, and releases DEC. -/
theorem test_the_answer_releases_dec :
    answersNext (step (pulling (present [.decReset, .rxByte 0x22#8]))) (fun t =>
      t.dec == { rem := 1#8, pend := true, bad := false, out := [0x11#8, 0x22#8], waiting := false } &&
      t.inputs == present [.decReset]) = true ∧
    answersNext (step (pulling (present [.rxErr 0x2A#8]))) (fun t =>
      t.decResults == [.err (.transportError 0x2A#8)] && t.dec == DecUnit.frameStart) = true := by decide

/-- ENC goes on while DEC waits; hardware reset releases DEC. -/
theorem test_enc_goes_on_and_reset_releases :
    answersNext (step (pulling (present [.decEnd, .encWrite 0x33#8]))) (fun t =>
      t.enc.run == 1#8 && t.dec.waiting && t.inputs == present [.decEnd]) = true ∧
    answersNext (step (pulling (present [.decEnd] ++ [.rst 0]))) (fun t =>
      t.dec == DecUnit.frameStart && t.decResults == [] && t.inputs == present [.decEnd]) = true := by decide

/-! ### One step of every operation -/

/-- R93, worked example. -/
theorem test_encWrite_buffers :
    answersNext (exec (.encWrite 0x33#8) (pending1122 [])) (fun t =>
      t.enc.run == 3#8 && t.enc.buf == [(0, 0x11#8), (1, 0x22#8), (2, 0x33#8)] && t.wireTx == [] &&
      t.encStatus == [.ok]) = true := by decide

/-- R94, worked example. -/
theorem test_encWrite_sentinel :
    answersNext (exec (.encWrite 0x00#8) (pending1122 [])) (fun t =>
      t.enc.run == 0#8 && t.wireTx == [0x03#8, 0x11#8, 0x22#8] && t.encStatus == [.ok]) = true := by decide

/-- R96: the empty final block. -/
theorem test_encEnd_empty :
    answersNext (exec .encEnd State.reset) (fun t => t.wireTx == [0x01#8] && t.encStatus == [.ok]) = true := by decide

/-- R96 with `ELIDE_EMPTY_FINAL = true` right after a full block (E11). -/
theorem test_encEnd_elided :
    answersNext (exec .encEnd (eliding (encState 0#8 [] true false []))) (fun t =>
      t.wireTx == [] && t.sinkChunks == [] && !t.enc.lastFull) = true := by decide

/-- R131, worked example. -/
theorem test_encFinish_chunks :
    answersNext (exec .encFinish (encState 1#8 [(0, 0x33#8)] false false [])) (fun t =>
      t.sinkChunks == [[0x02#8, 0x33#8], [0x00#8]] && t.enc.run == 0#8 && t.encStatus == [.ok]) = true := by decide

/-- T11: the delimiter's `SinkWrite` fails although its byte is out. -/
theorem test_encFinish_delimiter_fails :
    answersNext (exec .encFinish (encState 1#8 [(0, 0x11#8)] false false [.ok, .err 0x05#8 1])) (fun t =>
      t.wireTx == [0x02#8, 0x11#8, 0x00#8] && t.enc.fault && t.encStatus == [.transportError 0x05#8]) = true := by
  decide

/-- N4: ENC.RESET while faulted. -/
theorem test_encReset_recovers :
    answersNext (exec .encReset (encState 9#8 [] true true [])) (fun t =>
      t.enc.run == 0#8 && !t.enc.lastFull && !t.enc.fault && t.encStatus == [.ok] && t.wireTx == []) = true := by decide

/-- R113, worked example. -/
theorem test_decByte_length :
    answersNext (exec (.decByte 0x02#8) (decState 0#8 true false [0x11#8, 0x22#8])) (fun t =>
      t.dec == { rem := 1#8, pend := true, bad := false, out := [0x11#8, 0x22#8, 0x00#8], waiting := false }) = true := by decide

/-- D24: a 0x00 at a literal position is copied. -/
theorem test_decByte_literal_zero :
    answersNext (exec (.decByte 0x00#8) (decState 1#8 true false [])) (fun t =>
      t.dec == { rem := 0#8, pend := true, bad := false, out := [0x00#8], waiting := false }) = true := by decide

/-- R116, worked example. -/
theorem test_decEnd_ok :
    answersNext (exec .decEnd (decState 0#8 true false [0x11#8, 0x22#8, 0x00#8, 0x33#8])) (fun t =>
      t.decResults == [.ok [0x11#8, 0x22#8, 0x00#8, 0x33#8]] && t.dec == DecUnit.frameStart) = true := by decide

/-- R116 corner case (iv): the latch wins over the count. -/
theorem test_decEnd_priority :
    answersNext (exec .decEnd (decState 5#8 true true [0x11#8])) (fun t =>
      t.decResults == [.err .malformedFrame]) = true := by decide

/-- R154. -/
theorem test_decReset_no_result :
    answersNext (exec .decReset (decState 3#8 true true [0x11#8])) (fun t =>
      t.dec == DecUnit.frameStart && t.decResults == []) = true := by decide

/-- R151 corner case (ii): a sentinel inside a block. -/
theorem test_rxByte_sentinel_in_block :
    answersNext (exec (.rxByte 0x00#8) (decState 2#8 true false [0x11#8])) (fun t =>
      t.decResults == [.err .unexpectedEof] && t.dec == DecUnit.frameStart) = true := by decide

/-- P4, command 1: the length byte of a full block defers nothing. -/
theorem test_rxByte_full_block :
    answersNext (exec (.rxByte 0xFF#8) State.reset) (fun t =>
      t.dec == { rem := 254#8, pend := false, bad := false, out := [], waiting := false }) = true := by decide

/-- X19: a latched failure is discarded unreported by RX.EOF. -/
theorem test_rxEof_discards_latch :
    answersNext (exec .rxEof (decState 0#8 false true [])) (fun t =>
      t.decResults == [.err .unexpectedEof] && t.dec == DecUnit.frameStart) = true := by decide

/-- R153, worked example. -/
theorem test_rxErr_passes_code :
    answersNext (exec (.rxErr 0x2A#8) (decState 1#8 true false [0x11#8])) (fun t =>
      t.decResults == [.err (.transportError 0x2A#8)] && t.dec == DecUnit.frameStart) = true := by decide

/-! ### The functions: vectors S1 to S4, E7, D18, D23, D27 -/

theorem test_cobsEncode :
    cobsEncode false [] = [0x01#8] ∧ cobsEncode false [0x00#8] = [0x01#8, 0x01#8] ∧
    cobsEncode false [0x11#8, 0x22#8, 0x00#8, 0x33#8] = [0x03#8, 0x11#8, 0x22#8, 0x02#8, 0x33#8] ∧
    cobsBlocks false [0x11#8, 0x00#8, 0x00#8, 0x00#8] = [[0x02#8, 0x11#8], [0x01#8], [0x01#8], [0x01#8]] := by decide

theorem test_cobsDecode :
    cobsDecode [0x03#8, 0x11#8, 0x22#8, 0x02#8, 0x33#8] = .ok [0x11#8, 0x22#8, 0x00#8, 0x33#8] ∧
    cobsDecode [0x02#8, 0x11#8, 0x00#8] = .err .malformedFrame ∧
    cobsDecode [0x03#8, 0x11#8, 0x22#8, 0x05#8, 0x33#8] = .err .unexpectedEof ∧
    cobsDecode [0x02#8, 0x11#8, 0x03#8, 0x22#8] = .err .unexpectedEof := by decide

/-! ### Witnesses: the hypotheses of the statements are met -/

theorem witness_DecodeAndEncodeAgree :
    Instr.wf (.rxErr 0xFF#8) = true ∧ decode { port := .enc, bits := 0x15A#11 } = .ok .encEnd ∧
    decode { port := .dec, bits := 0x4FF#11 } = .ok (.rxByte 0xFF#8) := by decide

/-- The head taken, the head not taken with its own unit's behind it, a command passing the other unit's, and an answer
passing the commands that wait with DEC. -/
theorem witness_StepRunsTheDecodedOperation :
    decode (encode (.encWrite 0x11#8)) = .ok (.encWrite 0x11#8) ∧
    answersNext (exec (.encWrite 0x11#8) { State.reset with inputs := [.rst 0] }) (fun _ => true) = true ∧
    Input.waitsFor (hung (present [.encWrite 0x11#8, .encEnd])) (.command (encode .encEnd))
      (.command (encode (.encWrite 0x11#8))) = true ∧
    answersFault (exec (.encWrite 0x11#8) (hung (present [.encEnd]))) .sinkSilent = true ∧
    (let s := hung (present [.encEnd, .encFinish, .decByte 0x02#8, .decEnd])
     s.inputs = .command (encode .encEnd) :: [.command (encode .encFinish)] ++
        .command (encode (.decByte 0x02#8)) :: present [.decEnd] ∧
      Input.waitsFor s (.command (encode .encFinish)) (.command (encode .encEnd)) = true ∧
      Input.waitsFor s (.command (encode (.decByte 0x02#8))) (.command (encode .encEnd)) = false ∧
      Input.waitsFor s (.command (encode (.decByte 0x02#8))) (.command (encode .encFinish)) = false ∧
      answersFault (takeInput (.command (encode .encEnd)) (hung (present [.encFinish, .decByte 0x02#8, .decEnd])))
        .sinkSilent = true ∧
      answersNext (exec (.decByte 0x02#8) (hung (present [.encEnd, .encFinish, .decEnd]))) (fun _ => true) = true) ∧
    (let s := pulling (present [.decReset, .rxEof])
     s.inputs = .command (encode .decReset) :: [] ++ .command (encode .rxEof) :: [] ∧
      Input.waitsFor s (.command (encode .rxEof)) (.command (encode .decReset)) = false ∧
      answersFault (takeInput (.command (encode .decReset)) (pulling (present [.rxEof]))) .sourceSilent = true ∧
      answersNext (exec .rxEof (pulling (present [.decReset]))) (fun _ => true) = true) := by
  decide

theorem witness_EachUnitTakesItsCommandsInOrder :
    (hung (present [.encEnd, .decByte 0x02#8])).inputs ≠ [] ∧
    answersNext (step (hung (present [.encEnd, .decByte 0x02#8]))) (fun t => t.inputs == present [.encEnd]) = true ∧
    (pulling (present [.decReset, .rxEof])).inputs ≠ [] ∧
    answersNext (step (pulling (present [.decReset, .rxEof]))) (fun t => t.inputs == present [.decReset]) = true := by
  decide

/-- DEC's commands run alone, and among commands of an ENC that hangs; ENC's run alone, and among commands of a DEC
that refuses a reserved word. -/
theorem witness_UnitsDoNotHoldEachOtherUp :
    (let s := { pending1122 [.silent] with inputs := present [.decByte 0x02#8, .encEnd, .encEnd, .decEnd] }
     inputsFor .dec s.inputs = present [.decByte 0x02#8, .decEnd] ∧
      answersNext (Sys2Proof.core.run 2 { s with inputs := inputsFor .dec s.inputs }) (fun _ => true) = true ∧
      answersNext (Sys2Proof.core.run 3 s) (fun u =>
        u.decResults == [.err .unexpectedEof] && u.inputs == present [.encEnd] && u.enc.waiting.isSome) = true) ∧
    (let s := { pending1122 [] with
        inputs := .command { port := .dec, bits := 0x200#11 } :: present [.encEnd, .decEnd] }
     inputsFor .enc s.inputs = present [.encEnd] ∧
      answersNext (Sys2Proof.core.run 1 { s with inputs := inputsFor .enc s.inputs }) (fun _ => true) = true ∧
      answersNext (Sys2Proof.core.run 1 s) (fun u => u.encStatus == [.ok] && u.inputs.length == 2) = true) := by decide

/-- A step with the reserved word passed over, and one with commands of its own port behind it only. -/
theorem witness_ReservedCommandCodesAreRefused :
    (let c : CmdWord := { port := .enc, bits := 0x7FF#11 }
     c.port = .enc ∧ c.op = 0b111#3 ∧
      answersNext (step { State.reset with inputs := .command c :: present [.decEnd] }) (fun t =>
        t.inputs == [.command c]) = true ∧
      ({ State.reset with inputs := .command c :: present [.encEnd] } : State).inputs =
        .command c :: [.command (encode .encEnd)] ∧
      Input.waitsFor State.reset (.command (encode .encEnd)) (.command c) = true) ∧
    (let c : CmdWord := { port := .dec, bits := 0x200#11 }
     c.port = .dec ∧ c.op = 0b010#3 ∧
      ({ State.reset with inputs := [.command c] } : State).inputs = .command c :: []) := by decide

theorem witness_IdleMachineKeepsItsState : State.reset.inputs = [] := by decide

theorem witness_HardwareReset :
    ({ encState 9#8 [(0, 0x11#8)] true true [] with inputs := [.rst 0, .rst 7] } : State).inputs = .rst 0 :: [.rst 7] ∧
    (encState 9#8 [(0, 0x11#8)] true true []).enc.waiting = none ∧ (hung [.rst 3]).enc.waiting ≠ none := by
  decide

/-- Both kinds of state. -/
theorem witness_ResetValuesAreTheTabledOnes :
    (encState 9#8 [] true true []).enc.waiting = none ∧ (decState 3#8 true true []).dec.waiting = false := by decide

/-- The clauses on the first `SinkWrite` at the ends of the run counter's range, both values of `finalBlockElided`,
the clause on the second `SinkWrite`, and a state in which ENC waits. -/
theorem witness_ResetDuringSinkWrite :
    ((almostFull [.silent]).enc.fault = false ∧ (almostFull [.silent]).enc.waiting = none ∧
      (almostFull [.silent]).enc.run.toNat = 253 ∧ (almostFull [.silent]).nextAnswer = .silent ∧
      (0xFE#8 : Byte) ≠ sentinel ∧ finalBlockElided (almostFull [.silent]).cfg (almostFull [.silent]).enc = false) ∧
    (let s := eliding (encState 0#8 [] true false [.silent])
     s.enc.fault = false ∧ s.enc.waiting = none ∧ s.nextAnswer = .silent ∧ finalBlockElided s.cfg s.enc = true) ∧
    (let s := pending1122 [.ok, .silent]
     s.enc.fault = false ∧ s.enc.waiting = none ∧ s.nextAnswer = .ok ∧ s.secondAnswer = .silent ∧
      finalBlockElided s.cfg s.enc = false) ∧
    ((hung [.rst 1]).enc.waiting = some [0x03#8, 0x11#8, 0x22#8] ∧ (hung [.rst 1]).inputs = .rst 1 :: []) := by decide

/-- The clauses on either side of 253, and the failing one. -/
theorem witness_EncWriteOfNonZeroByte :
    (let s := encState 252#8 [] false false []
     s.enc.fault = false ∧ s.enc.waiting = none ∧ (0xFF#8 : Byte) ≠ sentinel ∧ s.enc.run.toNat < 253) ∧
    ((almostFull []).enc.fault = false ∧ (almostFull []).enc.waiting = none ∧ (0x01#8 : Byte) ≠ sentinel ∧
      (almostFull []).enc.run.toNat = 253 ∧ (almostFull []).nextAnswer = .ok) ∧
    ((almostFull [.err 0x09#8 100]).enc.run.toNat = 253 ∧
      (almostFull [.err 0x09#8 100]).nextAnswer = .err 0x09#8 100) := by decide

set_option maxRecDepth 8000 in
/-- E11: the byte that fills the run closes a full block. -/
theorem test_encWrite_full_block :
    answersNext (exec (.encWrite 0xFE#8) (almostFull [])) (fun t =>
      t.enc.run == 0#8 && t.enc.lastFull && t.wireTx.length == 255 && t.wireTx.head? == some 0xFF#8 &&
      t.wireTx.getLast? == some 0xFE#8) = true := by decide

theorem witness_EncWriteOfSentinelByte :
    ((almostFull []).enc.fault = false ∧ (almostFull []).enc.waiting = none ∧ (almostFull []).enc.run.toNat ≤ 253 ∧
      (almostFull []).nextAnswer = .ok) ∧
    (let s := encState 0#8 [] false false [.err 0x07#8 1]
     s.enc.fault = false ∧ s.enc.waiting = none ∧ s.enc.run.toNat ≤ 253 ∧ s.nextAnswer = .err 0x07#8 1) := by decide

/-- One state for each clause of ENC.END. -/
theorem witness_EncEndEmitsTheFinalBlock :
    (let s := eliding (encState 0#8 [] true false [])
     s.enc.fault = false ∧ s.enc.waiting = none ∧ s.enc.run.toNat ≤ 253 ∧
      s.cfg.elideEmptyFinal = true ∧ s.enc.lastFull = true) ∧
    (let s := encState 0#8 [] true false []
     s.enc.fault = false ∧ s.enc.waiting = none ∧ ¬(s.cfg.elideEmptyFinal = true ∧ s.enc.lastFull = true) ∧
      s.nextAnswer = .ok) ∧
    (let s := almostFull [.err 0x05#8 0]
     s.enc.fault = false ∧ s.enc.waiting = none ∧ ¬(s.cfg.elideEmptyFinal = true ∧ s.enc.lastFull = true) ∧
      s.nextAnswer = .err 0x05#8 0) := by decide

/-- One state for each clause of ENC.FINISH. -/
theorem witness_EncFinish :
    (let s := pending1122 [.ok, .ok]
     s.enc.fault = false ∧ s.enc.waiting = none ∧ ¬(s.cfg.elideEmptyFinal = true ∧ s.enc.lastFull = true) ∧
      s.nextAnswer = .ok ∧ s.secondAnswer = .ok) ∧
    (pending1122 [.err 0x05#8 0]).nextAnswer = .err 0x05#8 0 ∧
    ((pending1122 [.ok, .err 0x05#8 1]).nextAnswer = .ok ∧
      (pending1122 [.ok, .err 0x05#8 1]).secondAnswer = .err 0x05#8 1) ∧
    (let s := eliding (encState 0#8 [] true false [.err 0x05#8 1])
     s.enc.fault = false ∧ s.enc.waiting = none ∧ s.cfg.elideEmptyFinal = true ∧ s.enc.lastFull = true ∧
      s.nextAnswer = .err 0x05#8 1) ∧
    (eliding (encState 0#8 [] true false [])).nextAnswer = .ok := by decide

theorem witness_EncResetIsAlwaysAccepted :
    (encState 9#8 [] true true []).enc.waiting = none ∧ (hung []).enc.waiting ≠ none := by decide

theorem witness_FaultedEncoderAcceptsOnlyReset :
    (encState 9#8 [] true true []).enc.fault = true ∧ (encState 9#8 [] true true []).enc.waiting = none := by decide

theorem witness_RepeatedOperationsActAsStated :
    (pending1122 []).enc.waiting = none ∧ (decState 3#8 true true []).dec.waiting = false ∧
    (∀ a ∈ (pending1122 [.ok, .ok]).sinkAnswers, a = SinkAnswer.ok) ∧
    answersNext (exec .encFinish (pending1122 [.ok, .ok])) (fun _ => true) = true := by decide

/-- The first `SinkWrite` of each operation, the second of ENC.FINISH, and a DEC command behind a waiting ENC. -/
theorem witness_SilentSinkHangsTheEncoder :
    ((almostFull [.silent]).enc.fault = false ∧ (almostFull [.silent]).enc.waiting = none ∧
      (almostFull [.silent]).enc.run.toNat = 253 ∧ (almostFull [.silent]).nextAnswer = .silent ∧
      (0x01#8 : Byte) ≠ sentinel ∧ finalBlockElided (almostFull [.silent]).cfg (almostFull [.silent]).enc = false) ∧
    (let s := eliding (encState 0#8 [] true false [.silent])
     s.enc.fault = false ∧ s.enc.waiting = none ∧ s.nextAnswer = .silent ∧ finalBlockElided s.cfg s.enc = true) ∧
    (let s := pending1122 [.ok, .silent]
     s.enc.fault = false ∧ s.enc.waiting = none ∧ s.nextAnswer = .ok ∧ s.secondAnswer = .silent ∧
      finalBlockElided s.cfg s.enc = false) ∧
    (let s := hung (present [.encReset, .decByte 0x02#8])
     s.enc.waiting ≠ none ∧ s.enc.fault = false ∧
      s.inputs = .command (encode .encReset) :: .command (encode (.decByte 0x02#8)) :: [] ∧
      (encode .encReset).port = .enc ∧ (encode (.decByte 0x02#8)).port = .dec ∧
      answersNext (exec (.decByte 0x02#8) { s with inputs := present [.encReset] }) (fun _ => true) = true) := by decide

/-- Each clause: the pull, the commands not accepted, the answers, and the two that pass those held up. -/
theorem witness_BlockedPullHoldsTheDecoder :
    (State.reset.dec.waiting = false ∧
      ({ State.reset with inputs := .pull :: present [.decEnd] } : State).inputs = .pull :: present [.decEnd]) ∧
    ((pulling []).dec.waiting = true ∧ Instr.port .decReset = .dec ∧ isStreamLevel .decReset = false) ∧
    (isStreamLevel (.rxByte 0x22#8) = true ∧
      answersNext (exec (.rxByte 0x22#8) (pulling [])) (fun _ => true) = true) ∧
    ((pulling (present [.decReset] ++ [.pull] ++ present [.rxEof])).inputs =
        (present [.decReset] ++ [.pull]) ++ .command (encode .rxEof) :: [] ∧
      decode (encode .rxEof) = .ok .rxEof ∧
      (∀ x ∈ present [.decReset] ++ [.pull], x.unit? = some .dec ∧ x.isAnswer = false) ∧
      answersNext (exec .rxEof (pulling (present [.decReset] ++ [.pull]))) (fun _ => true) = true) ∧
    ((pulling (present [.decReset, .encEnd])).inputs = present [.decReset] ++ .command (encode .encEnd) :: [] ∧
      decode (encode .encEnd) = .ok .encEnd ∧ Instr.port .encEnd = .enc ∧
      answersNext (exec .encEnd (pulling (present [.decReset]))) (fun _ => true) = true) := by decide

/-- A waiting ENC kept and reset, a waiting DEC kept, reset and answered, and a DEC that comes to wait. -/
theorem witness_WaitingUnitsAreReleasedOnlyByTheirAnswer :
    ((hung (present [.encEnd, .rxEof])).enc.waiting ≠ none ∧
      answersNext (step (hung (present [.encEnd, .rxEof]))) (fun t => t.enc.waiting.isSome) = true ∧
      answersNext (step (hung [.rst 1])) (fun t => t.enc.waiting == none) = true) ∧
    ((pulling (present [.encEnd])).dec.waiting = true ∧
      answersNext (step (pulling (present [.encEnd]))) (fun t => t.dec.waiting) = true ∧
      answersNext (step (pulling [.rst 0])) (fun t => !t.dec.waiting) = true ∧
      answersNext (step (pulling (present [.rxEof]))) (fun t => !t.dec.waiting) = true) ∧
    (State.reset.dec.waiting = false ∧
      answersNext (step { State.reset with inputs := [.pull] }) (fun t => t.dec.waiting) = true) := by decide

/-- A step that sets the flag, and the two that clear it. -/
theorem witness_FaultFlagChangesOnlyAsStated :
    answersNext (exec .encEnd (pending1122 [.err 0x05#8 2])) (fun t => t.enc.fault) = true ∧
    (pending1122 [.err 0x05#8 2]).enc.fault = false ∧
    answersNext (step { encState 0#8 [] false true [] with inputs := [.rst 0] }) (fun t => !t.enc.fault) = true ∧
    answersNext (step { encState 0#8 [] false true [] with
      inputs := [.command { port := .enc, bits := 0x300#11 }] }) (fun t => !t.enc.fault) = true := by decide

/-- An ENC command that ends in each of the two statuses, one that hangs, and a DEC command. -/
theorem witness_OneStatusPerEncCommand :
    Instr.port .encEnd = .enc ∧
    answersNext (exec .encEnd (pending1122 [])) (fun t => t.encStatus == [.ok]) = true ∧
    answersNext (exec .encEnd (pending1122 [.err 0x05#8 2])) (fun t =>
      t.encStatus == [.transportError 0x05#8]) = true ∧
    answersNext (exec .encEnd (pending1122 [.silent])) (fun t => t.encStatus == []) = true ∧
    Instr.port .decEnd = .dec ∧ answersNext (exec .decEnd State.reset) (fun _ => true) = true := by decide

theorem witness_EncCommandsLeaveTheDecoderAlone :
    Instr.port .encFinish = .enc ∧
    answersNext (exec .encFinish (pending1122 [.err 0x05#8 2])) (fun _ => true) = true := by decide

theorem witness_DecCommandsLeaveTheEncoderAlone :
    Instr.port (.rxByte 0x00#8) = .dec ∧
    answersNext (exec (.rxByte 0x00#8) (pending1122 [])) (fun _ => true) = true := by decide

theorem witness_BufferChangesOnlyAtTheRunCounter :
    Instr.port (.encWrite 0x33#8) = .enc ∧
    answersNext (exec (.encWrite 0x33#8) (pending1122 [.err 0x05#8 2])) (fun t => !t.enc.fault) = true ∧
    answersNext (exec (.encWrite 0x00#8) (pending1122 [])) (fun t => !t.enc.fault) = true := by decide

theorem witness_EncAndDecCommandsCommute :
    Instr.port .encEnd = .enc ∧ Instr.port (.rxByte 0x03#8) = .dec ∧
    answersNext (exec .encEnd (pending1122 [.err 0x05#8 2])) (fun t =>
      answersNext (exec (.rxByte 0x03#8) t) (fun _ => true)) = true ∧
    answersNext (exec (.rxByte 0x03#8) (pending1122 [.err 0x05#8 2])) (fun t =>
      answersNext (exec .encEnd t) (fun _ => true)) = true := by decide

theorem witness_ObservableSequencesOnlyGrow :
    answersNext (step { pending1122 [] with inputs := [.command { port := .enc, bits := 0x500#11 }] })
      (fun _ => true) = true := by decide

/-- A deferred sentinel with one byte of room left, and none deferred. -/
theorem witness_DecByteTakesALengthByte :
    (let s := capped 3 (decState 0#8 true false [0x11#8, 0x22#8])
     s.dec.waiting = false ∧ s.dec.bad = false ∧ s.dec.rem = 0#8 ∧ (0xFF#8 : Byte) ≠ sentinel ∧ s.dec.pend = true ∧
      s.cfg.decOutCap = some 3 ∧ s.dec.out.length + 1 ≤ 3) ∧
    (let s := decState 0#8 false false []
     s.dec.waiting = false ∧ s.dec.bad = false ∧ s.dec.rem = 0#8 ∧ (0x01#8 : Byte) ≠ sentinel ∧ s.dec.pend = false) ∧
    (let s := capped 2 (decState 0#8 true false [0x11#8, 0x22#8])
     s.dec.waiting = false ∧ s.dec.bad = false ∧ s.dec.rem = 0#8 ∧ s.dec.pend = true ∧ s.cfg.decOutCap = some 2 ∧
      2 < s.dec.out.length + 1) := by decide

theorem witness_DecByteCopiesALiteralByte :
    (let s := capped 3 (decState 1#8 true false [0x11#8, 0x22#8])
     s.dec.waiting = false ∧ s.dec.bad = false ∧ 0 < s.dec.rem.toNat ∧ s.cfg.decOutCap = some 3 ∧
      s.dec.out.length + 1 ≤ 3) ∧
    (let s := decState 254#8 false false []
     s.dec.waiting = false ∧ s.dec.bad = false ∧ 0 < s.dec.rem.toNat ∧ s.cfg.decOutCap = none) ∧
    (let s := capped 2 (decState 1#8 true false [0x11#8, 0x22#8])
     s.dec.waiting = false ∧ s.dec.bad = false ∧ 0 < s.dec.rem.toNat ∧ s.cfg.decOutCap = some 2 ∧
      2 < s.dec.out.length + 1) := by decide

theorem witness_DecByteLatchesMalformedFrame :
    (decState 0#8 true true [0x11#8]).dec.waiting = false ∧ (decState 0#8 true true [0x11#8]).dec.bad = true ∧
    ((decState 0#8 true false [0x11#8]).dec.bad = false ∧ (decState 0#8 true false [0x11#8]).dec.rem = 0#8) := by
  decide

theorem witness_DecEndAndDecReset : (decState 5#8 true true [0x11#8]).dec.waiting = false := by decide

/-- A full accumulator before a literal and before a deferred sentinel, and an unbounded one. -/
theorem witness_AppendPastTheCapacityIsRefused :
    (let s := capped 1 (decState 1#8 true false [0x11#8])
     s.dec.waiting = false ∧ s.dec.bad = false ∧ 0 < s.dec.rem.toNat ∧ s.cfg.decOutCap = some 1 ∧
      1 < s.dec.out.length + 1) ∧
    (let s := capped 0 (decState 0#8 true false [])
     s.dec.waiting = false ∧ s.dec.bad = false ∧ s.dec.rem = 0#8 ∧ s.dec.pend = true ∧ (0x01#8 : Byte) ≠ sentinel ∧
      s.cfg.decOutCap = some 0 ∧ 0 < s.dec.out.length + 1) ∧
    (let s := decState 1#8 true false []
     s.dec.waiting = false ∧ s.dec.bad = false ∧ 0 < s.dec.rem.toNat ∧ s.cfg.decOutCap = none) := by decide

theorem witness_RxByte :
    (0x01#8 : Byte) ≠ sentinel ∧ (decState 0#8 false true []).dec.bad = true ∧
    (let s := capped 1 (decState 1#8 true false [])
     s.dec.bad = false ∧ 0 < s.dec.rem.toNat ∧ s.cfg.decOutCap = some 1 ∧ s.dec.out.length + 1 ≤ 1) ∧
    (let s := capped 1 (decState 0#8 true false [])
     s.dec.bad = false ∧ s.dec.rem = 0#8 ∧ s.cfg.decOutCap = some 1 ∧ s.dec.out.length + 1 ≤ 1) ∧
    State.reset.cfg.decOutCap = none := by decide

/-- Each report the statement speaks of. -/
theorem witness_OnlyTheTabledErrorsAreReported :
    answersNext (exec (.rxByte 0x00#8) (decState 0#8 false true [])) (fun t =>
      t.decResults == [.err .malformedFrame]) = true ∧
    answersNext (exec .decEnd (decState 1#8 true false [])) (fun t =>
      t.decResults == [.err .unexpectedEof]) = true ∧
    answersNext (exec (.encWrite 0x00#8) (pending1122 [.err 0x05#8 2])) (fun t =>
      t.encStatus == [.transportError 0x05#8]) = true := by decide

/-- One state for each row of the table of R123. -/
theorem witness_DecoderPhaseTransitions :
    answersNext (exec (.rxByte 0x01#8) State.reset) (fun t => t.dec.phase == .atLength) = true ∧
    answersNext (exec (.decByte 0x02#8) State.reset) (fun t => t.dec.phase == .inLiterals) = true ∧
    answersNext (exec (.decByte 0x00#8) State.reset) (fun t => t.dec.phase == .discard) = true ∧
    answersNext (exec (.decByte 0x00#8) (decState 2#8 true false [])) (fun t => t.dec.phase == .inLiterals) = true ∧
    answersNext (exec (.rxByte 0x11#8) (decState 1#8 true false [])) (fun t => t.dec.phase == .atLength) = true ∧
    answersNext (exec (.rxByte 0x11#8) (decState 0#8 true true [])) (fun t => t.dec.phase == .discard) = true ∧
    answersNext (exec .decReset (decState 0#8 true true [])) (fun t => t.dec.phase == .atLength) = true := by decide

/-- The state after reset with commands presented. -/
def presented (cmds : List Instr) : State := { State.reset with inputs := present cmds }

theorem witness_OneResultPerFrameAttempt :
    Instr.port (.rxByte 0x00#8) = .dec ∧ endsAttempt (.rxByte 0x00#8) = true ∧
    Instr.port .decReset = .dec ∧ endsAttempt .decReset = false ∧
    answersNext (exec (.rxByte 0x00#8) State.reset) (fun _ => true) = true ∧
    answersNext (exec .decReset State.reset) (fun _ => true) = true ∧
    answersNext (Sys2Proof.core.run 3 (presented [.rxByte 0x01#8, .rxByte 0x00#8, .encEnd, .rxEof])) (fun t =>
      t.decResults.length == 1 && (t.inputs.filter Input.endsAttempt).length == 1) = true := by decide

theorem witness_StreamLevelNeverReportsMalformedFrame :
    (presented [.rxByte 0x02#8, .encEnd, .rxEof]).dec.bad = false ∧
    (presented [.rxByte 0x02#8, .encEnd, .rxEof]).inputs =
      [.command (encode (.rxByte 0x02#8)), .command (encode .encEnd), .command (encode .rxEof)] ∧
    isStreamLevel (.rxByte 0x02#8) = true ∧ Instr.port .encEnd = .enc ∧ isStreamLevel .rxEof = true ∧
    answersNext (Sys2Proof.core.run 3 (presented [.rxByte 0x02#8, .encEnd, .rxEof])) (fun t =>
      t.decResults == [.err .unexpectedEof]) = true := by decide

theorem witness_DecodeDetectsMalformedAndTruncated :
    (0x05#8 : Byte) ≠ sentinel ∧ [0x11#8, 0x22#8, 0x33#8].length < (0x05#8 : Byte).toNat - 1 ∧
    ([0x02#8, 0x01#8] : List Byte) ≠ [] ∧ cobsDecode [0x02#8, 0x01#8] = .ok [0x01#8] := by decide

theorem witness_EmptyBlockAfterFullBlockDecodesAlike :
    ([] : List (List Byte)) = [] ∧ Block.wf (fullLength :: List.replicate 254 0x01#8) = true := by
  refine ⟨rfl, ?_⟩
  simp only [Block.wf, List.length_replicate, List.all_replicate]
  rfl

/-- The frame-start state, a Sink that answers `ok`, and the payload `11 00`. -/
theorem witness_EncUnitComputesEncode :
    (presented (encEncode [0x11#8, 0x00#8])).enc.FrameStart ∧ (presented (encEncode [0x11#8, 0x00#8])).SinkOk ∧
    (presented (encEncode [0x11#8, 0x00#8])).inputs = present (encEncode [0x11#8, 0x00#8]) ++ [] :=
  ⟨⟨rfl, rfl, rfl, rfl⟩, by simp [State.SinkOk, presented, State.reset], by decide⟩

theorem witness_WireAndPendingRun :
    (presented (encWriteV [0x11#8])).enc.FrameStart ∧ (presented (encWriteV [0x11#8])).SinkOk ∧
    (presented (encWriteV [0x11#8])).inputs = present (encWriteV [0x11#8]) ++ [] :=
  ⟨⟨rfl, rfl, rfl, rfl⟩, by simp [State.SinkOk, presented, State.reset], by decide⟩

theorem witness_FramesOnTheWire :
    (presented ([[0x11#8], []].flatMap encFrame)).enc.FrameStart ∧
    (presented ([[0x11#8], []].flatMap encFrame)).SinkOk ∧
    (presented ([[0x11#8], []].flatMap encFrame)).inputs = present ([[0x11#8], []].flatMap encFrame) ++ [] :=
  ⟨⟨rfl, rfl, rfl, rfl⟩, by simp [State.SinkOk, presented, State.reset], by decide⟩

/-- A capacity that the frame's length just meets, alone and with commands behind; and one that is below the frame's
length but not exceeded. -/
theorem witness_DecUnitComputesDecode :
    (capped 3 (presented (decDecode [0x02#8, 0x11#8, 0x00#8]))).dec = DecUnit.frameStart ∧
    (capped 3 (presented (decDecode [0x02#8, 0x11#8, 0x00#8] ++ [.encEnd]))).inputs =
      present (decDecode [0x02#8, 0x11#8, 0x00#8]) ++ present [.encEnd] ∧
    ([0x02#8, 0x11#8, 0x00#8] : List Byte).length ≤ 3 ∧
    (capped 1 (presented (decDecode [0x02#8, 0x11#8, 0x00#8]))).inputs = present (decDecode [0x02#8, 0x11#8, 0x00#8]) ∧
    answersNext (Sys2Proof.core.run 4 (capped 1 (presented (decDecode [0x02#8, 0x11#8, 0x00#8])))) (fun t =>
      t.decResults == [.err .malformedFrame]) = true := by decide

theorem witness_ReceiverYieldsDecodeOfEachFrame :
    (capped 2 (presented (rxChunk [0x02#8, 0x11#8, 0x00#8, 0x00#8]))).dec = DecUnit.frameStart ∧
    (∀ w ∈ ([[0x02#8, 0x11#8], []] : List (List Byte)), sentinel ∉ w ∧ w.length ≤ 2) ∧
    (capped 2 (presented (rxChunk [0x02#8, 0x11#8, 0x00#8, 0x00#8] ++ [.encEnd]))).inputs =
      present (rxChunk ([[0x02#8, 0x11#8], []].flatMap (fun w => w ++ [sentinel]))) ++ present [.encEnd] ∧
    (capped 1 (presented (rxChunk [0x02#8, 0x11#8, 0x00#8, 0x00#8]))).inputs =
      present (rxChunk ([[0x02#8, 0x11#8], []].flatMap (fun w => w ++ [sentinel]))) ∧
    answersNext (Sys2Proof.core.run 4 (capped 1 (presented (rxChunk [0x02#8, 0x11#8, 0x00#8, 0x00#8])))) (fun t =>
      t.decResults == [.ok [0x11#8], .ok []]) = true := by decide

theorem witness_LoopbackReturnsThePayloads :
    (capped 1 (presented ([[0x11#8]].flatMap encFrame))).enc.FrameStart ∧
    (capped 1 (presented ([[0x11#8]].flatMap encFrame))).dec = DecUnit.frameStart ∧
    (capped 1 (presented ([[0x11#8]].flatMap encFrame))).SinkOk ∧
    (∀ cap, (capped 1 (presented ([[0x11#8]].flatMap encFrame))).cfg.decOutCap = some cap →
      ∀ p ∈ ([[0x11#8]] : List (List Byte)), p.length ≤ cap) ∧
    (capped 1 (presented ([[0x11#8]].flatMap encFrame))).inputs = present ([[0x11#8]].flatMap encFrame) :=
  ⟨⟨rfl, rfl, rfl, rfl⟩, rfl, by simp [State.SinkOk, capped, presented, State.reset], by simp [capped, presented], rfl⟩

/-- A state in mid-frame meets the invariant. -/
theorem inv_pending1122 (answers : List SinkAnswer) : (pending1122 answers).Inv := by
  refine ⟨?_, ⟨fun _ _ => ⟨?_, ?_, ?_⟩, fun c h => by cases h⟩, ?_, ?_⟩
  · show Memory.wf [(0, 0x11#8), (1, 0x22#8)]
    decide
  · show 2 ≤ 253
    decide
  · intro i hi
    have hi : i < 2 := hi
    interval_cases i
    · exact ⟨0x11#8, rfl, by decide⟩
    · exact ⟨0x22#8, rfl, by decide⟩
  · exact fun h => absurd h (by simp [pending1122, encState])
  · show DecUnit.frameStart.Inv
    simp [DecUnit.Inv, DecUnit.frameStart]
  · simp [pending1122, encState, State.reset, Config.hardware]

/-- A state in which ENC waits meets the invariant. -/
theorem inv_hung (inputs : List Input) : (hung inputs).Inv := by
  refine ⟨?_, ⟨fun _ h => (by cases h), fun c h => ⟨rfl, .inl ?_⟩⟩, ?_, ?_⟩
  · show Memory.wf [(0, 0x11#8), (1, 0x22#8)]
    decide
  · obtain rfl := Option.some.inj h
    decide
  · exact (inv_pending1122 []).2.2.1
  · exact (inv_pending1122 []).2.2.2

theorem witness_EveryStepKeepsTheInvariant :
    ({ pending1122 [.err 0x05#8 1] with inputs := present [.encFinish] } : State).Inv ∧
    answersNext (step { pending1122 [.err 0x05#8 1] with inputs := present [.encFinish] }) (fun t => t.enc.fault)
      = true ∧
    (hung (present [.encEnd, .rxEof])).Inv ∧
    answersNext (step (hung (present [.encEnd, .rxEof]))) (fun t => t.enc.waiting.isSome) = true :=
  ⟨inv_pending1122 [.err 0x05#8 1], by decide, inv_hung _, by decide⟩

theorem witness_ChunksAreBlocksOrTheDelimiter :
    (pending1122 []).Inv ∧
    answersNext (exec .encFinish (pending1122 [])) (fun t =>
      t.sinkChunks == [[0x03#8, 0x11#8, 0x22#8], [0x00#8]]) = true ∧
    answersNext (exec .encEnd (pending1122 [])) (fun t => t.sinkChunks == [[0x03#8, 0x11#8, 0x22#8]]) = true :=
  ⟨inv_pending1122 _, by decide, by decide⟩

theorem witness_EveryOperationCompletes :
    (pending1122 [.err 0x05#8 0]).Inv ∧ (pending1122 [.err 0x05#8 0]).SinkAnswers ∧
    (pending1122 [.err 0x05#8 0]).cfg.decOutCap = none ∧ (pending1122 [.err 0x05#8 0]).enc.fault = false ∧
    (pending1122 [.err 0x05#8 0]).enc.waiting = none ∧ (pending1122 [.err 0x05#8 0]).dec.waiting = false :=
  ⟨inv_pending1122 _, by simp [State.SinkAnswers, pending1122, encState], rfl, rfl, rfl, rfl⟩

end Sys2Proof.Tests
end

