-- ==== Sys2Proof/Proofs/ResetValues.lean ====
section
/-! The reset values of 10_state.md R42: what each of the two reset commands answers where it is accepted, and the
tabled values it leaves. -/

namespace Sys2Proof.Machine

variable {s : State}

/-- ENC.RESET where no `SinkWrite` is outstanding (R132). -/
theorem exec_encReset_free (h : s.enc.waiting = none) :
    exec .encReset s = .next (reportStatus .ok (encRecover s)) :=
  requireFree_free (k := resetOk) h

/-- DEC.RESET where no pull is outstanding (R154). -/
theorem exec_decReset_free (h : s.dec.waiting = false) : exec .decReset s = .next (decFrameStart s) :=
  execDecReset_free h

/-- Settles O11: of State.reset the values are read off; ENC.RESET ends in `encRecover`, DEC.RESET in
`DecUnit.frameStart`, and both set every tabled element of their unit. -/
theorem resetValuesAreTheTabledOnes : Obligations.ResetValuesAreTheTabledOnes := by
  refine ⟨⟨rfl, rfl, rfl, Memory.read?_nil, rfl, rfl, rfl, rfl⟩, fun s hEnc => ?_, fun s hDec => ?_⟩
  · exact ⟨_, exec_encReset_free hEnc, by simp⟩
  · exact ⟨_, exec_decReset_free hDec, by simp [DecUnit.frameStart]⟩

end Sys2Proof.Machine
end

