-- ==== Sys2Proof/Proofs/CommandWords.lean ====
section
/-! Command words read by their two fields (30_encoding.md R76, R77), and what becomes of a reserved word presented on
a port (R81): it is not taken, and a step leaves among the inputs all but the one it takes. -/

namespace Sys2Proof

/-! ### The code tables -/

theorem decode_enc {c : CmdWord} (h : c.port = .enc) : decode c = decodeEnc c.op c.d := by simp [decode, h]

theorem decode_dec {c : CmdWord} (h : c.port = .dec) : decode c = decodeDec c.op c.d := by simp [decode, h]

theorem decode_enc_of_fields (o : OpCode) (d : Byte) : decode { port := .enc, bits := o ++ d } = decodeEnc o d := by
  rw [decode_enc rfl, op_of_fields, d_of_fields]

theorem decode_dec_of_fields (o : OpCode) (d : Byte) : decode { port := .dec, bits := o ++ d } = decodeDec o d := by
  rw [decode_dec rfl, op_of_fields, d_of_fields]

/-- The reserved codes of the ENC port (R81). -/
theorem decodeEnc_reserved {o : OpCode} (h : o ∈ [0b010#3, 0b100#3, 0b110#3, 0b111#3]) (d : Byte) :
    decodeEnc o d = .error (.reservedCode .enc o) := by
  simp only [List.mem_cons, List.not_mem_nil, or_false] at h
  rcases h with rfl | rfl | rfl | rfl <;> rfl

/-- The reserved codes of the DEC port (R81). -/
theorem decodeDec_reserved {o : OpCode} (h : o ∈ [0b010#3, 0b111#3]) (d : Byte) :
    decodeDec o d = .error (.reservedCode .dec o) := by
  simp only [List.mem_cons, List.not_mem_nil, or_false] at h
  rcases h with rfl | rfl <;> rfl

/-- A word as a number (R77). -/
theorem toNat_of_fields (o : OpCode) (d : Byte) : (o ++ d).toNat = o.toNat * 256 + d.toNat := by
  rw [BitVec.toNat_append, ← Nat.shiftLeft_add_eq_or_of_lt d.isLt, Nat.shiftLeft_eq]

end Sys2Proof

namespace Sys2Proof.Machine

variable {s t : State} {k : State → Answer}

/-! ### Taking an input leaves the inputs behind it alone -/

@[simp] theorem buffered_inputs (d : Byte) (s : State) : (buffered d s).inputs = s.inputs := rfl

theorem finishOk_inputs {full : Bool} (h : finishOk full s = .next t) : t.inputs = s.inputs := by
  obtain rfl := Host.Outcome.next.inj h
  simp

/-- However a `SinkWrite` goes, the inputs stay, if what follows it keeps them. -/
theorem emit_inputs {c : List Byte} (hk : ∀ u, k u = .next t → t.inputs = u.inputs) (h : emit c k s = .next t) :
    t.inputs = s.inputs := by
  rcases emit_cases h with ⟨-, h⟩ | ⟨e, n, -, rfl⟩ | ⟨-, rfl⟩
  · exact (hk _ h).trans (sinkTake_inputs ..)
  · simp
  · simp

theorem EncRun.inputs_eq {i : Instr} (h : EncRun i s t) : t.inputs = s.inputs := by
  cases h with
  | reset => simp
  | short => simp
  | full d _ _ _ _ _ he => exact (emit_inputs (fun _ => finishOk_inputs) he).trans (buffered_inputs d s)
  | one _ _ _ _ he => exact emit_inputs (fun _ => finishOk_inputs) he
  | elided => simp
  | delim _ _ _ he => exact emit_inputs (fun _ => finishOk_inputs) he
  | two _ _ _ _ he => exact emit_inputs (fun _ => emit_inputs fun _ => finishOk_inputs) he

theorem DecRun.inputs_eq {i : Instr} (h : DecRun i s t) : t.inputs = s.inputs := by
  cases h with
  | byte d _ _ ht => rw [takeFrameByte_frame ht]; simp
  | complete => simp
  | eof => simp
  | err => simp
  | reset => simp

theorem exec_inputs {i : Instr} (h : exec i s = .next t) : t.inputs = s.inputs := by
  cases hp : i.port with
  | enc => exact (encRun_of_exec hp h).2.inputs_eq
  | dec => exact (decRun_of_exec hp h).inputs_eq

theorem takeInput_inputs {x : Input} (h : takeInput x s = .next t) : t.inputs = s.inputs := by
  rcases takeInput_cases h with ⟨k, -, rfl⟩ | ⟨-, -, rfl⟩ | ⟨c, i, -, -, h⟩
  · simp
  · simp
  · exact exec_inputs h

/-- An input that is accepted in no state stays presented as often as it was. -/
theorem count_inputs_of_step {x : Input} (hx : ∀ u v, takeInput x u ≠ .next v) (h : step s = .next t) :
    t.inputs.count x = s.inputs.count x := by
  rcases step_cases h with ⟨-, rfl⟩ | ⟨before, y, rest, hi, hy, -, -⟩
  · rfl
  · have hne : y ≠ x := by
      rintro rfl
      exact hx _ _ hy
    rw [takeInput_inputs hy, hi]
    simp [hne]

/-! ### Reserved words -/

/-- A word that decodes to no operation is refused by name, in every state (R81). -/
theorem takeInput_reserved {c : CmdWord} {p : Port} {o : OpCode} (h : decode c = .error (.reservedCode p o))
    (s : State) : takeInput (.command c) s = .refused (.reservedCommand p o) := by
  simp [takeInput, h]

/-- Settles O1: each word is read in its port's table by its two fields, and there each row is looked up. -/
theorem commandWordsSelectTheTabledOperations : Obligations.CommandWordsSelectTheTabledOperations := by
  intro d
  simp only [decode_enc_of_fields, decode_dec_of_fields]
  exact ⟨rfl, rfl, rfl, rfl, rfl, rfl, rfl, rfl, rfl, rfl, fun _ ho => decodeEnc_reserved ho d,
    fun _ ho => decodeDec_reserved ho d, fun o => toNat_of_fields o d⟩

/-- Settles O8: the word decodes to no operation, so it is refused in every state; hence a step which takes an input
takes another, and where all the others wait behind it the step answers its refusal. -/
theorem reservedCommandCodesAreRefused : Obligations.ReservedCommandCodesAreRefused := by
  intro s c hc
  have hd : decode c = .error (.reservedCode c.port c.op) := by
    rcases hc with ⟨hp, ho⟩ | ⟨hp, ho⟩
    · rw [decode_enc hp, hp, decodeEnc_reserved (by simpa using ho)]
    · rw [decode_dec hp, hp, decodeDec_reserved (by simpa using ho)]
  have hn : ∀ u v, takeInput (.command c) u ≠ .next v := by simp [takeInput_reserved hd]
  refine ⟨takeInput_reserved hd s, fun t ht => count_inputs_of_step hn ht, fun rest hi hr => ?_⟩
  rw [step_stuck hi hr (hn _), takeInput_reserved hd]

end Sys2Proof.Machine
end

