-- ==== Sys2Proof/Proofs/EncWrite.lean ====
section
/-! What an ENC command that sends at most one chunk leaves, as the Sink answers: the state after a buffered byte, the
state after a sent block, and `EncFailedWith` (40_encode_transform.md R92 to R96); the exact effect of ENC.WRITE. -/

namespace Sys2Proof.Machine

variable {s u : State} {k : State → Answer}

/-! ### A buffered byte -/

@[simp] theorem buffered_wireTx (d : Byte) (s : State) : (buffered d s).wireTx = s.wireTx := rfl
@[simp] theorem buffered_sinkChunks (d : Byte) (s : State) : (buffered d s).sinkChunks = s.sinkChunks := rfl
@[simp] theorem buffered_encStatus (d : Byte) (s : State) : (buffered d s).encStatus = s.encStatus := rfl
@[simp] theorem buffered_sinkAnswers (d : Byte) (s : State) : (buffered d s).sinkAnswers = s.sinkAnswers := rfl
@[simp] theorem buffered_nextAnswer (d : Byte) (s : State) : (buffered d s).nextAnswer = s.nextAnswer := rfl
@[simp] theorem buffered_dec (d : Byte) (s : State) : (buffered d s).dec = s.dec := rfl
@[simp] theorem buffered_decResults (d : Byte) (s : State) : (buffered d s).decResults = s.decResults := rfl
@[simp] theorem buffered_cfg (d : Byte) (s : State) : (buffered d s).cfg = s.cfg := rfl

/-- The state after ENC.WRITE of a byte that does not fill the run (R93). -/
def byteStored (d : Byte) (s : State) : State := reportStatus .ok (setLastFull false (buffered d s))

/-! ### A sent block -/

/-- The state after the Sink took the block `c` and the operation completed with it (R93, R94, R95). -/
def blockSent (full : Bool) (c : List Byte) (s : State) : State :=
  reportStatus .ok (closeRun full (sinkTake c c s))

theorem emit_finishOk (full : Bool) (c : List Byte) (h : s.nextAnswer = .ok) :
    emit c (finishOk full) s = .next (blockSent full c s) := emit_ok c h

/-- A `SinkWrite` that fails raises `TransportError(e)` with the first bytes of the chunk out (R57, R177). -/
theorem emit_failedWith (c : List Byte) {e : Byte} {n : Nat} (h : s.nextAnswer = .err e n) :
    ∃ t, emit c k s = .next t ∧ EncFailedWith s t e [c] (c.take n) :=
  ⟨_, emit_err c h, by simp [EncFailedWith]⟩

/-- A failure after a byte was buffered is one of the whole operation: buffering touches ENC only. -/
theorem EncFailedWith.of_buffered {d e : Byte} {handed : List (List Byte)} {sent : List Byte}
    (h : EncFailedWith (buffered d s) u e handed sent) : EncFailedWith s u e handed sent := by
  simpa [EncFailedWith] using h

/-! ### ENC.WRITE in a unit that accepts it -/

section
variable (hf : s.enc.fault = false) (hw : s.enc.waiting = none)
include hf hw

/-- ENC.WRITE 0x00 is the `SinkWrite` of the run's block (R94). -/
theorem exec_encWrite_sentinel (hr : s.enc.run.toNat ≤ 253) :
    exec (.encWrite sentinel) s = emit s.runBlock (finishOk false) s := by
  rw [exec, execEncWrite_healthy _ hf hw, if_pos rfl, emitRun_eq (hr.trans (by decide))]

/-- ENC.WRITE of a byte that does not fill the run stores it (R93). -/
theorem exec_encWrite_short {d : Byte} (hd : d ≠ sentinel) (hr : s.enc.run.toNat < 253) :
    exec (.encWrite d) s = .next (byteStored d s) := by
  rw [exec, execEncWrite_healthy _ hf hw, if_neg hd, bufferByte_short hr, byteStored]

/-- ENC.WRITE of the byte that fills the run is the `SinkWrite` of the full block (R93). -/
theorem exec_encWrite_full {d : Byte} (hd : d ≠ sentinel) (hr : s.enc.run.toNat = 253) :
    exec (.encWrite d) s = emit (fullLength :: (s.pending ++ [d])) (finishOk true) (buffered d s) := by
  rw [exec, execEncWrite_healthy _ hf hw, if_neg hd, bufferByte_full hr]

end

/-- Settles O14: the operation is one `SinkWrite` of the run's block, and the Sink's answer decides how it ends. -/
theorem encWriteOfSentinelByte : Obligations.EncWriteOfSentinelByte := by
  intro s hf hw hr
  rw [exec_encWrite_sentinel hf hw hr]
  exact ⟨fun hok => emit_finishOk false _ hok, fun e k herr => emit_failedWith _ herr⟩

/-- Settles O13: below 253 the operation ends in `byteStored`; at 253 it is one `SinkWrite` of the full block out of
the state with the byte buffered, and the Sink's answer decides how it ends. -/
theorem encWriteOfNonZeroByte : Obligations.EncWriteOfNonZeroByte := by
  intro s d hf hw hd _
  have hfull (hr : s.enc.run.toNat = 253) : exec (.encWrite d) s =
      emit (fullLength :: (s.bufBytes 0 253 ++ [d])) (finishOk true) (buffered d s) := by
    rw [exec_encWrite_full hf hw hd hr, State.pending, hr]
  refine ⟨fun hr => ?_, fun hr hok => ?_, fun e k hr herr => ?_⟩
  · rw [exec_encWrite_short hf hw hd hr]
    simp [byteStored, reportStatus, setLastFull, buffered, bumpRun, hf, hw]
  · rw [hfull hr, emit_finishOk true _ (show (buffered d s).nextAnswer = _ from hok)]
    simp [blockSent, reportStatus, closeRun, sinkTake, buffered, bumpRun, hf, hw, hr]
  · rw [hfull hr]
    obtain ⟨t, ht, hfail⟩ := emit_failedWith _ (show (buffered d s).nextAnswer = _ from herr)
    exact ⟨t, ht, hfail.of_buffered⟩

end Sys2Proof.Machine
end

