-- ==== Sys2Proof/Proofs/EncodeRefinement.lean ====
section
/-! The encoder unit against the function it computes a byte at a time (40_encode_transform.md R97): every ENC.WRITE
hands over the chunks by which `blocksFrom` moves on over its byte, and ENC.END hands over what `blocksFrom` answers at
the end. -/

namespace Sys2Proof

/-- A word that carries the fields of an operation selects it (R77). -/
theorem decode_encode (i : Instr) : decode (encode i) = .ok i :=
  match i with
  | .encWrite _ | .encEnd | .encReset | .encFinish => decode_enc_of_fields _ _
  | .decByte _ | .decEnd | .decReset | .rxByte _ | .rxEof | .rxErr _ => decode_dec_of_fields _ _

end Sys2Proof

namespace Sys2Proof.Machine

variable {s t u : State}

/-! ### Presented commands run one per step -/

theorem takeInput_encode (i : Instr) (s : State) : takeInput (.command (encode i)) s = exec i s := by
  simp [takeInput, decode_encode]

/-- The command presented first runs in the next step. -/
theorem run_one_of_exec {i : Instr} {rest : List Input} (hi : s.inputs = .command (encode i) :: rest)
    (h : exec i { s with inputs := rest } = .next t) : Sys2Proof.core.run 1 s = .next t := by
  have hstep : Sys2Proof.core.step s = .next t := step_head hi ((takeInput_encode i _).trans h)
  simp [Host.Core.run, hstep]

/-! ### The unit between operations, and what a number of completed operations leaves -/

/-- ENC accepts a command, has room for a byte, and its Sink answers `ok`. -/
structure EncReady (s : State) : Prop where
  healthy : s.enc.fault = false
  free : s.enc.waiting = none
  inRange : s.enc.run.toNat ≤ 253
  sinkOk : s.SinkOk

/-- `n` ENC commands completed with `OK` between `s` and `t`, and `chunks` went out whole; DEC, the results and the
configuration are untouched. -/
structure EncSent (s t : State) (n : Nat) (chunks : List (List Byte)) : Prop where
  wireTx : t.wireTx = s.wireTx ++ chunks.flatten
  sinkChunks : t.sinkChunks = s.sinkChunks ++ chunks
  encStatus : t.encStatus = s.encStatus ++ List.replicate n .ok
  dec : t.dec = s.dec
  decResults : t.decResults = s.decResults
  cfg : t.cfg = s.cfg

/-- `chunks` are the blocks by which the loop of R90 moves on over `p` from the run of `s` to the run of `t`. -/
def EncodesFrom (s t : State) (p : List Byte) (chunks : List (List Byte)) : Prop :=
  ∀ (elide : Bool) (q : List Byte), blocksFrom elide s.pending s.enc.lastFull (p ++ q) =
    chunks ++ blocksFrom elide t.pending t.enc.lastFull q

/-- What is presented is no part of the run. -/
theorem pending_withInputs (s : State) (l : List Input) : State.pending { s with inputs := l } = s.pending :=
  pending_congr rfl rfl rfl

theorem EncReady.withInputs (h : EncReady s) (l : List Input) : EncReady { s with inputs := l } :=
  ⟨h.healthy, h.free, h.inRange, h.sinkOk⟩

theorem EncSent.refl (s : State) : EncSent s s 0 [] := by constructor <;> simp

theorem EncSent.trans {m n : Nat} {a b : List (List Byte)} (h : EncSent s t m a) (h' : EncSent t u n b) :
    EncSent s u (m + n) (a ++ b) where
  wireTx := by simp [h'.wireTx, h.wireTx]
  sinkChunks := by simp [h'.sinkChunks, h.sinkChunks]
  encStatus := by rw [h'.encStatus, h.encStatus, List.append_assoc, List.replicate_append_replicate]
  dec := h'.dec.trans h.dec
  decResults := h'.decResults.trans h.decResults
  cfg := h'.cfg.trans h.cfg

theorem EncSent.of_withInputs {l : List Input} {n : Nat} {a : List (List Byte)}
    (h : EncSent { s with inputs := l } t n a) : EncSent s t n a :=
  ⟨h.wireTx, h.sinkChunks, h.encStatus, h.dec, h.decResults, h.cfg⟩

theorem EncodesFrom.of_withInputs {l : List Input} {p : List Byte} {a : List (List Byte)}
    (h : EncodesFrom { s with inputs := l } t p a) : EncodesFrom s t p a := fun elide q => by
  rw [← pending_withInputs s l]
  exact h elide q

theorem EncodesFrom.refl (s : State) : EncodesFrom s s [] [] := fun _ _ => rfl

theorem EncodesFrom.trans {p q : List Byte} {a b : List (List Byte)} (h : EncodesFrom s t p a)
    (h' : EncodesFrom t u q b) : EncodesFrom s u (p ++ q) (a ++ b) := fun elide r => by
  rw [List.append_assoc, h, h', List.append_assoc]

/-! ### The two states an ENC command completes in -/

@[simp] theorem pending_length (s : State) : s.pending.length = s.enc.run.toNat := by simp [State.pending]

/-- The block of the run, in the words of `blocksFrom`. -/
theorem runBlock_eq (s : State) : s.runBlock = lengthByte s.pending.length :: s.pending := by
  simp [State.runBlock, lengthByte]

theorem byteStored_pending {d : Byte} (h : s.enc.run.toNat ≤ 253) : (byteStored d s).pending = s.pending ++ [d] := by
  calc (byteStored d s).pending
    _ = (buffered d s).bufBytes 0 (buffered d s).enc.run.toNat := pending_congr rfl rfl rfl
    _ = s.pending ++ [d] := by rw [buffered_run_toNat h, buffered_bufBytes]

theorem byteStored_ready {d : Byte} (h : EncReady s) (hr : s.enc.run.toNat < 253) : EncReady (byteStored d s) where
  healthy := h.healthy
  free := h.free
  inRange := (buffered_run_toNat (d := d) h.inRange).trans_le hr
  sinkOk := h.sinkOk

theorem byteStored_sent (d : Byte) (s : State) : EncSent s (byteStored d s) 1 [] := by
  constructor <;> simp [byteStored]

theorem State.SinkOk.sinkTake (h : s.SinkOk) (c sent : List Byte) : (sinkTake c sent s).SinkOk :=
  fun a ha => h a (List.mem_of_mem_tail ha)

theorem blockSent_pending (full : Bool) (c : List Byte) (s : State) : (blockSent full c s).pending = [] :=
  pending_zero rfl

theorem blockSent_ready (full : Bool) (c : List Byte) (hf : s.enc.fault = false) (hw : s.enc.waiting = none)
    (hs : s.SinkOk) : EncReady (blockSent full c s) where
  healthy := hf
  free := hw
  inRange := Nat.zero_le _
  sinkOk := hs.sinkTake c c

theorem blockSent_sent (full : Bool) (c : List Byte) (s : State) : EncSent s (blockSent full c s) 1 [c] := by
  constructor <;> simp [blockSent]

theorem EncSent.of_buffered {d : Byte} {n : Nat} {a : List (List Byte)} (h : EncSent (buffered d s) t n a) :
    EncSent s t n a :=
  ⟨h.wireTx, h.sinkChunks, h.encStatus, h.dec, h.decResults, h.cfg⟩

/-! ### One command -/

/-- ENC.WRITE computes one round of the loop of R90: its three branches are those of `blocksFrom`. -/
theorem exec_encWrite_encodes (b : Byte) (h : EncReady s) :
    ∃ t chunks, exec (.encWrite b) s = .next t ∧ EncReady t ∧ EncSent s t 1 chunks ∧
      EncodesFrom s t [b] chunks := by
  by_cases hb : b = sentinel
  · subst hb
    refine ⟨blockSent false s.runBlock s, [s.runBlock], ?_, blockSent_ready _ _ h.healthy h.free h.sinkOk,
      blockSent_sent .., fun elide q => ?_⟩
    · rw [exec_encWrite_sentinel h.healthy h.free h.inRange, emit_finishOk _ _ h.sinkOk.next]
    · rw [blockSent_pending, runBlock_eq]
      simp [blocksFrom, blockSent]
  rcases h.inRange.lt_or_eq with hr | hr
  · refine ⟨byteStored b s, [], exec_encWrite_short h.healthy h.free hb hr, byteStored_ready h hr,
      byteStored_sent b s, fun elide q => ?_⟩
    have hlen : s.enc.run.toNat + 1 ≠ runMax := by simp only [runMax]; omega
    rw [byteStored_pending h.inRange]
    simp [blocksFrom, hb, hlen, byteStored]
  · refine ⟨blockSent true (fullLength :: (s.pending ++ [b])) (buffered b s), [fullLength :: (s.pending ++ [b])], ?_,
      blockSent_ready _ _ h.healthy h.free h.sinkOk, (blockSent_sent ..).of_buffered, fun elide q => ?_⟩
    · rw [exec_encWrite_full h.healthy h.free hb hr]
      exact emit_finishOk _ _ h.sinkOk.next
    · rw [blockSent_pending]
      simp [blocksFrom, hb, hr, blockSent]

/-- ENC.END of a unit that accepts it is FinalBlock (R95). -/
theorem exec_encEnd_healthy (hf : s.enc.fault = false) (hw : s.enc.waiting = none) :
    exec .encEnd s = finalBlock (finishOk false) s := requireHealthy_healthy hf hw

/-- What the loop of R90 answers at the end of the payload: the block of the run, unless it is elided (R96). -/
theorem blocksFrom_end (s : State) : blocksFrom s.cfg.elideEmptyFinal s.pending s.enc.lastFull [] =
    if finalBlockElided s.cfg s.enc then [] else [s.runBlock] := by
  rw [runBlock_eq]
  rfl

/-- ENC.END hands over what the loop of R90 answers at the end of the payload (R96). -/
theorem exec_encEnd_encodes (h : EncReady s) :
    ∃ t, exec .encEnd s = .next t ∧ t.enc.FrameStart ∧
      EncSent s t 1 (blocksFrom s.cfg.elideEmptyFinal s.pending s.enc.lastFull []) := by
  rw [exec_encEnd_healthy h.healthy h.free, blocksFrom_end]
  cases he : finalBlockElided s.cfg s.enc with
  | true =>
    refine ⟨_, finalBlock_elided he, ⟨rfl, rfl, h.healthy, h.free⟩, ?_⟩
    constructor <;> simp
  | false =>
    refine ⟨blockSent false s.runBlock s, ?_, ⟨rfl, rfl, h.healthy, h.free⟩, blockSent_sent ..⟩
    rw [finalBlock_emitted he (h.inRange.trans (by decide)), emit_finishOk _ _ h.sinkOk.next]

/-! ### A payload -/

/-- ENC.WRITE of each byte of a payload computes the loop of R90 over it. -/
theorem run_encWriteV_encodes (p : List Byte) {rest : List Input} (h : EncReady s)
    (hi : s.inputs = present (encWriteV p) ++ rest) :
    ∃ t chunks, Sys2Proof.core.run p.length s = .next t ∧ t.inputs = rest ∧ EncReady t ∧
      EncSent s t p.length chunks ∧ EncodesFrom s t p chunks := by
  induction p generalizing s with
  | nil => exact ⟨s, [], rfl, hi, h, .refl s, .refl s⟩
  | cons b p ih =>
    obtain ⟨u, a, hexec, hReady, hSent, hEnc⟩ :=
      exec_encWrite_encodes b (h.withInputs (present (encWriteV p) ++ rest))
    obtain ⟨t, c, hrun, hrest, hReady', hSent', hEnc'⟩ := ih hReady (exec_inputs hexec)
    rw [List.length_cons, Nat.add_comm]
    exact ⟨t, a ++ c, (run_append (run_one_of_exec hi hexec)).trans hrun, hrest, hReady',
      hSent.of_withInputs.trans hSent', hEnc.of_withInputs.trans hEnc'⟩

/-- A frame-start unit with a Sink that answers `ok` accepts a command, and nothing is pending in it. -/
theorem EncUnit.FrameStart.ready (h : s.enc.FrameStart) (hs : s.SinkOk) :
    EncReady s ∧ s.pending = [] ∧ s.enc.lastFull = false := by
  obtain ⟨hrun, hlast, hfault, hwait⟩ := h
  exact ⟨⟨hfault, hwait, by simp [hrun], hs⟩, pending_zero hrun, hlast⟩

/-- From a frame start, the chunks of a payload's bytes and the rest of the loop are the blocks of the payload. -/
theorem EncodesFrom.cobsBlocks_eq {p : List Byte} {chunks : List (List Byte)} (h : EncodesFrom s t p chunks)
    (hp : s.pending = []) (hl : s.enc.lastFull = false) (elide : Bool) :
    cobsBlocks elide p = chunks ++ blocksFrom elide t.pending t.enc.lastFull [] := by
  have := h elide []
  rwa [List.append_nil, hp, hl] at this

/-- Settles O51: the bytes hand over the blocks of the loop of R90, ENC.END what it answers at the end, which is one
block where none is elided. -/
theorem encUnitComputesEncode : Obligations.EncUnitComputesEncode := by
  intro s p rest hStart hSink hi
  obtain ⟨hReady, hpend, hlast⟩ := hStart.ready hSink
  have hsplit : present (encEncode p) ++ rest = present (encWriteV p) ++ .command (encode .encEnd) :: rest := by
    simp [present, encEncode]
  obtain ⟨u, chunks, hrun, hrest, hReady', hSent, hEnc⟩ := run_encWriteV_encodes p hReady (hi.trans hsplit)
  have hblocks := hEnc.cobsBlocks_eq hpend hlast
  refine ⟨?_, u, hrun, ?_⟩
  · obtain ⟨t, hexec, hFrame, hEnd⟩ := exec_encEnd_encodes (hReady'.withInputs rest)
    have hAll : EncSent s t (p.length + 1) (cobsBlocks s.cfg.elideEmptyFinal p) := by
      rw [hblocks, ← hSent.cfg, ← pending_withInputs u rest]
      exact hSent.trans hEnd.of_withInputs
    exact ⟨t, (run_append hrun).trans (run_one_of_exec hrest hexec), hAll.wireTx, hAll.sinkChunks, hAll.encStatus,
      hFrame, hAll.dec, hAll.decResults, exec_inputs hexec⟩
  · rw [hSent.sinkChunks, hblocks]
    simp [blocksFrom]

end Sys2Proof.Machine
end

