-- ==== Sys2Proof/Proofs/DecByte.lean ====
section
/-! What one frame byte does in each phase of DEC (41_decode_transform.md R112 to R115), when its append is refused
(R119), what the end of the frame body reports (R116), and the phase each operation leaves (R123). -/

namespace Sys2Proof.Machine

variable {s t : State} {d : Byte}

/-! ### The phase of a frame byte and of its append -/

theorem takeFrameByte_discard (d : Byte) (h : s.dec.phase = .discard) : takeFrameByte d s = .next s := by
  simp [takeFrameByte, h]

theorem takeFrameByte_inLiterals (d : Byte) (h : s.dec.phase = .inLiterals) :
    takeFrameByte d s = takeLiteral d s := by
  simp [takeFrameByte, h]

theorem takeFrameByte_sentinel (h : s.dec.phase = .atLength) : takeFrameByte sentinel s = .next (latchBad s) := by
  simp [takeFrameByte, h]

theorem takeFrameByte_length (h : s.dec.phase = .atLength) (hd : d ≠ sentinel) :
    takeFrameByte d s = takeLength d s := by
  simp [takeFrameByte, h, hd]

theorem takeLiteral_room (d : Byte) (h : outHasRoom s = true) : takeLiteral d s = .next (literalTaken d s) := if_pos h

theorem takeLiteral_full (d : Byte) (h : outHasRoom s = false) : takeLiteral d s = .refused .decOutCapacity := by
  simp [takeLiteral, h]

theorem takeLength_room (d : Byte) (hp : s.dec.pend = true) (h : outHasRoom s = true) :
    takeLength d s = .next (loadLength d (appendOut sentinel s)) := by
  simp [takeLength, hp, h]

theorem takeLength_full (d : Byte) (hp : s.dec.pend = true) (h : outHasRoom s = false) :
    takeLength d s = .refused .decOutCapacity := by
  simp [takeLength, hp, h]

theorem takeLength_nothingPending (d : Byte) (hp : s.dec.pend = false) : takeLength d s = .next (loadLength d s) := by
  simp [takeLength, hp]

theorem outHasRoom_full {cap : Nat} (hc : s.cfg.decOutCap = some cap) (h : cap < s.dec.out.length + 1) :
    outHasRoom s = false := by
  simpa [outHasRoom, hc] using h

@[simp] theorem literalTaken_dec (d : Byte) (s : State) : (literalTaken d s).dec =
    { s.dec with rem := BitVec.ofNat 8 (s.dec.rem.toNat - 1), out := s.dec.out ++ [d] } := rfl

theorem atLength_of_rem_zero (hb : s.dec.bad = false) (hr : s.dec.rem = 0#8) : s.dec.phase = .atLength :=
  phase_atLength.2 ⟨hb, by simp [hr]⟩

/-! ### The operations, where DEC does not wait for the Source -/

theorem exec_decByte_free (d : Byte) (h : s.dec.waiting = false) : exec (.decByte d) s = takeFrameByte d s :=
  execDecByte_free d h

/-- DEC.BYTE that answers a next state found no pull outstanding and took its frame byte. -/
theorem exec_decByte_cases (h : exec (.decByte d) s = .next t) :
    s.dec.waiting = false ∧ takeFrameByte d s = .next t := requireNoPull_cases h

theorem exec_decByte_completes (d : Byte) (hr : outHasRoom s = true) (hw : s.dec.waiting = false) :
    ∃ t, exec (.decByte d) s = .next t := by
  rw [exec_decByte_free d hw]
  exact takeFrameByte_completes d hr

theorem exec_decEnd_free (h : s.dec.waiting = false) : exec .decEnd s = .next (completeFrame s) := execDecEnd_free h

/-- RX.BYTE of a byte other than 0x00 answers the pull with a frame byte (R151). -/
theorem exec_rxByte_of_ne (s : State) (hd : d ≠ sentinel) : exec (.rxByte d) s = takeFrameByte d (answerPull s) := by
  simp [exec, execRxByte, hd]

/-- Settles O30: the byte is taken as a length byte, whose three cases are a pending sentinel that fits, one that does
not, and none. -/
theorem decByteTakesALengthByte : Obligations.DecByteTakesALengthByte := by
  intro s d hw hb hr hd
  rw [exec_decByte_free d hw, takeFrameByte_length (atLength_of_rem_zero hb hr) hd]
  refine ⟨fun hp hroom => ?_, fun cap hp hc hlt => ?_, fun hp => ?_⟩
  · rw [takeLength_room d hp ((outHasRoom_iff s).2 hroom)]
    simp [loadLength, appendOut, litCount, pendAfterLength, impliesSentinel, hb, hw]
  · exact takeLength_full d hp (outHasRoom_full hc hlt)
  · rw [takeLength_nothingPending d hp]
    simp [loadLength, litCount, pendAfterLength, impliesSentinel, hb, hw]

/-- Settles O31: the byte is taken as a literal byte, which fits or does not. -/
theorem decByteCopiesALiteralByte : Obligations.DecByteCopiesALiteralByte := by
  intro s d hw hb hr
  rw [exec_decByte_free d hw, takeFrameByte_inLiterals d (phase_inLiterals.2 ⟨hb, hr⟩)]
  refine ⟨fun hroom => ?_, fun cap hc hlt => ?_⟩
  · rw [takeLiteral_room d ((outHasRoom_iff s).2 hroom)]
    simp [literalTaken, appendOut, hb, hw]
  · exact takeLiteral_full d (outHasRoom_full hc hlt)

/-- Settles O32: the latch is the phase DISCARD, and 0x00 at a length position sets it. -/
theorem decByteLatchesMalformedFrame : Obligations.DecByteLatchesMalformedFrame := by
  intro s d hw
  rw [exec_decByte_free d hw]
  refine ⟨fun hb => takeFrameByte_discard d (phase_discard.2 hb), fun hb hr hd => ?_⟩
  rw [hd, takeFrameByte_sentinel (atLength_of_rem_zero hb hr), latchBad]

/-- Settles O34: DEC.END is `completeFrame`, whose result is read off the latch, then the count. -/
theorem decEndReportsTheFrame : Obligations.DecEndReportsTheFrame := by
  intro s hw
  rw [exec_decEnd_free hw]
  rfl

/-! ### A frame byte that appends -/

/-- The frame byte `d` makes `dec_out` longer: it resolves a pending sentinel, or it is a literal byte (R113, R114). -/
def DecUnit.Appends (u : DecUnit) (d : Byte) : Prop :=
  u.bad = false ∧ ((u.rem = 0#8 ∧ u.pend = true ∧ d ≠ sentinel) ∨ 0 < u.rem.toNat)

theorem takeFrameByte_full (h : s.dec.Appends d) (hr : outHasRoom s = false) :
    takeFrameByte d s = .refused .decOutCapacity := by
  obtain ⟨hb, ⟨hz, hp, hd⟩ | hpos⟩ := h
  · rw [takeFrameByte_length (atLength_of_rem_zero hb hz) hd, takeLength_full d hp hr]
  · rw [takeFrameByte_inLiterals d (phase_inLiterals.2 ⟨hb, hpos⟩), takeLiteral_full d hr]

theorem takeFrameByte_room (h : s.dec.Appends d) (hr : outHasRoom s = true) :
    ∃ t, takeFrameByte d s = .next t ∧ t.dec.out.length = s.dec.out.length + 1 := by
  obtain ⟨hb, ⟨hz, hp, hd⟩ | hpos⟩ := h
  · rw [takeFrameByte_length (atLength_of_rem_zero hb hz) hd, takeLength_room d hp hr]
    exact ⟨_, rfl, by simp⟩
  · rw [takeFrameByte_inLiterals d (phase_inLiterals.2 ⟨hb, hpos⟩), takeLiteral_room d hr]
    exact ⟨_, rfl, by simp⟩

/-- Settles O33: DEC.BYTE, and RX.BYTE of a byte other than 0x00, take the same frame byte, which appends; the
capacity decides. -/
theorem appendPastTheCapacityIsRefused : Obligations.AppendPastTheCapacityIsRefused := by
  intro s d hb happ
  have hs : s.dec.Appends d := ⟨hb, happ⟩
  have ha : (answerPull s).dec.Appends d := hs
  refine ⟨fun cap hc hlt => ⟨fun hw => ?_, fun hd => ?_⟩, fun hc => ⟨fun hw => ?_, fun hd => ?_⟩⟩
  · rw [exec_decByte_free d hw]
    exact takeFrameByte_full hs (outHasRoom_full hc hlt)
  · rw [exec_rxByte_of_ne s hd]
    exact takeFrameByte_full ha (outHasRoom_full hc hlt)
  · rw [exec_decByte_free d hw]
    exact takeFrameByte_room hs (outHasRoom_of_unbounded hc)
  · rw [exec_rxByte_of_ne s hd]
    exact takeFrameByte_room ha (outHasRoom_of_unbounded hc)

/-! ### The phase after an operation -/

/-- The literal count of a length byte fits `dec_rem` (R124). -/
theorem toNat_ofNat_litCount (l : Byte) : (BitVec.ofNat 8 (litCount l)).toNat = litCount l := by
  have := l.isLt
  simp only [litCount, BitVec.toNat_ofNat]
  omega

/-- Counting a literal byte down does not wrap (R124). -/
theorem toNat_ofNat_pred (r : BitVec 8) : (BitVec.ofNat 8 (r.toNat - 1)).toNat = r.toNat - 1 := by
  have := r.isLt
  simp only [BitVec.toNat_ofNat]
  omega

/-- What a length byte that is taken leaves of the latch and the count. -/
theorem takeFrameByte_length_rem (hp : s.dec.phase = .atLength) (hd : d ≠ sentinel)
    (h : takeFrameByte d s = .next t) : t.dec.bad = false ∧ t.dec.rem.toNat = d.toNat - 1 := by
  have hb := (phase_atLength.1 hp).1
  rcases takeFrameByte_cases h with ⟨hq, -⟩ | ⟨hq, -⟩ | ⟨-, hs, -⟩ | ⟨-, -, -, -, rfl⟩ | ⟨-, -, -, rfl⟩
  · simp [hp] at hq
  · simp [hp] at hq
  · exact absurd hs hd
  · exact ⟨hb, toNat_ofNat_litCount d⟩
  · exact ⟨hb, toNat_ofNat_litCount d⟩

/-- What a literal byte that is taken leaves of the latch and the count. -/
theorem takeFrameByte_literal_rem (hp : s.dec.phase = .inLiterals) (h : takeFrameByte d s = .next t) :
    t.dec.bad = false ∧ t.dec.rem.toNat = s.dec.rem.toNat - 1 := by
  have hb := (phase_inLiterals.1 hp).1
  rcases takeFrameByte_cases h with ⟨hq, -⟩ | ⟨-, -, rfl⟩ | ⟨hq, -⟩ | ⟨hq, -⟩ | ⟨hq, -⟩
  · simp [hp] at hq
  · exact ⟨hb, toNat_ofNat_pred _⟩
  all_goals simp [hp] at hq

/-- The rows of R123 for a frame byte that is taken. -/
theorem takeFrameByte_phase (h : takeFrameByte d s = .next t) :
    (s.dec.phase = .atLength → d = 0x01#8 → t.dec.phase = .atLength) ∧
    (s.dec.phase = .atLength → 2 ≤ d.toNat → t.dec.phase = .inLiterals ∧ t.dec.rem.toNat = d.toNat - 1) ∧
    (s.dec.phase = .atLength → d = sentinel → t.dec.phase = .discard) ∧
    (s.dec.phase = .inLiterals → 1 < s.dec.rem.toNat → t.dec.phase = .inLiterals) ∧
    (s.dec.phase = .inLiterals → s.dec.rem.toNat = 1 → t.dec.phase = .atLength) ∧
    (s.dec.phase = .discard → t.dec.phase = .discard) := by
  refine ⟨fun hp hd => ?_, fun hp hd => ?_, fun hp hd => ?_, fun hp hr => ?_, fun hp hr => ?_, fun hp => ?_⟩
  · obtain ⟨hb, hrem⟩ := takeFrameByte_length_rem hp (by simp [hd]) h
    exact phase_atLength.2 ⟨hb, by simp [hrem, hd]⟩
  · obtain ⟨hb, hrem⟩ := takeFrameByte_length_rem hp (by rintro rfl; simp at hd) h
    exact ⟨phase_inLiterals.2 ⟨hb, by omega⟩, hrem⟩
  · rw [hd, takeFrameByte_sentinel hp] at h
    obtain rfl := Host.Outcome.next.inj h
    exact phase_discard.2 rfl
  · obtain ⟨hb, hrem⟩ := takeFrameByte_literal_rem hp h
    exact phase_inLiterals.2 ⟨hb, by omega⟩
  · obtain ⟨hb, hrem⟩ := takeFrameByte_literal_rem hp h
    exact phase_atLength.2 ⟨hb, by omega⟩
  · rw [takeFrameByte_discard d hp] at h
    obtain rfl := Host.Outcome.next.inj h
    exact hp

theorem phase_frameStart : DecUnit.frameStart.phase = .atLength := by decide

/-- Settles O41: a frame byte moves the phase by `takeFrameByte_phase`, an answered pull being no part of it, and every
operation that ends or abandons an attempt leaves the frame-start unit. -/
theorem decoderPhaseTransitions : Obligations.DecoderPhaseTransitions := by
  intro s t i h
  refine ⟨fun d hi => ?_, fun hi => ?_⟩
  · have hbyte : takeFrameByte d (answerPull s) = .next t := by
      rcases hi with rfl | ⟨rfl, hd⟩
      · obtain ⟨hw, h⟩ := exec_decByte_cases h
        rwa [answerPull_free hw]
      · rwa [exec_rxByte_of_ne s hd] at h
    exact takeFrameByte_phase (s := answerPull s) hbyte
  · have hport : i.port = .dec := by rcases hi with rfl | rfl | rfl | ⟨e, rfl⟩ | rfl <;> rfl
    have hdec : t.dec = DecUnit.frameStart := by
      cases decRun_of_exec hport h with
      | byte d _ hb =>
        rcases hb with ⟨rfl, -⟩ | ⟨rfl, hd⟩
        · simp at hi
        · exact absurd (by simpa using hi) hd
      | complete => rfl
      | eof => rfl
      | err => rfl
      | reset => rfl
    exact ⟨hdec, hdec ▸ phase_frameStart⟩

end Sys2Proof.Machine
end

