-- ==== Sys2Proof/Proofs/DecodeRefinement.lean ====
section
/-! The decoder unit against the function it computes a byte at a time (41_decode_transform.md R117): `decodeRest` is
the result still to come, as the loop of R110 has it in the middle of a block; a frame byte does not change it, and the
end of the frame reports it. -/

namespace Sys2Proof.Machine

variable {s t u : State}

/-! ### Runs of presented commands -/

/-- A run whose first command answers a next state goes on from there. -/
theorem run_cons {i : Instr} {rest : List Input} {n : Nat} (hi : s.inputs = .command (encode i) :: rest)
    (h : exec i { s with inputs := rest } = .next u) :
    Sys2Proof.core.run (n + 1) s = Sys2Proof.core.run n u := by
  rw [Nat.add_comm]
  exact run_append (run_one_of_exec hi h)

/-- Where all that is presented waits for the first command, a run that ends in a next state ran it. -/
theorem exec_of_run_cons {i : Instr} {rest : List Input} {n : Nat} (hi : s.inputs = .command (encode i) :: rest)
    (hr : ∀ y ∈ rest, Input.waitsFor s y (.command (encode i)) = true)
    (h : Sys2Proof.core.run (n + 1) s = .next t) :
    ∃ u, exec i { s with inputs := rest } = .next u ∧ Sys2Proof.core.run n u = .next t := by
  by_cases hu : ∃ u, exec i { s with inputs := rest } = .next u
  · obtain ⟨u, hu⟩ := hu
    exact ⟨u, hu, run_cons hi hu ▸ h⟩
  · have hn : ∀ v, takeInput (.command (encode i)) { s with inputs := rest } ≠ .next v := fun v hv =>
      hu ⟨v, takeInput_encode i _ ▸ hv⟩
    have hstep : ∀ v, Sys2Proof.core.step s ≠ .next v := fun v hv => hn v (step_stuck hi hr hn ▸ hv)
    simp only [Host.Core.run] at h
    split at h
    · next v hv => exact absurd hv (hstep v)
    · cases h
    · cases h

/-- With no pull outstanding, a command waits for every earlier one on its port. -/
theorem waitsFor_of_present {i : Instr} {is : List Instr} (hw : s.dec.waiting = false)
    (h : ∀ j ∈ is, j.port = i.port) : ∀ y ∈ present is, Input.waitsFor s y (.command (encode i)) = true := by
  intro y hy
  obtain ⟨j, hj, rfl⟩ := List.mem_map.1 hy
  rw [Input.waitsFor_free hw]
  simp [Input.sameUnit, Input.unit?, encode, h j hj]

theorem decDecode_port {f : List Byte} : ∀ j ∈ decDecode f, j.port = .dec := by
  intro j hj
  simp only [decDecode, List.mem_append, List.mem_map, List.mem_singleton] at hj
  rcases hj with ⟨d, -, rfl⟩ | rfl <;> rfl

/-! ### The function in the middle of a block -/

@[simp] theorem decodeFrom_nil (n : Nat) (out : List Byte) : decodeFrom n out [] = .ok out := by cases n <;> rfl

/-- Any fuel that is enough gives the same result: every block has at least one byte. -/
theorem decodeFrom_fuel {m n : Nat} {out f : List Byte} (hm : f.length ≤ m) (hn : f.length ≤ n) :
    decodeFrom m out f = decodeFrom n out f := by
  induction m generalizing n out f with
  | zero => simp [List.eq_nil_of_length_eq_zero (Nat.le_zero.1 hm)]
  | succ m ih =>
    match n, f with
    | n, [] => simp
    | n + 1, l :: rest =>
      simp only [List.length_cons, Nat.add_le_add_iff_right] at hm hn
      have hdrop : (rest.drop (litCount l)).length ≤ rest.length := by simp
      simp only [decodeFrom, ih (hdrop.trans hm) (hdrop.trans hn)]

/-- The result still to come in a unit whose frame goes on with the bytes `f`: the latch, else the literals of the
current block, the deferred sentinel if a block follows (step 5 of R110), and the loop from there. -/
def DecUnit.decodeRest (u : DecUnit) (f : List Byte) : DecResult :=
  if u.bad then .err .malformedFrame
  else if f.length < u.rem.toNat then .err .unexpectedEof
  else
    decodeFrom f.length
      (u.out ++ f.take u.rem.toNat ++ (if u.pend && !(f.drop u.rem.toNat).isEmpty then [sentinel] else []))
      (f.drop u.rem.toNat)

theorem decodeRest_frameStart (f : List Byte) : DecUnit.frameStart.decodeRest f = cobsDecode f := by
  simp [DecUnit.decodeRest, DecUnit.frameStart, cobsDecode]

/-- With no bytes left, the result is the one the end of the frame reports. -/
theorem decodeRest_nil (u : DecUnit) : u.decodeRest [] = attemptResult u := by
  simp [DecUnit.decodeRest, attemptResult]

/-- A length byte starts a round of the loop of R110. -/
theorem decodeRest_loadLength {d : Byte} (hb : s.dec.bad = false) (hd : d ≠ sentinel) (f : List Byte) :
    (loadLength d s).dec.decodeRest f = decodeFrom (f.length + 1) s.dec.out (d :: f) := by
  simp [DecUnit.decodeRest, decodeFrom, hb, hd, toNat_ofNat_litCount, pendAfterLength, -BitVec.toNat_ofNat]

/-- A frame byte that is taken leaves the result to come as it was: it is the next byte of the loop of R110. -/
theorem decodeRest_of_takeFrameByte {d : Byte} (h : takeFrameByte d s = .next t) (f : List Byte) :
    t.dec.decodeRest f = s.dec.decodeRest (d :: f) := by
  rcases takeFrameByte_cases h with ⟨hp, rfl⟩ | ⟨hp, -, rfl⟩ | ⟨hp, rfl, rfl⟩ | ⟨hp, hd, hpend, -, rfl⟩ |
    ⟨hp, hd, hpend, rfl⟩
  · simp [DecUnit.decodeRest, phase_discard.1 hp]
  · obtain ⟨hb, hpos⟩ := phase_inLiterals.1 hp
    obtain ⟨r, hr⟩ : ∃ r, s.dec.rem.toNat = r + 1 := ⟨s.dec.rem.toNat - 1, by omega⟩
    have hrem : (literalTaken d s).dec.rem.toNat = r := by
      rw [literalTaken_dec, toNat_ofNat_pred, hr, Nat.add_sub_cancel]
    have hdrop : (f.drop r).length ≤ f.length := by simp
    have hfuel (out) : decodeFrom (f.length + 1) out (f.drop r) = decodeFrom f.length out (f.drop r) :=
      decodeFrom_fuel (Nat.le_succ_of_le hdrop) hdrop
    simp only [DecUnit.decodeRest, hrem, hr]
    simp [hb, hfuel]
  · obtain ⟨hb, hz⟩ := phase_atLength.1 hp
    simp [DecUnit.decodeRest, decodeFrom, hb, hz]
  · obtain ⟨hb, hz⟩ := phase_atLength.1 hp
    rw [decodeRest_loadLength (s := appendOut sentinel s) hb hd]
    simp [DecUnit.decodeRest, hb, hz, hpend]
  · obtain ⟨hb, hz⟩ := phase_atLength.1 hp
    rw [decodeRest_loadLength hb hd]
    simp [DecUnit.decodeRest, hb, hz, hpend]

/-! ### A frame -/

/-- The state once the rest `f` of a frame body and its end have been taken, `rest` still presented. -/
def frameDecoded (f : List Byte) (rest : List Input) (s : State) : State :=
  { s with
    dec := DecUnit.frameStart
    decResults := s.decResults ++ [s.dec.decodeRest f]
    inputs := rest }

/-- A frame byte that is taken leaves what the rest of the frame body comes to, and DEC free for it. -/
theorem frameDecoded_of_exec_decByte {d : Byte} {l : List Input}
    (h : exec (.decByte d) { s with inputs := l } = .next u) :
    u.dec.waiting = false ∧ u.inputs = l ∧ ∀ f rest, frameDecoded f rest u = frameDecoded (d :: f) rest s := by
  obtain ⟨hw, hbyte⟩ := exec_decByte_cases h
  have hframe := takeFrameByte_frame hbyte
  refine ⟨(takeFrameByte_waiting hbyte).trans hw, exec_inputs h, fun f rest => ?_⟩
  rw [frameDecoded, decodeRest_of_takeFrameByte hbyte f, hframe]
  rfl

/-- DEC.END at the end of the frame body ends the decoding. -/
theorem exec_decEnd_frameDecoded (hw : s.dec.waiting = false) (rest : List Input) :
    exec .decEnd { s with inputs := rest } = .next (frameDecoded [] rest s) := by
  rw [exec_decEnd_free (s := { s with inputs := rest }) hw, frameDecoded, decodeRest_nil]
  rfl

theorem frameDecoded_frameStart (h : s.dec = DecUnit.frameStart) (f : List Byte) (rest : List Input) :
    frameDecoded f rest s = { s with decResults := s.decResults ++ [cobsDecode f], inputs := rest } := by
  rw [frameDecoded, h, decodeRest_frameStart, ← h]

/-- DEC.DECODE presented alone: if it runs to its end, it ends the decoding. -/
theorem eq_frameDecoded_of_run (f : List Byte) (hw : s.dec.waiting = false) (hi : s.inputs = present (decDecode f))
    (h : Sys2Proof.core.run (f.length + 1) s = .next t) : t = frameDecoded f [] s := by
  induction f generalizing s with
  | nil =>
    have hrun := (run_cons (n := 0) hi (exec_decEnd_frameDecoded hw [])).symm.trans h
    exact (Host.Outcome.next.inj hrun).symm
  | cons d f ih =>
    obtain ⟨u, hu, hrun⟩ := exec_of_run_cons hi (waitsFor_of_present hw decDecode_port) h
    obtain ⟨hw', hi', hdec⟩ := frameDecoded_of_exec_decByte hu
    rw [ih hw' hi' hrun, hdec]

/-- A frame byte appends at most one byte, and the capacity stays. -/
theorem exec_decByte_out_length {d : Byte} {l : List Input}
    (h : exec (.decByte d) { s with inputs := l } = .next u) :
    u.dec.out.length ≤ s.dec.out.length + 1 ∧ u.cfg = s.cfg := by
  rcases takeFrameByte_cases (exec_decByte_cases h).2 with
    ⟨-, rfl⟩ | ⟨-, -, rfl⟩ | ⟨-, -, rfl⟩ | ⟨-, -, -, -, rfl⟩ | ⟨-, -, -, rfl⟩ <;> exact ⟨by simp, rfl⟩

/-- DEC.DECODE with room for each of its bytes runs to its end, whatever is presented behind it. -/
theorem run_decDecode (f : List Byte) {rest : List Input} (hw : s.dec.waiting = false)
    (hi : s.inputs = present (decDecode f) ++ rest)
    (hcap : ∀ cap, s.cfg.decOutCap = some cap → s.dec.out.length + f.length ≤ cap) :
    Sys2Proof.core.run (f.length + 1) s = .next (frameDecoded f rest s) := by
  induction f generalizing s with
  | nil => exact run_cons hi (exec_decEnd_frameDecoded hw rest)
  | cons d f ih =>
    have hroom : outHasRoom { s with inputs := present (decDecode f) ++ rest } = true :=
      (outHasRoom_iff _).2 fun cap hc => by
        have := hcap cap hc
        simp only [List.length_cons] at this
        simp only
        omega
    obtain ⟨u, hu⟩ := exec_decByte_completes d hroom hw
    obtain ⟨hw', hi', hdec⟩ := frameDecoded_of_exec_decByte hu
    obtain ⟨hout, hcfg⟩ := exec_decByte_out_length hu
    have hcap' : ∀ cap, u.cfg.decOutCap = some cap → u.dec.out.length + f.length ≤ cap := fun cap hc => by
      have := hcap cap (hcfg ▸ hc)
      simp only [List.length_cons] at this
      omega
    rw [List.length_cons, run_cons hi hu, ih hw' hi' hcap', hdec]

/-- Settles O54: at a frame start the result to come is that of the function, every frame byte keeps it, and DEC.END
reports it; alone, a command that is not taken stops the run, and with the capacity each is taken. -/
theorem decUnitComputesDecode : Obligations.DecUnitComputesDecode := by
  intro s f hStart
  have hw : s.dec.waiting = false := by rw [hStart]; rfl
  refine ⟨fun t hi h => ?_, fun rest hi hcap => ?_⟩
  · rw [eq_frameDecoded_of_run f hw hi h, frameDecoded_frameStart hStart]
  · rw [run_decDecode f hw hi (by simpa [hStart, DecUnit.frameStart] using hcap), frameDecoded_frameStart hStart]

end Sys2Proof.Machine
end

