-- ==== Sys2Proof/Proofs/EncodedBlocks.lean ====
section
/-! The function `encode` block by block (40_encode_transform.md R90, R91): every block the loop emits is well-formed,
so an encoded payload has no 0x00, and the loop of `decode` (R110) undoes a block at a time. -/

namespace Sys2Proof

/-! ### Well-formed blocks -/

theorem Block.wf_cons {l : Byte} {lits : List Byte} :
    Block.wf (l :: lits) = true ↔ lits.length + 1 = l.toNat ∧ sentinel ∉ lits := by
  have hpos : lits.length + 1 = l.toNat → l ≠ sentinel := by
    rintro h rfl
    simp at h
  simp only [Block.wf, Bool.and_eq_true, bne_iff_ne, beq_iff_eq, List.all_eq_true]
  exact ⟨fun ⟨⟨_, hlen⟩, hlits⟩ => ⟨hlen, fun hmem => hlits _ hmem rfl⟩,
    fun ⟨hlen, hlits⟩ => ⟨⟨hpos hlen, hlen⟩, fun _ hb he => hlits (he ▸ hb)⟩⟩

/-- A well-formed block is one byte long at least, and that byte counts its bytes. -/
theorem Block.exists_cons_of_wf {b : List Byte} (h : Block.wf b = true) :
    ∃ l lits, b = l :: lits ∧ lits.length + 1 = l.toNat ∧ sentinel ∉ lits :=
  match b, h with
  | l :: lits, h => ⟨l, lits, rfl, Block.wf_cons.1 h⟩

theorem Block.sentinel_notMem {b : List Byte} (h : Block.wf b = true) : sentinel ∉ b := by
  obtain ⟨l, lits, rfl, hlen, hlits⟩ := Block.exists_cons_of_wf h
  have hl : l ≠ sentinel := by
    rintro rfl
    simp at hlen
  simp [hl.symm, hlits]

end Sys2Proof

namespace Sys2Proof.Machine

/-! ### The blocks of the loop of R90 -/

theorem toNat_lengthByte {n : Nat} (h : n ≤ runMax) : (lengthByte n).toNat = n + 1 := by
  simp only [runMax] at h
  simp only [lengthByte, BitVec.toNat_ofNat]
  omega

/-- A run of bytes other than 0x00 behind its length byte is a well-formed block. -/
theorem wf_lengthByte_cons {buf : List Byte} (hlen : buf.length ≤ runMax) (hbuf : sentinel ∉ buf) :
    Block.wf (lengthByte buf.length :: buf) = true :=
  Block.wf_cons.2 ⟨(toNat_lengthByte hlen).symm, hbuf⟩

/-- The full block is the block of a run of `runMax` bytes. -/
theorem fullLength_eq {buf : List Byte} (h : buf.length = runMax) : fullLength = lengthByte buf.length := by
  rw [h]
  rfl

/-- Every block the loop of R90 emits is well-formed (R91 (f)). -/
theorem wf_of_mem_blocksFrom {elide lastFull : Bool} {buf p b : List Byte} (hlen : buf.length < runMax)
    (hbuf : sentinel ∉ buf) (hb : b ∈ blocksFrom elide buf lastFull p) : Block.wf b = true := by
  induction p generalizing buf lastFull with
  | nil =>
    rw [blocksFrom] at hb
    split at hb
    · cases hb
    · exact List.mem_singleton.1 hb ▸ wf_lengthByte_cons hlen.le hbuf
  | cons d p ih =>
    rw [blocksFrom] at hb
    have hpush (hd : d ≠ sentinel) : sentinel ∉ buf ++ [d] := by simp [hbuf, hd.symm]
    split at hb
    · rcases List.mem_cons.1 hb with rfl | hb
      · exact wf_lengthByte_cons hlen.le hbuf
      · exact ih (by decide) List.not_mem_nil hb
    · next hd =>
      split at hb
      · next hfull =>
        have hfull : (buf ++ [d]).length = runMax := by simpa using hfull
        rcases List.mem_cons.1 hb with rfl | hb
        · rw [fullLength_eq hfull]
          exact wf_lengthByte_cons hfull.le (hpush hd)
        · exact ih (by decide) List.not_mem_nil hb
      · next hshort =>
        have hlen' : (buf ++ [d]).length < runMax := by simp; omega
        exact ih hlen' (hpush hd) hb

theorem wf_of_mem_cobsBlocks {elide : Bool} {p b : List Byte} (hb : b ∈ cobsBlocks elide p) : Block.wf b = true :=
  wf_of_mem_blocksFrom (by decide) (by decide) hb

/-- An encoded payload has no 0x00 (R91 (b)). -/
theorem sentinel_notMem_cobsEncode (elide : Bool) (p : List Byte) : sentinel ∉ cobsEncode elide p := by
  intro h
  obtain ⟨b, hb, hmem⟩ := List.mem_flatten.1 h
  exact Block.sentinel_notMem (wf_of_mem_cobsBlocks hb) hmem

/-! ### Decoding block by block -/

/-- One round of the loop of R110 over a block: its literals, and the deferred 0x00 if the block is not full and
another follows. -/
theorem decodeFrom_block {l : Byte} {lits : List Byte} (hl : lits.length + 1 = l.toNat) (out f : List Byte) :
    decodeFrom (l :: lits ++ f).length out (l :: lits ++ f) =
      decodeFrom f.length (out ++ lits ++ if impliesSentinel l && !f.isEmpty then [sentinel] else []) f := by
  have hne : l ≠ sentinel := by
    rintro rfl
    simp at hl
  have hcount : litCount l = lits.length := by simp [litCount, ← hl]
  rw [List.cons_append, List.length_cons, decodeFrom, if_neg hne, hcount, if_neg (by simp)]
  simp only [List.take_left, List.drop_left]
  exact decodeFrom_fuel (by simp) le_rfl

/-- There are bytes to come unless the last block was full (R96). -/
theorem isEmpty_flatten_blocksFrom (elide : Bool) (buf p : List Byte) :
    (blocksFrom elide buf false p).flatten.isEmpty = false := by
  induction p generalizing buf with
  | nil => simp [blocksFrom]
  | cons d p ih =>
    rw [blocksFrom]
    split
    · simp
    · split
      · simp
      · exact ih _

/-- The loop of R110 over the blocks the loop of R90 has still to emit gives back the pending bytes and the payload. -/
theorem decodeFrom_blocksFrom (elide : Bool) {lastFull : Bool} {buf : List Byte} (p out : List Byte)
    (hlen : buf.length < runMax) (hlast : lastFull = true → buf = []) :
    decodeFrom (blocksFrom elide buf lastFull p).flatten.length out (blocksFrom elide buf lastFull p).flatten =
      .ok (out ++ buf ++ p) := by
  induction p generalizing buf lastFull out with
  | nil =>
    rw [blocksFrom]
    split
    · next he =>
      rw [Bool.and_eq_true] at he
      simp [hlast he.2]
    · rw [List.flatten_singleton, ← List.append_nil (_ :: buf), decodeFrom_block (toNat_lengthByte hlen.le).symm]
      simp
  | cons d p ih =>
    rw [blocksFrom]
    split
    · next hd =>
      have hshort : impliesSentinel (lengthByte buf.length) = true := by
        rw [impliesSentinel, toNat_lengthByte hlen.le]
        simp only [runMax] at hlen
        exact decide_eq_true (by omega)
      rw [List.flatten_cons, decodeFrom_block (toNat_lengthByte hlen.le).symm,
        ih (buf := []) _ (by decide) Bool.noConfusion]
      rw [hshort, isEmpty_flatten_blocksFrom, hd]
      simp
    · split
      · next hfull =>
        rw [List.flatten_cons, decodeFrom_block (by simpa [runMax] using hfull), ih _ (by decide) fun _ => rfl]
        simp [impliesSentinel]
      · have hlen' : (buf ++ [d]).length < runMax := by simp; omega
        rw [ih (buf := buf ++ [d]) _ hlen' Bool.noConfusion]
        simp

/-- Decoding an encoded payload gives the payload back (R91, 41_decode_transform.md R110). -/
theorem cobsDecode_cobsEncode (elide : Bool) (p : List Byte) : cobsDecode (cobsEncode elide p) = .ok p :=
  decodeFrom_blocksFrom elide p [] (by decide) Bool.noConfusion

end Sys2Proof.Machine
end

