-- ==== Sys2Proof/Proofs/EncodedFrames.lean ====
section
/-! The streaming encoder (42_streaming_encoder.md): ENC.FINISH hands over what is left of the payload and the delimiter
(R131), so a run of ENC.FRAMEs puts the encoded payloads on the wire, each behind it one 0x00 (R135); and what a faulted
unit accepts (R133). -/

namespace Sys2Proof.Machine

variable {s t : State}

/-- Settles O18: the three commands require health, and ENC.RESET only that no `SinkWrite` is outstanding. -/
theorem faultedEncoderAcceptsOnlyReset : Obligations.FaultedEncoderAcceptsOnlyReset := by
  intro s hf
  exact ⟨fun _ => requireHealthy_faulted hf, requireHealthy_faulted hf, requireHealthy_faulted hf,
    fun hw => ⟨_, exec_encReset_free hw, by simp⟩⟩

/-! ### A frame as bytes and as chunks -/

/-- A frame on the wire: the encoded payload and the delimiter (R70, R135). -/
def frameBytes (elide : Bool) (p : List Byte) : List Byte := cobsEncode elide p ++ [sentinel]

/-- The chunks a frame is handed over in (R131). -/
def frameChunks (elide : Bool) (p : List Byte) : List (List Byte) := cobsBlocks elide p ++ [[sentinel]]

theorem flatten_frameChunks (elide : Bool) (p : List Byte) : (frameChunks elide p).flatten = frameBytes elide p := by
  simp [frameChunks, frameBytes, cobsEncode]

theorem flatten_flatMap_frameChunks (elide : Bool) (ps : List (List Byte)) :
    (ps.flatMap (frameChunks elide)).flatten = ps.flatMap (frameBytes elide) := by
  induction ps with
  | nil => rfl
  | cons p ps ih => simp only [List.flatMap_cons, List.flatten_append, flatten_frameChunks, ih]

/-- The delimiter is the only 0x00 of a frame. -/
theorem count_sentinel_frameBytes (elide : Bool) (p : List Byte) : (frameBytes elide p).count sentinel = 1 := by
  rw [frameBytes, List.count_append, List.count_eq_zero.2 (sentinel_notMem_cobsEncode elide p)]
  rfl

/-! ### ENC.FINISH -/

/-- ENC.FINISH of a unit that accepts it is FinalBlock, then the delimiter (R131). -/
theorem exec_encFinish_healthy (hf : s.enc.fault = false) (hw : s.enc.waiting = none) :
    exec .encFinish s = finalBlock (emit [sentinel] (finishOk false)) s := requireHealthy_healthy hf hw

/-- A chunk the Sink took in the middle of an operation. -/
theorem sinkTake_sent (c : List Byte) (s : State) : EncSent s (sinkTake c c s) 0 [c] := by
  constructor <;> simp

theorem State.SinkOk.blockSent (h : s.SinkOk) (full : Bool) (c : List Byte) : (blockSent full c s).SinkOk :=
  h.sinkTake c c

/-- ENC.FINISH hands over what the loop of R90 answers at the end of the payload, then the delimiter. -/
theorem exec_encFinish_encodes (h : EncReady s) :
    ∃ t, exec .encFinish s = .next t ∧ t.enc.FrameStart ∧ t.SinkOk ∧
      EncSent s t 1 (blocksFrom s.cfg.elideEmptyFinal s.pending s.enc.lastFull [] ++ [[sentinel]]) := by
  rw [exec_encFinish_healthy h.healthy h.free, blocksFrom_end]
  cases he : finalBlockElided s.cfg s.enc with
  | true =>
    refine ⟨blockSent false [sentinel] s, ?_, ⟨rfl, rfl, h.healthy, h.free⟩, h.sinkOk.blockSent _ _, blockSent_sent ..⟩
    rw [finalBlock_elided he, emit_finishOk _ _ h.sinkOk.next]
  | false =>
    have hSink : (sinkTake s.runBlock s.runBlock s).SinkOk := h.sinkOk.sinkTake _ _
    refine ⟨blockSent false [sentinel] (sinkTake s.runBlock s.runBlock s), ?_, ⟨rfl, rfl, h.healthy, h.free⟩,
      hSink.blockSent _ _, (sinkTake_sent ..).trans (blockSent_sent ..)⟩
    rw [finalBlock_emitted he (h.inRange.trans (by decide)), emit_ok _ h.sinkOk.next, emit_finishOk _ _ hSink.next]

/-! ### ENC.FRAME -/

theorem present_append (a b : List Instr) : present (a ++ b) = present a ++ present b := List.map_append

@[simp] theorem encFrame_length (p : List Byte) : (encFrame p).length = p.length + 1 := by simp [encFrame, encWriteV]

/-- ENC.FRAME from a frame start hands over the chunks of its frame and ends at a frame start. -/
theorem run_encFrame (p : List Byte) {rest : List Input} (hStart : s.enc.FrameStart) (hSink : s.SinkOk)
    (hi : s.inputs = present (encFrame p) ++ rest) :
    ∃ t, Sys2Proof.core.run (encFrame p).length s = .next t ∧ t.inputs = rest ∧ t.enc.FrameStart ∧ t.SinkOk ∧
      EncSent s t (encFrame p).length (frameChunks s.cfg.elideEmptyFinal p) := by
  obtain ⟨hReady, hpend, hlast⟩ := hStart.ready hSink
  have hsplit : present (encFrame p) ++ rest = present (encWriteV p) ++ .command (encode .encFinish) :: rest := by
    simp [present, encFrame]
  obtain ⟨u, chunks, hrun, hrest, hReady', hSent, hEnc⟩ := run_encWriteV_encodes p hReady (hi.trans hsplit)
  obtain ⟨t, hexec, hFrame, hSink', hEnd⟩ := exec_encFinish_encodes (hReady'.withInputs rest)
  rw [encFrame_length]
  refine ⟨t, (run_append hrun).trans (run_one_of_exec hrest hexec), exec_inputs hexec, hFrame, hSink', ?_⟩
  rw [frameChunks, hEnc.cobsBlocks_eq hpend hlast, List.append_assoc, ← hSent.cfg, ← pending_withInputs u rest]
  exact hSent.trans hEnd.of_withInputs

/-- ENC.FRAME of each of a list of payloads hands over their frames one after another. -/
theorem run_encFrames (ps : List (List Byte)) {rest : List Input} (hStart : s.enc.FrameStart) (hSink : s.SinkOk)
    (hi : s.inputs = present (ps.flatMap encFrame) ++ rest) :
    ∃ t, Sys2Proof.core.run (ps.flatMap encFrame).length s = .next t ∧ t.inputs = rest ∧ t.enc.FrameStart ∧
      EncSent s t (ps.flatMap encFrame).length (ps.flatMap (frameChunks s.cfg.elideEmptyFinal)) := by
  induction ps generalizing s with
  | nil => exact ⟨s, rfl, hi, hStart, .refl s⟩
  | cons p ps ih =>
    rw [List.flatMap_cons, present_append, List.append_assoc] at hi
    obtain ⟨u, hrun, hrest, hStart', hSink', hSent⟩ := run_encFrame p hStart hSink hi
    obtain ⟨t, hrun', hrest', hStart'', hSent'⟩ := ih hStart' hSink' hrest
    rw [hSent.cfg] at hSent'
    rw [List.flatMap_cons, List.flatMap_cons, List.length_append]
    exact ⟨t, (run_append hrun).trans hrun', hrest', hStart'', hSent.trans hSent'⟩

/-- Settles O53: the chunks of the frames are their bytes, and of these the delimiters alone are 0x00. -/
theorem framesOnTheWireAreEncodedPayloads : Obligations.FramesOnTheWireAreEncodedPayloads := by
  refine ⟨fun s ps rest hStart hSink hi => ?_, count_sentinel_frameBytes⟩
  obtain ⟨t, hrun, hrest, hStart', hSent⟩ := run_encFrames ps hStart hSink hi
  refine ⟨t, hrun, ?_, hSent.encStatus, hStart', hSent.dec, hSent.decResults, hrest⟩
  exact hSent.wireTx.trans (congrArg _ (flatten_flatMap_frameChunks ..))

end Sys2Proof.Machine
end

