-- ==== Sys2Proof/Proofs/Loopback.lean ====
section
/-! The receiver fed with the wire bytes of ENC.FRAMEs (42_streaming_encoder.md R136): where the result to come is a
payload that the capacity holds, every frame byte is taken, so a frame adds that payload to the results. -/

namespace Sys2Proof.Machine

variable {s : State}

/-! ### The accumulator within the payload to come -/

/-- The loop of R110 only appends to what it starts from. -/
theorem length_le_of_decodeFrom {n : Nat} {out f p : List Byte} (h : decodeFrom n out f = .ok p) :
    out.length ≤ p.length := by
  induction n generalizing out f with
  | zero => cases f <;> exact (congrArg List.length (DecResult.ok.inj h)).le
  | succ n ih =>
    cases f with
    | nil => exact (congrArg List.length (DecResult.ok.inj h)).le
    | cons l rest =>
      rw [decodeFrom] at h
      split at h
      · cases h
      · split at h
        · cases h
        · have hle := ih h
          simp only [List.length_append] at hle
          omega

/-- A payload to come holds the accumulator, the literals of the block and its deferred 0x00. -/
theorem length_le_of_decodeRest {u : DecUnit} {f p : List Byte} (h : u.decodeRest f = .ok p) :
    u.rem.toNat ≤ f.length ∧
      u.out.length + u.rem.toNat + (if u.pend && !(f.drop u.rem.toNat).isEmpty then 1 else 0) ≤ p.length := by
  unfold DecUnit.decodeRest at h
  split at h
  · cases h
  · split at h
    · cases h
    · next hrem =>
      refine ⟨not_lt.1 hrem, (le_of_eq ?_).trans (length_le_of_decodeFrom h)⟩
      rw [List.length_append, List.length_append, List.length_take_of_le (not_lt.1 hrem)]
      split <;> rfl

/-- The byte that a frame byte appends is one of the payload to come. -/
theorem DecUnit.Appends.length_lt {u : DecUnit} {d : Byte} {f p : List Byte} (ha : u.Appends d)
    (h : u.decodeRest (d :: f) = .ok p) : u.out.length < p.length := by
  have hle := (length_le_of_decodeRest h).2
  obtain ⟨-, ⟨hz, hp, -⟩ | hpos⟩ := ha
  · simpa [hz, hp] using hle
  · omega

/-! ### The frame bytes that are taken -/

theorem takeFrameByte_of_not_appends {d : Byte} (h : ¬s.dec.Appends d) : ∃ t, takeFrameByte d s = .next t := by
  cases hp : s.dec.phase with
  | discard => exact ⟨_, takeFrameByte_discard d hp⟩
  | inLiterals =>
    obtain ⟨hb, hpos⟩ := phase_inLiterals.1 hp
    exact absurd ⟨hb, .inr hpos⟩ h
  | atLength =>
    obtain ⟨hb, hz⟩ := phase_atLength.1 hp
    by_cases hd : d = sentinel
    · exact ⟨_, hd ▸ takeFrameByte_sentinel hp⟩
    · have hpend : s.dec.pend = false := Bool.eq_false_of_not_eq_true fun hpend =>
        h ⟨hb, .inl ⟨BitVec.eq_of_toNat_eq hz, hpend, hd⟩⟩
      exact ⟨_, (takeFrameByte_length hp hd).trans (takeLength_nothingPending d hpend)⟩

/-- A frame byte is taken where the result to come is a payload that the capacity holds. -/
theorem takeFrameByte_of_decodeRest {d : Byte} {f p : List Byte} (h : s.dec.decodeRest (d :: f) = .ok p)
    (hcap : ∀ cap, s.cfg.decOutCap = some cap → p.length ≤ cap) : ∃ t, takeFrameByte d s = .next t := by
  by_cases ha : s.dec.Appends d
  · have hroom : outHasRoom s = true := (outHasRoom_iff s).2 fun cap hc => (ha.length_lt h).trans_le (hcap cap hc)
    obtain ⟨t, ht, -⟩ := takeFrameByte_room ha hroom
    exact ⟨t, ht⟩
  · exact takeFrameByte_of_not_appends ha

/-! ### RX.BYTE of the bytes of a frame -/

/-- With no pull outstanding, RX.BYTE of a byte other than 0x00 is DEC.BYTE (R151). -/
theorem exec_rxByte_eq_decByte {d : Byte} (hd : d ≠ sentinel) (hw : s.dec.waiting = false) :
    exec (.rxByte d) s = exec (.decByte d) s := by
  rw [exec_rxByte_of_ne s hd, answerPull_free hw, exec_decByte_free d hw]

/-- With no pull outstanding, RX.BYTE 0x00 is DEC.END (R151). -/
theorem exec_rxByte_sentinel_eq_decEnd (hw : s.dec.waiting = false) :
    exec (.rxByte sentinel) s = exec .decEnd s := by
  rw [exec_decEnd_free hw]
  rfl

/-- Where the result to come is a payload that the capacity holds, RX.BYTE of a byte of the frame body is taken, and
the rest of the body comes to that result from the state it leaves. -/
theorem exec_rxByte_of_decodeRest {d : Byte} {f p : List Byte} (l : List Input) (hd : d ≠ sentinel)
    (hw : s.dec.waiting = false) (hp : s.dec.decodeRest (d :: f) = .ok p)
    (hcap : ∀ cap, s.cfg.decOutCap = some cap → p.length ≤ cap) :
    ∃ u, exec (.rxByte d) { s with inputs := l } = .next u ∧ u.dec.waiting = false ∧ u.inputs = l ∧ u.cfg = s.cfg ∧
      u.dec.decodeRest f = .ok p ∧ ∀ rest, frameDecoded f rest u = frameDecoded (d :: f) rest s := by
  obtain ⟨u, hbyte⟩ := takeFrameByte_of_decodeRest (s := { s with inputs := l }) hp hcap
  have hu : exec (.decByte d) { s with inputs := l } = .next u :=
    (exec_decByte_free (s := { s with inputs := l }) d hw).trans hbyte
  obtain ⟨hw', hi', hdec⟩ := frameDecoded_of_exec_decByte hu
  exact ⟨u, (exec_rxByte_eq_decByte (s := { s with inputs := l }) hd hw).trans hu, hw', hi',
    (exec_decByte_out_length hu).2, (decodeRest_of_takeFrameByte hbyte f).trans hp, hdec f⟩

/-- RX.CHUNK of the rest of a frame body and its delimiter runs to its end where the result to come is a payload that
the capacity holds. -/
theorem run_rxFrame (f : List Byte) {p : List Byte} {rest : List Input} (hw : s.dec.waiting = false)
    (hf : sentinel ∉ f) (hp : s.dec.decodeRest f = .ok p)
    (hcap : ∀ cap, s.cfg.decOutCap = some cap → p.length ≤ cap)
    (hi : s.inputs = present (rxChunk (f ++ [sentinel])) ++ rest) :
    Sys2Proof.core.run (f ++ [sentinel]).length s = .next (frameDecoded f rest s) := by
  induction f generalizing s with
  | nil =>
    refine run_cons hi (Eq.trans ?_ (exec_decEnd_frameDecoded hw rest))
    exact exec_rxByte_sentinel_eq_decEnd (s := { s with inputs := rest }) hw
  | cons d f ih =>
    obtain ⟨hd, hf⟩ := List.ne_and_not_mem_of_not_mem_cons hf
    obtain ⟨u, hu, hw', hi', hcfg, hp', hdec⟩ :=
      exec_rxByte_of_decodeRest (present (rxChunk (f ++ [sentinel])) ++ rest) hd.symm hw hp hcap
    rw [List.cons_append, List.length_cons, run_cons hi hu, ih hw' hf hp' (hcfg ▸ hcap) hi', hdec]

/-- From a frame start, RX.CHUNK of the frames of payloads that the capacity holds adds the payloads to the results. -/
theorem run_rxFrames (elide : Bool) (ps : List (List Byte)) {rest : List Input} (hStart : s.dec = DecUnit.frameStart)
    (hcap : ∀ cap, s.cfg.decOutCap = some cap → ∀ p ∈ ps, p.length ≤ cap)
    (hi : s.inputs = present (rxChunk (ps.flatMap (frameBytes elide))) ++ rest) :
    Sys2Proof.core.run (ps.flatMap (frameBytes elide)).length s =
      .next { s with decResults := s.decResults ++ ps.map .ok, inputs := rest } := by
  induction ps generalizing s with
  | nil =>
    obtain rfl : s.inputs = rest := hi
    simp [Host.Core.run]
  | cons p ps ih =>
    rw [List.flatMap_cons, rxChunk, List.map_append, present_append, List.append_assoc] at hi
    have hp : s.dec.decodeRest (cobsEncode elide p) = .ok p := by
      rw [hStart, decodeRest_frameStart, cobsDecode_cobsEncode]
    have hrun := run_rxFrame _ (by rw [hStart]; rfl) (sentinel_notMem_cobsEncode elide p) hp
      (fun cap hc => hcap cap hc p List.mem_cons_self) hi
    have hcap' : ∀ cap, s.cfg.decOutCap = some cap → ∀ q ∈ ps, q.length ≤ cap := fun cap hc q hq =>
      hcap cap hc q (List.mem_cons_of_mem p hq)
    rw [List.flatMap_cons, List.length_append]
    refine ((run_append hrun).trans (ih rfl hcap' rfl)).trans ?_
    simp [frameDecoded, hp, ← hStart]

/-- Settles O56: the frames on the wire are the encoded payloads, DEC is as it was, and each frame fed to it adds its
payload. -/
theorem loopbackReturnsThePayloads : Obligations.LoopbackReturnsThePayloads := by
  intro s ps hEnc hDec hSink hcap hi
  obtain ⟨t, hrun, -, -, hSent⟩ := run_encFrames ps hEnc hSink (hi.trans (List.append_nil _).symm)
  have hwire := hSent.wireTx
  rw [flatten_flatMap_frameChunks] at hwire
  refine ⟨t, _, hrun, hwire, _, run_rxFrames s.cfg.elideEmptyFinal ps (hSent.dec.trans hDec) (hSent.cfg ▸ hcap)
    (List.append_nil _).symm, ?_⟩
  rw [← hSent.decResults]

end Sys2Proof.Machine
end

