-- ==== Sys2Proof/Proofs/StreamCommands.lean ====
section
/-! The stream-level operations and DEC.RESET, each by its effect (43_streaming_decoder.md R151 to R154). -/

namespace Sys2Proof.Machine

variable {s t : State} {d : Byte}

/-- RX.BYTE 0x00 ends the frame in every phase, whether its pull had blocked or not (R151). -/
theorem exec_rxByte_sentinel (s : State) : exec (.rxByte sentinel) s = .next (completeFrame s) := rfl

/-- RX.EOF ends the attempt with the one result it has (R152). -/
theorem exec_rxEof (s : State) : exec .rxEof s = .next (endAttempt (.err .unexpectedEof) s) := rfl

/-- RX.ERR ends the attempt with the Source's code (R153). -/
theorem exec_rxErr (e : Byte) (s : State) :
    exec (.rxErr e) s = .next (endAttempt (.err (.transportError e)) s) := rfl

/-- Only 0x00 sets the latch (R115). -/
theorem takeFrameByte_bad (hd : d ≠ sentinel) (h : takeFrameByte d s = .next t) : t.dec.bad = s.dec.bad := by
  rcases takeFrameByte_cases h with ⟨-, rfl⟩ | ⟨-, -, rfl⟩ | ⟨-, hs, -⟩ | ⟨-, -, -, -, rfl⟩ | ⟨-, -, -, rfl⟩
  · rfl
  · rfl
  · exact absurd hs hd
  · rfl
  · rfl

/-- Settles O35: where no pull blocks, DEC.RESET is `decFrameStart`, which writes the frame-start unit out. -/
theorem decResetAbandonsTheFrame : Obligations.DecResetAbandonsTheFrame := fun _ hw => exec_decReset_free hw

/-- Settles O36: once the pull is answered no pull is outstanding, so DEC.END and DEC.BYTE are accepted and do what
RX.BYTE does; of the frame bytes only 0x00 sets the latch, and only the capacity refuses one. -/
theorem rxByteIsDecEndOrDecByte : Obligations.RxByteIsDecEndOrDecByte := by
  intro s d
  have hw : (answerPull s).dec.waiting = false := rfl
  refine ⟨fun hd => ?_, fun hd => ?_, answerPull_free⟩
  · subst hd
    exact ⟨by rw [exec_rxByte_sentinel, exec_decEnd_free hw, completeFrame_answerPull], _, exec_rxByte_sentinel s⟩
  · rw [exec_rxByte_of_ne s hd]
    refine ⟨(exec_decByte_free d hw).symm, fun t ht => ?_, fun hcap => ?_⟩
    · exact takeFrameByte_bad (s := answerPull s) hd ht
    · exact takeFrameByte_completes d (outHasRoom_of_unbounded (s := answerPull s) hcap)

/-- Settles O39: `endAttempt` adds its result and leaves the frame-start unit. -/
theorem rxEofAlwaysReportsUnexpectedEof : Obligations.RxEofAlwaysReportsUnexpectedEof := exec_rxEof

/-- Settles O40: `endAttempt` adds its result and leaves the frame-start unit. -/
theorem rxErrPassesTheCodeThrough : Obligations.RxErrPassesTheCodeThrough := fun s e => exec_rxErr e s

end Sys2Proof.Machine
end

