-- ==== Sys2Proof/Proofs/ReceivedFrames.lean ====
section
/-! The receiver fed with any frames at all (43_streaming_decoder.md R155): RX.BYTE of a byte of the body is DEC.BYTE,
which keeps the result to come (`decodeRest_of_takeFrameByte`), and RX.BYTE 0x00 reports it, so each frame adds
`decode` of its body, whether that is a payload or an error. -/

namespace Sys2Proof.Machine

variable {s t u : State} {d : Byte}

/-! ### RX.BYTE and the result to come -/

theorem rxChunk_port {w : List Byte} : ∀ i ∈ rxChunk w, i.port = .dec := by
  intro i hi
  obtain ⟨d, -, rfl⟩ := List.mem_map.1 hi
  rfl

/-- RX.BYTE of a body byte that is taken leaves what the rest of the body comes to, and DEC free for it. -/
theorem frameDecoded_of_exec_rxByte {l : List Input} (hd : d ≠ sentinel) (hw : s.dec.waiting = false)
    (h : exec (.rxByte d) { s with inputs := l } = .next u) :
    u.dec.waiting = false ∧ u.inputs = l ∧ ∀ f rest, frameDecoded f rest u = frameDecoded (d :: f) rest s :=
  frameDecoded_of_exec_decByte ((exec_rxByte_eq_decByte (s := { s with inputs := l }) hd hw).symm.trans h)

/-- RX.BYTE 0x00 at the end of the body ends the decoding. -/
theorem exec_rxByte_sentinel_frameDecoded (hw : s.dec.waiting = false) (rest : List Input) :
    exec (.rxByte sentinel) { s with inputs := rest } = .next (frameDecoded [] rest s) :=
  (exec_rxByte_sentinel_eq_decEnd (s := { s with inputs := rest }) hw).trans (exec_decEnd_frameDecoded hw rest)

/-- With room for each byte of the rest of the body, RX.BYTE of its first byte is taken, and the others have room. -/
theorem exec_rxByte_of_room {f : List Byte} (l : List Input) (hd : d ≠ sentinel) (hw : s.dec.waiting = false)
    (hcap : ∀ cap, s.cfg.decOutCap = some cap → s.dec.out.length + (d :: f).length ≤ cap) :
    ∃ u, exec (.rxByte d) { s with inputs := l } = .next u ∧
      ∀ cap, u.cfg.decOutCap = some cap → u.dec.out.length + f.length ≤ cap := by
  have hroom : outHasRoom { s with inputs := l } = true := (outHasRoom_iff _).2 fun cap hc => by
    have hle := hcap cap hc
    simp only [List.length_cons] at hle ⊢
    omega
  obtain ⟨u, hu⟩ := exec_decByte_completes d hroom hw
  obtain ⟨hout, hcfg⟩ := exec_decByte_out_length hu
  refine ⟨u, (exec_rxByte_eq_decByte (s := { s with inputs := l }) hd hw).trans hu, fun cap hc => ?_⟩
  have hle := hcap cap (hcfg ▸ hc)
  simp only [List.length_cons] at hle
  omega

/-! ### A frame -/

/-- A frame presented with nothing behind it but RX.BYTEs: a run that ends in a next state has ended the frame's
decoding before it goes on. -/
theorem run_behind_rxFrame (f g : List Byte) (hw : s.dec.waiting = false) (hf : sentinel ∉ f)
    (hi : s.inputs = present (rxChunk (f ++ sentinel :: g)))
    (h : Sys2Proof.core.run (f ++ sentinel :: g).length s = .next t) :
    Sys2Proof.core.run g.length (frameDecoded f (present (rxChunk g)) s) = .next t := by
  induction f generalizing s with
  | nil => exact (run_cons hi (exec_rxByte_sentinel_frameDecoded hw _)).symm.trans h
  | cons d f ih =>
    obtain ⟨hd, hf⟩ := List.ne_and_not_mem_of_not_mem_cons hf
    obtain ⟨u, hu, hrun⟩ := exec_of_run_cons hi (waitsFor_of_present hw rxChunk_port) h
    obtain ⟨hw', hi', hdec⟩ := frameDecoded_of_exec_rxByte hd.symm hw hu
    rw [← hdec]
    exact ih hw' hf hi' hrun

/-- A frame with room for each byte of its body runs to its end, whatever is presented behind it. -/
theorem run_rxFrame_of_room (f : List Byte) {rest : List Input} (hw : s.dec.waiting = false) (hf : sentinel ∉ f)
    (hcap : ∀ cap, s.cfg.decOutCap = some cap → s.dec.out.length + f.length ≤ cap)
    (hi : s.inputs = present (rxChunk (f ++ [sentinel])) ++ rest) :
    Sys2Proof.core.run (f ++ [sentinel]).length s = .next (frameDecoded f rest s) := by
  induction f generalizing s with
  | nil => exact run_cons hi (exec_rxByte_sentinel_frameDecoded hw rest)
  | cons d f ih =>
    obtain ⟨hd, hf⟩ := List.ne_and_not_mem_of_not_mem_cons hf
    obtain ⟨u, hu, hcap'⟩ := exec_rxByte_of_room (present (rxChunk (f ++ [sentinel])) ++ rest) hd.symm hw hcap
    obtain ⟨hw', hi', hdec⟩ := frameDecoded_of_exec_rxByte hd.symm hw hu
    rw [List.cons_append, List.length_cons, run_cons hi hu, ih hw' hf hcap' hi', hdec]

/-! ### A wire of frames -/

/-- The wire bytes of the frames with the bodies `ws` (R70, R155). -/
def wireOf (ws : List (List Byte)) : List Byte := ws.flatMap (fun w => w ++ [sentinel])

theorem rxChunk_append (v w : List Byte) : rxChunk (v ++ w) = rxChunk v ++ rxChunk w := List.map_append

theorem wireOf_cons (w : List Byte) (ws : List (List Byte)) : wireOf (w :: ws) = w ++ [sentinel] ++ wireOf ws :=
  List.flatMap_cons

/-- What the frames with the bodies `ws` leave from a frame start, `rest` still presented. -/
def framesDecoded (ws : List (List Byte)) (rest : List Input) (s : State) : State :=
  { s with decResults := s.decResults ++ ws.map cobsDecode, inputs := rest }

theorem framesDecoded_nil {rest : List Input} (hi : s.inputs = rest) : framesDecoded [] rest s = s := by
  simp [framesDecoded, ← hi]

/-- From a frame start, the first frame is decoded and the others from the state it leaves. -/
theorem framesDecoded_cons (hStart : s.dec = DecUnit.frameStart) (w : List Byte) (ws : List (List Byte))
    (l rest : List Input) : framesDecoded (w :: ws) rest s = framesDecoded ws rest (frameDecoded w l s) := by
  simp [framesDecoded, frameDecoded_frameStart hStart]

/-- Frames presented alone: if they run to their end, each has added `decode` of its body. -/
theorem eq_framesDecoded_of_run (ws : List (List Byte)) (hStart : s.dec = DecUnit.frameStart)
    (hws : ∀ w ∈ ws, sentinel ∉ w) (hi : s.inputs = present (rxChunk (wireOf ws)))
    (h : Sys2Proof.core.run (wireOf ws).length s = .next t) : t = framesDecoded ws [] s := by
  induction ws generalizing s with
  | nil => exact (Host.Outcome.next.inj h).symm.trans (framesDecoded_nil hi).symm
  | cons w ws ih =>
    obtain ⟨hw, hws⟩ := List.forall_mem_cons.1 hws
    rw [wireOf_cons, List.append_assoc] at hi h
    have hrun := run_behind_rxFrame w (wireOf ws) (by rw [hStart]; rfl) hw hi h
    rw [ih rfl hws rfl hrun, framesDecoded_cons hStart]

/-- Frames with room for their bodies run to their end, whatever is presented behind them. -/
theorem run_framesDecoded (ws : List (List Byte)) {rest : List Input} (hStart : s.dec = DecUnit.frameStart)
    (hws : ∀ w ∈ ws, sentinel ∉ w) (hcap : ∀ w ∈ ws, ∀ cap, s.cfg.decOutCap = some cap → w.length ≤ cap)
    (hi : s.inputs = present (rxChunk (wireOf ws)) ++ rest) :
    Sys2Proof.core.run (wireOf ws).length s = .next (framesDecoded ws rest s) := by
  induction ws generalizing s with
  | nil => exact congrArg _ (framesDecoded_nil hi).symm
  | cons w ws ih =>
    obtain ⟨hw, hws⟩ := List.forall_mem_cons.1 hws
    obtain ⟨hcapw, hcap⟩ := List.forall_mem_cons.1 hcap
    rw [wireOf_cons, rxChunk_append, present_append, List.append_assoc] at hi
    have hrun := run_rxFrame_of_room w (by rw [hStart]; rfl) hw
      (by simpa [hStart, DecUnit.frameStart] using hcapw) hi
    rw [wireOf_cons, List.length_append, run_append hrun, framesDecoded_cons hStart]
    exact ih rfl hws hcap rfl

/-- Settles O55: each frame adds `decode` of its body and leaves DEC at frame start for the next; alone, a byte that is
not taken stops the run, and with the capacity each is taken. -/
theorem receiverYieldsDecodeOfEachFrame : Obligations.ReceiverYieldsDecodeOfEachFrame := by
  intro s ws hStart hws
  exact ⟨fun t hi h => eq_framesDecoded_of_run ws hStart hws hi h,
    fun rest hi hcap => run_framesDecoded ws hStart hws (fun w hw cap hc => hcap cap hc w hw) hi⟩

end Sys2Proof.Machine
end

