-- ==== Sys2Proof/Proofs/FrameResults.lean ====
section
/-! The results counted (43_streaming_decoder.md R159): an operation that ends a frame attempt adds one, and nothing
else adds any, so the results and the attempts' ends still presented keep their sum in every step. -/

namespace Sys2Proof.Machine

variable {s t : State} {k : State → Answer}

/-! ### What one operation adds to the results -/

theorem finishOk_decResults {full : Bool} (h : finishOk full s = .next t) : t.decResults = s.decResults := by
  obtain rfl := Host.Outcome.next.inj h
  simp

/-- However a `SinkWrite` goes, the results stay, if what follows it keeps them. -/
theorem emit_decResults {c : List Byte} (hk : ∀ u, k u = .next t → t.decResults = u.decResults)
    (h : emit c k s = .next t) : t.decResults = s.decResults := by
  rcases emit_cases h with ⟨-, h⟩ | ⟨e, n, -, rfl⟩ | ⟨-, rfl⟩
  · exact (hk _ h).trans (sinkTake_decResults ..)
  · simp
  · simp

/-- An ENC command adds no result. -/
theorem EncRun.decResults_eq {i : Instr} (h : EncRun i s t) : t.decResults = s.decResults := by
  cases h with
  | reset => simp
  | short => simp
  | full d _ _ _ _ _ he => exact (emit_decResults (fun _ => finishOk_decResults) he).trans (buffered_decResults d s)
  | one _ _ _ _ he => exact emit_decResults (fun _ => finishOk_decResults) he
  | elided => simp
  | delim _ _ _ he => exact emit_decResults (fun _ => finishOk_decResults) he
  | two _ _ _ _ he => exact emit_decResults (fun _ => emit_decResults fun _ => finishOk_decResults) he

/-- A DEC command ends a frame attempt and adds its result, or does neither. -/
theorem DecRun.decResults_cases {i : Instr} (h : DecRun i s t) :
    (endsAttempt i = true ∧ ∃ r, t.decResults = s.decResults ++ [r]) ∨
    (endsAttempt i = false ∧ t.decResults = s.decResults) := by
  cases h with
  | byte d _ hi ht =>
    refine .inr ⟨?_, by rw [takeFrameByte_frame ht]; rfl⟩
    rcases hi with ⟨rfl, -⟩ | ⟨rfl, hd⟩
    · rfl
    · simpa [endsAttempt] using hd
  | complete hi =>
    refine .inl ⟨?_, _, rfl⟩
    rcases hi with ⟨rfl, -⟩ | rfl <;> rfl
  | eof hi => exact .inl ⟨hi ▸ rfl, _, rfl⟩
  | err e hi => exact .inl ⟨hi ▸ rfl, _, rfl⟩
  | reset hi => exact .inr ⟨hi ▸ rfl, rfl⟩

theorem endsAttempt_enc {i : Instr} (h : i.port = .enc) : endsAttempt i = false :=
  match i, h with
  | .encWrite _, _ | .encEnd, _ | .encReset, _ | .encFinish, _ => rfl

/-! ### What an input adds, a step and a run -/

theorem exec_decResults_length {i : Instr} (h : exec i s = .next t) :
    t.decResults.length = s.decResults.length + if endsAttempt i then 1 else 0 := by
  cases hp : i.port with
  | enc => simp [(encRun_of_exec hp h).2.decResults_eq, endsAttempt_enc hp]
  | dec => rcases (decRun_of_exec hp h).decResults_cases with ⟨he, r, hr⟩ | ⟨he, hr⟩ <;> simp [he, hr]

theorem Input.endsAttempt_command {c : CmdWord} {i : Instr} (h : decode c = .ok i) :
    Input.endsAttempt (.command c) = Machine.endsAttempt i := by
  simp [Input.endsAttempt, h]

theorem takeInput_decResults_length {x : Input} (h : takeInput x s = .next t) :
    t.decResults.length = s.decResults.length + if x.endsAttempt then 1 else 0 := by
  rcases takeInput_cases h with ⟨k, rfl, rfl⟩ | ⟨rfl, -, rfl⟩ | ⟨c, i, rfl, hc, h⟩
  · rfl
  · rfl
  · rw [Input.endsAttempt_command hc]
    exact exec_decResults_length h

/-- The results, and the attempts' ends still presented. -/
def attemptsCounted (s : State) : Nat := s.decResults.length + (s.inputs.filter Input.endsAttempt).length

/-- The input a step takes moves from the inputs to the results if it ends an attempt. -/
theorem attemptsCounted_of_step (h : step s = .next t) : attemptsCounted t = attemptsCounted s := by
  rcases step_cases h with ⟨-, rfl⟩ | ⟨before, x, rest, hi, hx, -, -⟩
  · rfl
  · have hlen := takeInput_decResults_length hx
    simp only [attemptsCounted, ← List.countP_eq_length_filter, hlen, takeInput_inputs hx, hi, List.countP_append,
      List.countP_cons]
    omega

/-- What no step changes, no run changes. -/
theorem eq_of_run {α : Type} {f : State → α} (hf : ∀ u v, step u = .next v → f v = f u) {n : Nat}
    (h : Sys2Proof.core.run n s = .next t) : f t = f s := by
  induction n generalizing s with
  | zero => rw [Host.Outcome.next.inj h]
  | succ n ih =>
    simp only [Host.Core.run] at h
    split at h
    · next u hu => exact (ih h).trans (hf s u hu)
    · cases h
    · cases h

/-- Settles O42: a DEC command ends an attempt and adds a result or does neither, so every step keeps the results and
the attempts' ends presented together. -/
theorem oneResultPerFrameAttempt : Obligations.OneResultPerFrameAttempt := by
  refine ⟨fun i s t hp h => ?_, fun n s t h => eq_of_run (f := attemptsCounted) (fun _ _ => attemptsCounted_of_step) h⟩
  rcases (decRun_of_exec hp h).decResults_cases with ⟨he, hr⟩ | ⟨he, hr⟩
  · exact ⟨fun _ => hr, fun hn => by simp [he] at hn⟩
  · exact ⟨fun hn => by simp [he] at hn, fun _ => hr⟩

end Sys2Proof.Machine
end

