-- ==== Sys2Proof/Proofs/HardwareReset.lean ====
section
/-! Hardware reset (70_reset_and_hazards.md R200, R202): the reset waits for nothing, so as the oldest input it is taken
in every state, and `hardwareReset` says what it leaves. -/

namespace Sys2Proof.Machine

variable {s : State} {k : Nat} {rest : List Input}

/-- A reset at the head of the inputs is the step, whatever the units are waiting for. -/
theorem step_rst (hi : s.inputs = .rst k :: rest) :
    step s = .next (hardwareReset k { s with inputs := rest }) :=
  step_head hi (takeInput_rst k _)

/-- With no `SinkWrite` outstanding there is no chunk of which a part could be on the wire (R201). -/
theorem hardwareReset_wireTx_free (h : s.enc.waiting = none) : (hardwareReset k s).wireTx = s.wireTx := by
  simp [h]

/-- Settles O10: the step is `hardwareReset`, which writes both frame-start units out and lists no cell of `enc_buf`;
of the sequences and the environment it can only lengthen the wire, by part of an outstanding chunk. -/
theorem hardwareResetPutsBothUnitsAtFrameStart : Obligations.HardwareResetPutsBothUnitsAtFrameStart := by
  intro s k rest hi
  exact ⟨_, step_rst hi, rfl, rfl, rfl, rfl, Memory.read?_nil, rfl, rfl, rfl, rfl, rfl,
    hardwareReset_encStatus _ k, hardwareReset_decResults _ k, hardwareReset_wireTx_free,
    hardwareReset_sinkChunks _ k, hardwareReset_inputs _ k, hardwareReset_sinkAnswers _ k, hardwareReset_cfg _ k⟩

end Sys2Proof.Machine
end

