-- ==== Sys2Proof/Proofs/DecodedWords.lean ====
section
/-! The decoder against the encoder (30_encoding.md section 2): which operation a word selects, as the row of its port's
table that its code finds, and which words select one. -/

namespace Sys2Proof

/-! ### The fields of a word -/

/-- A word is put together from its port and its two fields (R76). -/
theorem CmdWord.eq_of_fields (c : CmdWord) : c = { port := c.port, bits := c.op ++ c.d } := by
  have hbits : c.op ++ c.d = c.bits := by
    have := c.bits.isLt
    apply BitVec.eq_of_toNat_eq
    rw [toNat_of_fields]
    simp only [CmdWord.op, CmdWord.d, BitVec.extractLsb'_toNat, Nat.shiftRight_eq_div_pow]
    omega
  rw [hbits]

/-- The code of a word as a number (R77). -/
theorem CmdWord.div_eq_op (c : CmdWord) : c.bits.toNat / 256 = c.op.toNat := by
  have := c.d.isLt
  conv_lhs => rw [c.eq_of_fields]
  rw [toNat_of_fields]
  omega

/-! ### The rows of the tables -/

/-- The operations whose `d` field is ignored (R80). -/
def Instr.Bare (i : Instr) : Prop := i.opcode = 0b001#3 ∨ i.opcode = 0b011#3 ∨ i.opcode = 0b101#3

/-- The row of the operation `i` is the one that the code `o` with the field `d` selects at the port `p`. -/
def RowOf (p : Port) (o : OpCode) (d : Byte) (i : Instr) : Prop :=
  p = i.port ∧ o = i.opcode ∧ (¬i.Bare → d = i.operand)

theorem rowOf_of_decodeEnc {o : OpCode} {d : Byte} {i : Instr} (h : decodeEnc o d = .ok i) : RowOf .enc o d i := by
  unfold decodeEnc at h
  split at h
  · next ho => cases h; exact ⟨rfl, BitVec.eq_of_toNat_eq ho, fun _ => rfl⟩
  · next ho => cases h; exact ⟨rfl, BitVec.eq_of_toNat_eq ho, fun hb => (hb (.inl rfl)).elim⟩
  · next ho => cases h; exact ⟨rfl, BitVec.eq_of_toNat_eq ho, fun hb => (hb (.inr (.inl rfl))).elim⟩
  · next ho => cases h; exact ⟨rfl, BitVec.eq_of_toNat_eq ho, fun hb => (hb (.inr (.inr rfl))).elim⟩
  · cases h

theorem rowOf_of_decodeDec {o : OpCode} {d : Byte} {i : Instr} (h : decodeDec o d = .ok i) : RowOf .dec o d i := by
  unfold decodeDec at h
  split at h
  · next ho => cases h; exact ⟨rfl, BitVec.eq_of_toNat_eq ho, fun _ => rfl⟩
  · next ho => cases h; exact ⟨rfl, BitVec.eq_of_toNat_eq ho, fun hb => (hb (.inl rfl)).elim⟩
  · next ho => cases h; exact ⟨rfl, BitVec.eq_of_toNat_eq ho, fun hb => (hb (.inr (.inl rfl))).elim⟩
  · next ho => cases h; exact ⟨rfl, BitVec.eq_of_toNat_eq ho, fun _ => rfl⟩
  · next ho => cases h; exact ⟨rfl, BitVec.eq_of_toNat_eq ho, fun hb => (hb (.inr (.inr rfl))).elim⟩
  · next ho => cases h; exact ⟨rfl, BitVec.eq_of_toNat_eq ho, fun _ => rfl⟩
  · cases h

/-- A word that selects an operation carries its row's port and code, and its operand if it has one. -/
theorem rowOf_of_decode {c : CmdWord} {i : Instr} (h : decode c = .ok i) : RowOf c.port c.op c.d i := by
  cases hp : c.port with
  | enc => exact rowOf_of_decodeEnc ((decode_enc hp).symm.trans h)
  | dec => exact rowOf_of_decodeDec ((decode_dec hp).symm.trans h)

theorem port_of_decode {c : CmdWord} {i : Instr} (h : decode c = .ok i) : c.port = i.port := (rowOf_of_decode h).1

/-- Where the operation has an operand, the word is its encoding. -/
theorem eq_encode_of_decode {c : CmdWord} {i : Instr} (h : decode c = .ok i) (hb : ¬i.Bare) : c = encode i := by
  obtain ⟨hport, hop, hd⟩ := rowOf_of_decode h
  rw [c.eq_of_fields, hport, hop, hd hb, encode]

/-! ### Well-formed words -/

theorem wf_enc_iff {c : CmdWord} (h : c.port = .enc) : c.wf = true ↔ c.op.toNat ∉ [2, 4, 6, 7] := by
  simp [CmdWord.wf, h, c.div_eq_op]

theorem wf_dec_iff {c : CmdWord} (h : c.port = .dec) : c.wf = true ↔ c.op.toNat ∉ [2, 7] := by
  simp [CmdWord.wf, h, c.div_eq_op]

theorem exists_decodeEnc_iff (o : OpCode) (d : Byte) : (∃ i, decodeEnc o d = .ok i) ↔ o.toNat ∉ [2, 4, 6, 7] := by
  have := o.isLt
  unfold decodeEnc
  split
  case h_5 => grind
  all_goals simp [*]

theorem exists_decodeDec_iff (o : OpCode) (d : Byte) : (∃ i, decodeDec o d = .ok i) ↔ o.toNat ∉ [2, 7] := by
  have := o.isLt
  unfold decodeDec
  split
  case h_7 => grind
  all_goals simp [*]

/-- The words that select an operation are those without a reserved code (R81). -/
theorem exists_decode_iff_wf (c : CmdWord) : (∃ i, decode c = .ok i) ↔ c.wf = true := by
  cases hp : c.port with
  | enc => rw [decode_enc hp, exists_decodeEnc_iff, wf_enc_iff hp]
  | dec => rw [decode_dec hp, exists_decodeDec_iff, wf_dec_iff hp]

/-- Settles O3: the word of an operation carries its row of the table (`decode_encode`), a word that selects an
operation carries that operation's row, and every code that is not reserved finds a row. -/
theorem decodeAndEncodeAgree : Obligations.DecodeAndEncodeAgree := by
  refine ⟨fun i _ => ⟨decode_encode i, (exists_decode_iff_wf _).1 ⟨i, decode_encode i⟩⟩, fun c i h => ?_,
    exists_decode_iff_wf⟩
  obtain ⟨hport, hop, -⟩ := rowOf_of_decode h
  exact ⟨hport, hop, fun h1 h2 h3 => eq_encode_of_decode h fun hb => hb.elim h1 (Or.rec h2 h3)⟩

/-- Settles O2: each number is the word with the code and the field of the operation it stands for. -/
theorem numberedCommandWordsDecode : Obligations.NumberedCommandWordsDecode :=
  ⟨decode_encode (.encWrite 0x11#8), decode_enc_of_fields 0b001#3 0x5A#8, decode_encode .encReset,
    decode_encode .encFinish, decode_encode (.decByte 0x03#8), decode_encode (.rxByte 0x03#8),
    decode_dec_of_fields 0b101#3 0xFF#8, decode_encode (.rxErr 0x2A#8)⟩

end Sys2Proof
end

