-- ==== Sys2Proof/Proofs/UnitFrames.lean ====
section
/-! The two units apart (10_state.md section 1, 60_exceptions.md section 6): what a command leaves of the other unit, and
that it does the same whatever the other unit holds, so that commands of the two units commute. -/

namespace Sys2Proof.Machine

variable {s t : State} {k : State → Answer}

/-! ### What a command leaves unchanged -/

/-- DEC and the configuration, together. -/
def decAndCfg (s : State) : DecUnit × Config := (s.dec, s.cfg)

theorem finishOk_decAndCfg {full : Bool} (h : finishOk full s = .next t) : decAndCfg t = decAndCfg s := by
  obtain rfl := Host.Outcome.next.inj h
  rfl

/-- However a `SinkWrite` goes, DEC and the configuration stay, if what follows it keeps them. -/
theorem emit_decAndCfg {c : List Byte} (hk : ∀ u, k u = .next t → decAndCfg t = decAndCfg u)
    (h : emit c k s = .next t) : decAndCfg t = decAndCfg s := by
  rcases emit_cases h with ⟨-, h⟩ | ⟨e, n, -, rfl⟩ | ⟨-, rfl⟩
  · exact hk (sinkTake c c s) h
  · rfl
  · rfl

theorem EncRun.decAndCfg_eq {i : Instr} (h : EncRun i s t) : decAndCfg t = decAndCfg s := by
  cases h with
  | reset => rfl
  | short => rfl
  | full d _ _ _ _ _ he => exact emit_decAndCfg (s := buffered d s) (fun _ => finishOk_decAndCfg) he
  | one _ _ _ _ he => exact emit_decAndCfg (fun _ => finishOk_decAndCfg) he
  | elided => rfl
  | delim _ _ _ he => exact emit_decAndCfg (fun _ => finishOk_decAndCfg) he
  | two _ _ _ _ he => exact emit_decAndCfg (fun _ => emit_decAndCfg fun _ => finishOk_decAndCfg) he

/-- A DEC command touches DEC and the results only. -/
theorem DecRun.frame {i : Instr} (h : DecRun i s t) : t = { s with dec := t.dec, decResults := t.decResults } := by
  cases h with
  | byte d _ _ ht => rw [takeFrameByte_frame ht]; rfl
  | complete => rfl
  | eof => rfl
  | err => rfl
  | reset => rfl

/-- Settles O25: DEC and the configuration survive every `SinkWrite`, as the results and the inputs do. -/
theorem encCommandsLeaveTheDecoderAlone : Obligations.EncCommandsLeaveTheDecoderAlone := by
  intro i s t hp h
  have hrun := (encRun_of_exec hp h).2
  obtain ⟨hdec, hcfg⟩ := Prod.mk.inj hrun.decAndCfg_eq
  exact ⟨hdec, hrun.decResults_eq, hcfg, hrun.inputs_eq⟩

/-- Settles O26: a DEC command's next state is the state before it but for DEC and the results. -/
theorem decCommandsLeaveTheEncoderAlone : Obligations.DecCommandsLeaveTheEncoderAlone := by
  intro i s t hp h
  rw [(decRun_of_exec hp h).frame]
  exact ⟨rfl, State.bufByte_congr rfl rfl, rfl, rfl, rfl, rfl, rfl, rfl⟩

/-! ### A state put together from the two units -/

/-- The answer with `f` applied to its next state. -/
def mapNext (f : State → State) : Answer → Answer
  | .next t => .next (f t)
  | .fault r => .fault r
  | .refused r => .refused r

/-- `k` does the same to `f s` as to `s`: what `f` changes is nothing to it, and it does not change that. -/
def Blind (f : State → State) (k : State → Answer) : Prop := ∀ s, k (f s) = mapNext f (k s)

/-- The state `s` with all of DEC's part and the inputs taken from `d`. -/
def withDec (d s : State) : State := { s with dec := d.dec, decResults := d.decResults, inputs := d.inputs }

/-- The state `s` with all of ENC's part and the inputs taken from `e`. -/
def withEnc (e s : State) : State :=
  { s with
    enc := e.enc
    wireTx := e.wireTx
    encStatus := e.encStatus
    sinkChunks := e.sinkChunks
    sinkAnswers := e.sinkAnswers
    draws := e.draws
    inputs := e.inputs }

theorem exists_of_blind {f : State → State} (hk : Blind f k) (h : k (f s) = .next t) :
    ∃ u, k s = .next u ∧ t = f u := by
  rw [hk s] at h
  cases hs : k s with
  | next u => exact ⟨u, rfl, by rw [hs] at h; exact (Host.Outcome.next.inj h).symm⟩
  | fault r => rw [hs] at h; cases h
  | refused r => rw [hs] at h; cases h

theorem next_of_blind {f : State → State} (hk : Blind f k) (h : k s = .next t) : k (f s) = .next (f t) := by
  rw [hk s, h, mapNext]

/-! ### ENC commands do not see DEC -/

theorem requireHealthy_eq (h : s.enc.fault = false) : requireHealthy k s = requireFree k s := by
  simp [requireHealthy, h]

theorem finalBlock_eq (h : finalBlockElided s.cfg s.enc = false) : finalBlock k s = emitRun k s := by
  simp [finalBlock, h]

/-- A byte for which the pending buffer has no cell (R37). -/
theorem bufferByte_outOfRange (b : Byte) (h : 253 < s.enc.run.toNat) :
    bufferByte b s = .fault .bufIndexOutOfRange := by
  have hmem : memWrite s.enc.run.toNat b s = none := if_neg (Nat.not_lt.2 h)
  simp only [bufferByte, hmem]

section
variable (d : State)

theorem blind_requireFree (hk : Blind (withDec d) k) : Blind (withDec d) (requireFree k) := by
  intro s
  by_cases hw : s.enc.waiting = none
  · rw [requireFree_free hw, requireFree_free (s := withDec d s) hw, hk]
  · rw [requireFree_waiting hw, requireFree_waiting (s := withDec d s) hw, mapNext]

theorem blind_requireHealthy (hk : Blind (withDec d) k) : Blind (withDec d) (requireHealthy k) := by
  intro s
  cases hf : s.enc.fault with
  | true => rw [requireHealthy_faulted hf, requireHealthy_faulted (s := withDec d s) hf, mapNext]
  | false => rw [requireHealthy_eq hf, requireHealthy_eq (s := withDec d s) hf, blind_requireFree d hk]

theorem blind_finishOk (full : Bool) : Blind (withDec d) (finishOk full) := fun _ => rfl

theorem blind_emit (c : List Byte) (hk : Blind (withDec d) k) : Blind (withDec d) (emit c k) := by
  intro s
  cases hn : s.nextAnswer with
  | ok => rw [emit_ok c hn, emit_ok (s := withDec d s) c hn]; exact hk (sinkTake c c s)
  | err e n => rw [emit_err c hn, emit_err (s := withDec d s) c hn]; rfl
  | silent => rw [emit_silent c hn, emit_silent (s := withDec d s) c hn]; rfl

theorem withDec_bufBytes (s : State) (i n : Nat) : (withDec d s).bufBytes i n = s.bufBytes i n :=
  State.bufBytes_congr i n fun _ _ _ => rfl

theorem blind_emitBlock (l : Byte) (n : Nat) (hk : Blind (withDec d) k) : Blind (withDec d) (emitBlock l n k) := by
  intro s
  unfold emitBlock memRead
  rw [withDec_bufBytes]
  split
  · rfl
  · exact blind_emit d _ hk s

theorem blind_emitRun (hk : Blind (withDec d) k) : Blind (withDec d) (emitRun k) :=
  fun s => blind_emitBlock d _ _ hk s

theorem blind_finalBlock (hk : Blind (withDec d) k) : Blind (withDec d) (finalBlock k) := by
  intro s
  cases he : finalBlockElided s.cfg s.enc with
  | true => rw [finalBlock_elided he, finalBlock_elided (s := withDec d s) he, hk]
  | false => rw [finalBlock_eq he, finalBlock_eq (s := withDec d s) he, blind_emitRun d hk]

theorem blind_bufferByte (b : Byte) : Blind (withDec d) (bufferByte b) := by
  intro s
  rcases Nat.lt_trichotomy s.enc.run.toNat 253 with hr | hr | hr
  · rw [bufferByte_short hr, bufferByte_short (s := withDec d s) hr]
    rfl
  · rw [bufferByte_full hr, bufferByte_full (s := withDec d s) hr, State.pending, withDec_bufBytes]
    exact blind_emit d _ (blind_finishOk d true) (buffered b s)
  · rw [bufferByte_outOfRange b hr, bufferByte_outOfRange (s := withDec d s) b hr, mapNext]

/-- An ENC command does the same whatever DEC holds. -/
theorem blind_exec_enc {i : Instr} (hp : i.port = .enc) : Blind (withDec d) (exec i) :=
  match i, hp with
  | .encWrite b, _ => by
    refine blind_requireHealthy d ?_
    split
    · exact blind_emitRun d (blind_finishOk d false)
    · exact blind_bufferByte d b
  | .encEnd, _ => blind_requireHealthy d (blind_finalBlock d (blind_finishOk d false))
  | .encFinish, _ => blind_requireHealthy d (blind_finalBlock d (blind_emit d _ (blind_finishOk d false)))
  | .encReset, _ => blind_requireFree d fun _ => rfl

end

/-! ### DEC commands do not see ENC -/

section
variable (e : State)

theorem blind_requireNoPull (hk : Blind (withEnc e) k) : Blind (withEnc e) (requireNoPull k) := by
  intro s
  cases hw : s.dec.waiting with
  | true => rw [requireNoPull_waiting hw, requireNoPull_waiting (s := withEnc e s) hw, mapNext]
  | false => rw [requireNoPull_free hw, requireNoPull_free (s := withEnc e s) hw, hk]

theorem blind_takeLiteral (b : Byte) : Blind (withEnc e) (takeLiteral b) := by
  intro s
  cases hr : outHasRoom s with
  | true => rw [takeLiteral_room b hr, takeLiteral_room (s := withEnc e s) b hr]; rfl
  | false => rw [takeLiteral_full b hr, takeLiteral_full (s := withEnc e s) b hr]; rfl

theorem blind_takeLength (b : Byte) : Blind (withEnc e) (takeLength b) := by
  intro s
  cases hp : s.dec.pend with
  | false => rw [takeLength_nothingPending b hp, takeLength_nothingPending (s := withEnc e s) b hp]; rfl
  | true =>
    cases hr : outHasRoom s with
    | true => rw [takeLength_room b hp hr, takeLength_room (s := withEnc e s) b hp hr]; rfl
    | false => rw [takeLength_full b hp hr, takeLength_full (s := withEnc e s) b hp hr]; rfl

theorem blind_takeFrameByte (b : Byte) : Blind (withEnc e) (takeFrameByte b) := by
  intro s
  cases hp : s.dec.phase with
  | discard => rw [takeFrameByte_discard b hp, takeFrameByte_discard (s := withEnc e s) b hp]; rfl
  | inLiterals =>
    rw [takeFrameByte_inLiterals b hp, takeFrameByte_inLiterals (s := withEnc e s) b hp, blind_takeLiteral]
  | atLength =>
    by_cases hb : b = sentinel
    · rw [hb, takeFrameByte_sentinel hp, takeFrameByte_sentinel (s := withEnc e s) hp]; rfl
    · rw [takeFrameByte_length hp hb, takeFrameByte_length (s := withEnc e s) hp hb, blind_takeLength]

/-- A DEC command does the same whatever ENC holds. -/
theorem blind_exec_dec {i : Instr} (hp : i.port = .dec) : Blind (withEnc e) (exec i) :=
  match i, hp with
  | .decByte b, _ => blind_requireNoPull e (blind_takeFrameByte e b)
  | .decEnd, _ => blind_requireNoPull e fun _ => rfl
  | .decReset, _ => blind_requireNoPull e fun _ => rfl
  | .rxEof, _ => fun _ => rfl
  | .rxErr _, _ => fun _ => rfl
  | .rxByte b, _ => fun s => by
    by_cases hb : b = sentinel
    · rw [hb]; rfl
    · rw [exec_rxByte_of_ne s hb, exec_rxByte_of_ne _ hb]
      exact blind_takeFrameByte e b (answerPull s)

end

/-! ### Both orders -/

/-- The two ways to put a state together from one in which ENC went on and one in which DEC did. -/
theorem withDec_eq_withEnc {e d : State} (hcfg : e.cfg = d.cfg) (hin : e.inputs = d.inputs) :
    withDec d e = withEnc e d := by
  simp [withDec, withEnc, hcfg, hin]

/-- An ENC command moves ENC's part of the state only. -/
theorem eq_withEnc_of_exec {i : Instr} (hp : i.port = .enc) (h : exec i s = .next t) : t = withEnc t s := by
  obtain ⟨hdec, hres, hcfg, hin⟩ := encCommandsLeaveTheDecoderAlone i s t hp h
  rw [← withDec_eq_withEnc hcfg hin]
  simp [withDec, ← hdec, ← hres, ← hin]

/-- A DEC command moves DEC's part of the state only. -/
theorem eq_withDec_of_exec {i : Instr} (hp : i.port = .dec) (h : exec i s = .next t) : t = withDec t s := by
  rw [(decRun_of_exec hp h).frame]
  rfl

/-- Settles O28: the first command moves its own unit's part of the state, which the second does not see; so either
order leads to the state with ENC's part as the ENC command leaves it and DEC's part as the DEC command does. -/
theorem encAndDecCommandsCommute : Obligations.EncAndDecCommandsCommute := by
  intro i j s hi hj
  have hjoin {t v : State} (ht : exec i s = .next t) (hv : exec j s = .next v) : withDec v t = withEnc t v := by
    obtain ⟨-, -, hcfg, hin⟩ := encCommandsLeaveTheDecoderAlone i s t hi ht
    obtain ⟨-, -, -, -, -, -, hcfg', hin'⟩ := decCommandsLeaveTheEncoderAlone j s v hj hv
    exact withDec_eq_withEnc (hcfg.trans hcfg'.symm) (hin.trans hin'.symm)
  refine ⟨fun t u ht hu => ?_, fun v u hv hu => ?_⟩
  · rw [eq_withEnc_of_exec hi ht] at hu
    obtain ⟨v, hv, rfl⟩ := exists_of_blind (blind_exec_dec t hj) hu
    refine ⟨v, hv, ?_⟩
    rw [← hjoin ht hv, eq_withDec_of_exec hj hv]
    exact next_of_blind (blind_exec_enc v hi) ht
  · rw [eq_withDec_of_exec hj hv] at hu
    obtain ⟨t, ht, rfl⟩ := exists_of_blind (blind_exec_enc v hi) hu
    refine ⟨t, ht, ?_⟩
    rw [hjoin ht hv, eq_withEnc_of_exec hi ht]
    exact next_of_blind (blind_exec_dec t hj) hv

end Sys2Proof.Machine
end

