-- ==== Sys2Proof/Proofs/UnitRuns.lean ====
section
/-! The units do not hold each other up (20_memory.md section 7, 60_exceptions.md section 3): a run with both units'
inputs presented is simulated, input by input, by the run of one unit with its own inputs alone. -/

namespace Sys2Proof.Machine

variable {s t u v w : State} {p q : Port} {x y : Input}

/-! ### One input and the other unit -/

/-- The state `s` with all but the part of the unit `p` taken from `o`. -/
def otherUnit (p : Port) (o s : State) : State :=
  match p with
  | .enc => withDec o s
  | .dec => withEnc o s

/-- A word that selects an operation runs it. -/
theorem takeInput_of_decode {c : CmdWord} {i : Instr} (h : decode c = .ok i) (s : State) :
    takeInput (.command c) s = exec i s := by
  simp [takeInput, h]

/-- Taking an input does the same whatever the other unit holds. -/
theorem blind_takeInput (hx : x.unit? = some p) (o : State) : Blind (otherUnit p o) (takeInput x) := by
  cases x with
  | rst k => cases hx
  | pull =>
    obtain rfl := Option.some.inj hx
    exact blind_requireNoPull o fun _ => rfl
  | command c =>
    obtain rfl := Option.some.inj hx
    intro s
    rcases hd : decode c with ⟨r, o⟩ | i
    · rw [takeInput_reserved hd, takeInput_reserved hd, mapNext]
    · rw [takeInput_of_decode hd, takeInput_of_decode hd, port_of_decode hd]
      cases hp : i.port with
      | enc => exact blind_exec_enc _ hp s
      | dec => exact blind_exec_dec _ hp s

/-- Taking an input of one unit leaves the other unit's part of the state. -/
theorem otherUnit_of_takeInput (hx : x.unit? = some q) (hq : q ≠ p) (h : takeInput x s = .next t) :
    otherUnit p t s = t := by
  rcases takeInput_cases h with ⟨k, rfl, -⟩ | ⟨rfl, -, rfl⟩ | ⟨c, i, rfl, hd, hi⟩
  · cases hx
  · cases p with
    | enc => rfl
    | dec => exact absurd (Option.some.inj hx).symm hq
  · have hport : i.port = q := (port_of_decode hd).symm.trans (Option.some.inj hx)
    cases p with
    | enc => exact (eq_withDec_of_exec (by cases q <;> simp_all) hi).symm
    | dec => exact (eq_withEnc_of_exec (by cases q <;> simp_all) hi).symm

theorem isStreamLevel_port {i : Instr} (h : isStreamLevel i = true) : i.port = .dec :=
  match i, h with
  | .rxByte _, _ | .rxEof, _ | .rxErr _, _ => rfl

/-- An answer to a pull is for DEC. -/
theorem Input.unit?_of_isAnswer (h : x.isAnswer = true) : x.unit? = some .dec := by
  cases x with
  | pull => rfl
  | rst k => cases h
  | command c =>
    simp only [Input.isAnswer] at h
    split at h
    · next i hd => exact congrArg some ((port_of_decode hd).trans (isStreamLevel_port h))
    · cases h

/-! ### The simulation -/

/-- The unit `p` is in `u`, among both units' inputs, where it is in `v`, with its own inputs alone. -/
structure Simulates (p : Port) (u v : State) : Prop where
  part : otherUnit p u v = u
  inputs : inputsFor p u.inputs = v.inputs

/-- What an input of the unit waits for does not depend on the other unit. -/
theorem Simulates.waitsFor_eq (h : Simulates p u v) (hx : x.unit? = some p) (y : Input) :
    Input.waitsFor u x y = Input.waitsFor v x y := by
  cases hp : p with
  | dec =>
    have hdec : u.dec = v.dec := by rw [← h.part, hp]; rfl
    simp [Input.waitsFor, hdec]
  | enc =>
    have hans : x.isAnswer = false := Bool.eq_false_of_not_eq_true fun ha => by
      simp [Input.unit?_of_isAnswer ha, hp] at hx
    simp [Input.waitsFor, hans]

/-- What an input waits for is of its own unit. -/
theorem Input.unit?_of_waitsFor (hx : x.unit? = some p) (h : Input.waitsFor s x y = true) : y.unit? = some p := by
  simp only [Input.waitsFor, Input.sameUnit, Bool.and_eq_true, beq_iff_eq] at h
  rw [← h.1.2, hx]

theorem mem_inputsFor {l : List Input} : y ∈ inputsFor p l ↔ y ∈ l ∧ y.unit? = some p := by simp [inputsFor]

theorem Simulates.part_withInputs (h : Simulates p u v) (l : List Input) : { u with inputs := l } =
    otherUnit p { u with inputs := l } { v with inputs := inputsFor p l } := by
  conv_lhs => rw [← h.part]
  cases p <;> rfl

/-- The same input is taken in both, and leaves the simulation. -/
theorem Simulates.takeInput (h : Simulates p u v) (hx : x.unit? = some p) (l : List Input) {u' : State}
    (hu : takeInput x { u with inputs := l } = .next u') :
    ∃ v', Machine.takeInput x { v with inputs := inputsFor p l } = .next v' ∧ Simulates p u' v' := by
  rw [h.part_withInputs l] at hu
  obtain ⟨v', hv, rfl⟩ := exists_of_blind (blind_takeInput hx _) hu
  refine ⟨v', hv, by cases p <;> rfl, ?_⟩
  rw [takeInput_inputs hv]
  cases p <;> rfl

/-- An input the unit can take alone it can take among the other unit's. -/
theorem Simulates.takeInput_of_alone (h : Simulates p u v) (hx : x.unit? = some p) (l : List Input)
    (hv : Machine.takeInput x { v with inputs := inputsFor p l } = .next t) :
    ∃ u', Machine.takeInput x { u with inputs := l } = .next u' := by
  rw [h.part_withInputs l]
  exact ⟨_, next_of_blind (blind_takeInput hx _) hv⟩

/-- An input of the unit is blocked among both units' inputs just where it is blocked among its unit's. -/
theorem Simulates.blocked_iff (h : Simulates p u v) (hx : x.unit? = some p) (before rest : List Input) :
    Blocked u before x rest ↔ Blocked v (inputsFor p before) x (inputsFor p rest) := by
  unfold Blocked
  have happ : inputsFor p before ++ inputsFor p rest = inputsFor p (before ++ rest) := (List.filter_append ..).symm
  rw [happ]
  refine or_congr ⟨fun ⟨y, hy, hw⟩ => ?_, fun ⟨y, hy, hw⟩ => ?_⟩ ⟨fun hn t ht => ?_, fun hn t ht => ?_⟩
  · exact ⟨y, mem_inputsFor.2 ⟨hy, Input.unit?_of_waitsFor hx hw⟩, h.waitsFor_eq hx y ▸ hw⟩
  · exact ⟨y, (mem_inputsFor.1 hy).1, (h.waitsFor_eq hx y).trans hw⟩
  · obtain ⟨u', hu⟩ := h.takeInput_of_alone hx _ ht
    exact hn u' hu
  · obtain ⟨v', hv, -⟩ := h.takeInput hx _ ht
    exact hn v' hv

/-- A place in the unit's own inputs is a place among both units'. -/
theorem exists_split_of_inputsFor {l before rest : List Input} (h : inputsFor p l = before ++ x :: rest) :
    ∃ b r, l = b ++ x :: r ∧ inputsFor p b = before ∧ inputsFor p r = rest := by
  obtain ⟨b, r', rfl, hb, hr⟩ := List.filter_eq_append_iff.1 h
  obtain ⟨m, r, rfl, hm, -, hr⟩ := List.filter_eq_cons_iff.1 hr
  refine ⟨b ++ m, r, (List.append_assoc ..).symm, ?_, hr⟩
  rw [inputsFor, List.filter_append, List.filter_eq_nil_iff.2 hm, List.append_nil]
  exact hb

/-! ### Steps -/

/-- Where the unit alone takes an input, there is a step among both units' inputs. -/
theorem Simulates.step_exists (h : Simulates p u v) (hne : v.inputs ≠ []) (hv : step v = .next t) :
    ∃ u', step u = .next u' := by
  rcases step_cases hv with ⟨hnil, -⟩ | ⟨before, x, rest, hi, hx, hw, -⟩
  · exact absurd hnil hne
  · obtain ⟨b, r, hui, rfl, rfl⟩ := exists_split_of_inputsFor (h.inputs.trans hi)
    have hunit : x.unit? = some p := (mem_inputsFor.1 (h.inputs.trans hi ▸ List.mem_append_right _ List.mem_cons_self)).2
    refine Machine.step_exists hui fun hb => ?_
    rcases (h.blocked_iff hunit b r).1 hb with ⟨y, hy, hyw⟩ | hn
    · simp [(hw y hy).1] at hyw
    · exact hn t hx

/-- The inputs of one unit, where those of both are split at one of them. -/
theorem inputsFor_append_cons (hx : x.unit? = some p) (before rest : List Input) :
    inputsFor p (before ++ x :: rest) = inputsFor p before ++ x :: inputsFor p rest := by
  simp [inputsFor, hx]

/-- A step that takes an input of the unit is one of the unit alone. -/
theorem Simulates.step_of_own (h : Simulates p u v) {before rest : List Input} (hi : u.inputs = before ++ x :: rest)
    (hx : x.unit? = some p) (hw : ∀ y ∈ before, Input.waitsFor u x y = false)
    (hb : ∀ a y b, before = a ++ y :: b → Blocked u a y (b ++ x :: rest)) {u' : State}
    (hu : Machine.takeInput x { u with inputs := before ++ rest } = .next u') :
    ∃ v', step v = .next v' ∧ Simulates p u' v' := by
  obtain ⟨v', hv, hsim⟩ := h.takeInput hx _ hu
  rw [inputsFor, List.filter_append] at hv
  refine ⟨v', step_eq ?_ (fun a y b hab => ?_) (fun y hy => ?_) hv, hsim⟩
  · rw [← h.inputs, hi, inputsFor_append_cons hx]
    rfl
  · obtain ⟨a, b, hbefore, rfl, rfl⟩ := exists_split_of_inputsFor hab
    have hy : y.unit? = some p := (mem_inputsFor.1 (hab ▸ List.mem_append_right _ List.mem_cons_self)).2
    have hblock := (h.blocked_iff hy a _).1 (hb a y b hbefore)
    rwa [inputsFor_append_cons hx] at hblock
  · exact (h.waitsFor_eq hx y).symm.trans (hw y (mem_inputsFor.1 hy).1)

/-- A step that takes an input of the other unit leaves the simulation. -/
theorem Simulates.of_other (h : Simulates p u v) {before rest : List Input} (hi : u.inputs = before ++ x :: rest)
    (hx : x.unit? = some q) (hq : q ≠ p) {u' : State}
    (hu : Machine.takeInput x { u with inputs := before ++ rest } = .next u') : Simulates p u' v := by
  refine ⟨?_, ?_⟩
  · have hpart := otherUnit_of_takeInput hx hq hu
    rw [← h.part] at hpart
    cases p <;> exact hpart
  · rw [takeInput_inputs hu, ← h.inputs, hi]
    simp [inputsFor, hx, hq]

/-- A step among both units' inputs is one of the unit alone, or its part stays. -/
theorem Simulates.step_cases (h : Simulates p u v) (hrst : ∀ k, .rst k ∉ u.inputs) {u' : State}
    (hu : step u = .next u') : (∃ v', step v = .next v' ∧ Simulates p u' v') ∨ Simulates p u' v := by
  rcases Machine.step_cases hu with ⟨-, rfl⟩ | ⟨before, x, rest, hi, hx, hw, hb⟩
  · exact .inr h
  obtain ⟨q, hunit⟩ : ∃ q, x.unit? = some q := by
    cases x with
    | command c => exact ⟨_, rfl⟩
    | pull => exact ⟨_, rfl⟩
    | rst k => exact absurd (hi ▸ List.mem_append_right _ List.mem_cons_self) (hrst k)
  by_cases hq : q = p
  · exact .inl (h.step_of_own hi (hq ▸ hunit) (fun y hy => (hw y hy).1) hb hx)
  · exact .inr (h.of_other hi hunit hq hx)

/-! ### Runs -/

/-- A step takes one of the inputs, where there are any. -/
theorem step_inputs (hne : s.inputs ≠ []) (h : step s = .next t) :
    t.inputs.length + 1 = s.inputs.length ∧ ∀ x ∈ t.inputs, x ∈ s.inputs := by
  rcases step_cases h with ⟨hnil, -⟩ | ⟨before, x, rest, hi, hx, -, -⟩
  · exact absurd hnil hne
  · rw [takeInput_inputs hx, hi]
    refine ⟨by simp; omega, fun y hy => ?_⟩
    simp only [List.mem_append, List.mem_cons] at hy ⊢
    exact hy.imp_right .inr

theorem run_succ_of_step (h : step s = .next t) (n : Nat) :
    Sys2Proof.core.run (n + 1) s = Sys2Proof.core.run n t := by
  rw [Nat.add_comm]
  refine run_append ?_
  have hstep : Sys2Proof.core.step s = .next t := h
  simp [Host.Core.run, hstep]

theorem exists_step_of_run {n : Nat} (h : Sys2Proof.core.run (n + 1) s = .next t) :
    ∃ u, step s = .next u ∧ Sys2Proof.core.run n u = .next t := by
  simp only [Host.Core.run] at h
  split at h
  · next u hu => exact ⟨u, hu, h⟩
  · cases h
  · cases h

/-- While the unit alone has inputs to take, there is a step among both units' inputs that keeps the simulation of a
run which takes them all. -/
theorem Simulates.run_step (h : Simulates p u v) (hrst : ∀ k, .rst k ∉ u.inputs) (hne : v.inputs ≠ [])
    (hv : Sys2Proof.core.run v.inputs.length v = .next t) :
    ∃ u' v', step u = .next u' ∧ Simulates p u' v' ∧ Sys2Proof.core.run v'.inputs.length v' = .next t := by
  obtain ⟨m, hm⟩ := Nat.exists_eq_succ_of_ne_zero (mt List.eq_nil_of_length_eq_zero hne)
  obtain ⟨v', hstep, hrun⟩ := exists_step_of_run (hm ▸ hv)
  obtain ⟨u', hu⟩ := h.step_exists hne hstep
  rcases h.step_cases hrst hu with ⟨v'', hv'', hsim⟩ | hsim
  · obtain rfl := Host.Outcome.next.inj (hstep.symm.trans hv'')
    have hm' : v'.inputs.length = m := by have := (step_inputs hne hstep).1; omega
    exact ⟨u', v', hu, hsim, hm'.symm ▸ hrun⟩
  · exact ⟨u', v, hu, hsim, hv⟩

/-- If the unit alone takes all its inputs, it takes them all among the other unit's, and comes to the same. -/
theorem Simulates.run (h : Simulates p u v) (hrst : ∀ k, .rst k ∉ u.inputs)
    (hv : Sys2Proof.core.run v.inputs.length v = .next t) :
    ∃ n w, Sys2Proof.core.run n u = .next w ∧ inputsFor p w.inputs = [] ∧ otherUnit p w t = w := by
  induction hn : u.inputs.length using Nat.strong_induction_on generalizing u v with
  | _ n ih =>
    by_cases hnil : v.inputs = []
    · rw [hnil] at hv
      obtain rfl := Host.Outcome.next.inj hv
      exact ⟨0, u, rfl, h.inputs.trans hnil, h.part⟩
    · obtain ⟨u', v', hu, hsim, hv'⟩ := h.run_step hrst hnil hv
      have hne : u.inputs ≠ [] := fun he => hnil (by rw [← h.inputs, he]; rfl)
      obtain ⟨hlen, hmem⟩ := step_inputs hne hu
      obtain ⟨k, w, hrun, hw⟩ := ih _ (by omega) hsim (fun k hk => hrst k (hmem _ hk)) hv' rfl
      exact ⟨k + 1, w, (run_succ_of_step hu k).trans hrun, hw⟩

theorem simulates_alone (p : Port) (s : State) : Simulates p s { s with inputs := inputsFor p s.inputs } :=
  ⟨by cases p <;> rfl, rfl⟩

/-- Settles O7: the unit among both units' inputs simulates the unit with its own alone, and every step with both
presented takes an input of either, so all of the unit's are taken after at most as many steps as inputs. -/
theorem unitsDoNotHoldEachOtherUp : Obligations.UnitsDoNotHoldEachOtherUp := by
  intro s hrst
  refine ⟨fun t ht => ?_, fun t ht => ?_⟩
  · obtain ⟨n, w, hrun, hnil, hpart⟩ := (simulates_alone .dec s).run hrst ht
    exact ⟨n, w, hrun, hnil, by rw [← hpart]; exact ⟨rfl, rfl⟩⟩
  · obtain ⟨n, w, hrun, hnil, hpart⟩ := (simulates_alone .enc s).run hrst ht
    exact ⟨n, w, hrun, hnil, by rw [← hpart]; exact ⟨rfl, rfl, rfl, rfl⟩⟩

end Sys2Proof.Machine
end

