-- ==== Sys2Proof/Proofs/CobsFunctions.lean ====
section
/-! The functions `encode` and `decode` as functions (40_encode_transform.md R91, 41_decode_transform.md R111): the
length of an encoded payload, counted along the zero-free runs; what `decode` detects, and which blocks it reads alike. -/

namespace Sys2Proof.Machine

variable {elide lastFull : Bool} {buf out f g : List Byte}

/-- Settles O48: the loop of `decode` undoes the loop of `encode` block by block (`decodeFrom_blocksFrom`). -/
theorem decodeOfEncodeIsThePayload : Obligations.DecodeOfEncodeIsThePayload := cobsDecode_cobsEncode

/-- Settles O44: the blocks are well-formed, and no byte of a well-formed block is 0x00. -/
theorem encodedPayloadHasNoSentinel : Obligations.EncodedPayloadHasNoSentinel := sentinel_notMem_cobsEncode

theorem isFrameBody_cobsEncode (elide : Bool) (p : List Byte) : IsFrameBody (cobsEncode elide p) :=
  ⟨cobsBlocks elide p, rfl, fun _ => wf_of_mem_cobsBlocks⟩

/-- Settles O47: every block the loop of R90 emits is well-formed. -/
theorem encodedPayloadIsWellFormedBlocks : Obligations.EncodedPayloadIsWellFormedBlocks := fun elide p =>
  ⟨fun _ => wf_of_mem_cobsBlocks, isFrameBody_cobsEncode elide p, _, rfl, isFrameBody_cobsEncode elide p⟩

/-! ### The length of an encoded payload -/

/-- The full blocks of the zero-free runs of `p`, `r` bytes of the first already seen (R91). -/
def fullBlocks (r : Nat) (p : List Byte) : Nat := ((runLengthsFrom r p).map (fun n => n / 254)).sum

theorem fullBlocks_nil (r : Nat) : fullBlocks r [] = r / 254 := by simp [fullBlocks, runLengthsFrom]

theorem fullBlocks_sentinel (r : Nat) (p : List Byte) : fullBlocks r (sentinel :: p) = r / 254 + fullBlocks 0 p := by
  simp [fullBlocks, runLengthsFrom]

theorem fullBlocks_cons {b : Byte} (hb : b ≠ sentinel) (r : Nat) (p : List Byte) :
    fullBlocks r (b :: p) = fullBlocks (r + 1) p := by
  simp [fullBlocks, runLengthsFrom, hb]

theorem fullBlocks_le (r : Nat) (p : List Byte) : fullBlocks r p ≤ (r + p.length) / 254 := by
  induction p generalizing r with
  | nil => rw [fullBlocks_nil]; simp
  | cons b p ih =>
    by_cases hb : b = sentinel
    · have := ih 0
      rw [hb, fullBlocks_sentinel, List.length_cons]
      omega
    · have := ih (r + 1)
      rw [fullBlocks_cons hb, List.length_cons]
      omega

theorem runLengthsFrom_ne_nil (r : Nat) (p : List Byte) : runLengthsFrom r p ≠ [] := by
  induction p generalizing r with
  | nil => simp [runLengthsFrom]
  | cons b p ih =>
    rw [runLengthsFrom]
    split
    · simp
    · exact ih _

/-- The bytes the loop of R90 has still to emit. -/
def lengthFrom (elide : Bool) (buf : List Byte) (lastFull : Bool) (p : List Byte) : Nat :=
  (blocksFrom elide buf lastFull p).flatten.length

theorem lengthFrom_nil : lengthFrom elide buf lastFull [] = if elide && lastFull then 0 else buf.length + 1 := by
  rw [lengthFrom, blocksFrom]
  split <;> simp

theorem lengthFrom_sentinel (p : List Byte) :
    lengthFrom elide buf lastFull (sentinel :: p) = buf.length + 1 + lengthFrom elide [] false p := by
  simp [lengthFrom, blocksFrom, Nat.add_right_comm]

theorem lengthFrom_full {b : Byte} (hb : b ≠ sentinel) (hlen : buf.length + 1 = runMax) (p : List Byte) :
    lengthFrom elide buf lastFull (b :: p) = buf.length + 2 + lengthFrom elide [] true p := by
  simp [lengthFrom, blocksFrom, hb, hlen]
  omega

theorem lengthFrom_push {b : Byte} (hb : b ≠ sentinel) (hlen : buf.length + 1 ≠ runMax) (p : List Byte) :
    lengthFrom elide buf lastFull (b :: p) = lengthFrom elide (buf ++ [b]) false p := by
  simp [lengthFrom, blocksFrom, hb, hlen]

/-- The loop of R90 after `r` bytes of a run: the pending ones are those behind the run's full blocks, and the last
thing emitted was a full block if there are none but full blocks. -/
structure AfterRun (r : Nat) (buf : List Byte) (lastFull : Bool) : Prop where
  pending : r % 254 = buf.length
  last : lastFull = true ↔ 0 < r ∧ r % 254 = 0

theorem afterRun_zero : AfterRun 0 [] false := ⟨rfl, by simp⟩

theorem AfterRun.length_lt {r : Nat} (h : AfterRun r buf lastFull) : buf.length < 254 := by
  have := h.pending
  omega

theorem AfterRun.full {r : Nat} (h : AfterRun r buf lastFull) (hlen : buf.length + 1 = runMax) :
    AfterRun (r + 1) [] true := by
  have := h.pending
  simp only [runMax] at hlen
  exact ⟨by simp; omega, by simp; omega⟩

theorem AfterRun.push {r : Nat} (h : AfterRun r buf lastFull) (b : Byte) (hlen : buf.length + 1 ≠ runMax) :
    AfterRun (r + 1) (buf ++ [b]) false := by
  have := h.pending
  have := h.length_lt
  simp only [runMax] at hlen
  exact ⟨by simp; omega, by simp; omega⟩

/-- The bytes of the blocks: each payload byte counts one, a 0x00 for the length byte of the block it closes; and so
do the final block's length byte and those of the full blocks. -/
theorem lengthFrom_eq {r : Nat} (p : List Byte) (h : AfterRun r buf lastFull) :
    lengthFrom false buf lastFull p + r / 254 = buf.length + p.length + 1 + fullBlocks r p := by
  induction p generalizing r buf lastFull with
  | nil => simp [lengthFrom_nil, fullBlocks_nil]
  | cons b p ih =>
    have hpend := h.pending
    by_cases hb : b = sentinel
    · have := ih afterRun_zero
      rw [hb, fullBlocks_sentinel, lengthFrom_sentinel]
      simp only [List.length_cons, List.length_nil] at this ⊢
      omega
    rw [fullBlocks_cons hb]
    by_cases hlen : buf.length + 1 = runMax
    · have := ih (h.full hlen)
      rw [lengthFrom_full hb hlen]
      simp only [List.length_cons, List.length_nil, runMax] at this hlen ⊢
      omega
    · have hrest := ih (h.push b hlen)
      have hlt := h.length_lt
      rw [lengthFrom_push hb hlen]
      simp only [List.length_cons, List.length_nil, List.length_append, runMax] at hrest hlen ⊢
      omega

/-- The last zero-free run of a payload, `r` bytes of the first already seen. -/
def lastRun (r : Nat) (p : List Byte) : Nat := (runLengthsFrom r p).getLastD 0

theorem lastRun_sentinel (r : Nat) (p : List Byte) : lastRun r (sentinel :: p) = lastRun 0 p := by
  obtain ⟨n, ns, hns⟩ := List.exists_cons_of_ne_nil (runLengthsFrom_ne_nil 0 p)
  simp [lastRun, runLengthsFrom, hns]

theorem lastRun_cons {b : Byte} (hb : b ≠ sentinel) (r : Nat) (p : List Byte) :
    lastRun r (b :: p) = lastRun (r + 1) p := by
  simp [lastRun, runLengthsFrom, hb]

/-- What `ELIDE_EMPTY_FINAL` leaves out: the empty final block behind a run that full blocks end (R96). -/
theorem lengthFrom_elide {r : Nat} (p : List Byte) (h : AfterRun r buf lastFull) :
    lengthFrom true buf lastFull p + (if 0 < lastRun r p ∧ lastRun r p % 254 = 0 then 1 else 0) =
      lengthFrom false buf lastFull p := by
  induction p generalizing r buf lastFull with
  | nil =>
    have hpend := h.pending
    have hlast := h.last
    cases lastFull <;> simp_all [lengthFrom_nil, lastRun, runLengthsFrom]
  | cons b p ih =>
    by_cases hb : b = sentinel
    · rw [hb, lastRun_sentinel, lengthFrom_sentinel, lengthFrom_sentinel, ← ih afterRun_zero, Nat.add_assoc]
    rw [lastRun_cons hb]
    by_cases hlen : buf.length + 1 = runMax
    · rw [lengthFrom_full hb hlen, lengthFrom_full hb hlen, ← ih (h.full hlen), Nat.add_assoc]
    · rw [lengthFrom_push hb hlen, lengthFrom_push hb hlen, ih (h.push b hlen)]

theorem length_cobsEncode (p : List Byte) : (cobsEncode false p).length = p.length + 1 + fullBlocks 0 p := by
  have h := lengthFrom_eq p afterRun_zero
  rwa [Nat.zero_div, List.length_nil, Nat.add_zero, Nat.zero_add] at h

theorem length_cobsEncode_elide (p : List Byte) :
    (cobsEncode true p).length + (if 0 < lastRun 0 p ∧ lastRun 0 p % 254 = 0 then 1 else 0) =
      (cobsEncode false p).length := lengthFrom_elide p afterRun_zero

/-- Settles O45: the bytes are counted along the loop of R90, and the elided block is one byte. -/
theorem encodedLengthIsExact : Obligations.EncodedLengthIsExact := fun p =>
  ⟨length_cobsEncode p, (length_cobsEncode_elide p).trans (length_cobsEncode p)⟩

/-- Settles O46: the runs together are no longer than the payload, so it has a full block per 254 bytes at most; and
the loop of R90 emits something for every payload. -/
theorem encodingOverheadIsBounded : Obligations.EncodingOverheadIsBounded := by
  intro elide p
  have hfull := fullBlocks_le 0 p
  have hexact := length_cobsEncode p
  have helide := length_cobsEncode_elide p
  refine ⟨?_, ?_⟩
  · cases elide <;> omega
  · have hne := isEmpty_flatten_blocksFrom elide [] p
    exact List.length_pos_iff.2 (List.isEmpty_eq_false_iff.1 hne)

/-! ### What `decode` detects -/

/-- Decoding shortens: a round gives at most one byte for its length byte, and none at the end of the frame. -/
theorem length_lt_of_decodeFrom {n : Nat} {p : List Byte} (hf : f ≠ []) (h : decodeFrom n out f = .ok p) :
    p.length + 1 ≤ out.length + f.length := by
  induction n generalizing out f with
  | zero =>
    cases f with
    | nil => exact absurd rfl hf
    | cons l rest =>
      obtain rfl := DecResult.ok.inj h
      simp
  | succ n ih =>
    cases f with
    | nil => exact absurd rfl hf
    | cons l rest =>
      rw [decodeFrom] at h
      split at h
      · cases h
      split at h
      · cases h
      next hlits =>
      by_cases hnil : rest.drop (litCount l) = []
      · rw [hnil, decodeFrom_nil] at h
        obtain rfl := DecResult.ok.inj h
        simp
      · have hshort := ih hnil h
        have hdeferred : (if impliesSentinel l && !(rest.drop (litCount l)).isEmpty then [sentinel] else []).length ≤
            1 := by split <;> simp
        simp only [List.length_append, List.length_take, List.length_drop, List.length_cons] at hshort ⊢
        omega

theorem cobsDecode_truncated {l : Byte} {rest : List Byte} (hl : l ≠ sentinel) (h : rest.length < litCount l) :
    cobsDecode (l :: rest) = .err .unexpectedEof := by
  simp [cobsDecode, decodeFrom, hl, h]

/-- Settles O49: the first round of the loop of R110 detects the two errors, and every round shortens. -/
theorem decodeDetectsMalformedAndTruncated : Obligations.DecodeDetectsMalformedAndTruncated := by
  refine ⟨rfl, fun rest => rfl, fun l rest hl hlt => cobsDecode_truncated hl hlt, fun f p hf h => ?_⟩
  have := length_lt_of_decodeFrom hf h
  simp only [List.length_nil] at this
  omega

/-! ### A final empty block -/

/-- What stands behind well-formed blocks decodes alike if it decodes alike from every accumulator, and a block
follows in both or in neither. -/
theorem decodeFrom_congr_behind {blocks : List (List Byte)} (hwf : ∀ b ∈ blocks, Block.wf b = true)
    (hempty : f.isEmpty = g.isEmpty)
    (hfg : ∀ out, decodeFrom f.length out f = decodeFrom g.length out g) (out : List Byte) :
    decodeFrom (blocks.flatten ++ f).length out (blocks.flatten ++ f) =
      decodeFrom (blocks.flatten ++ g).length out (blocks.flatten ++ g) := by
  induction blocks generalizing out with
  | nil => exact hfg out
  | cons b blocks ih =>
    obtain ⟨hb, hblocks⟩ := List.forall_mem_cons.1 hwf
    obtain ⟨l, lits, rfl, hlen, -⟩ := Block.exists_cons_of_wf hb
    have hrest : (blocks.flatten ++ f).isEmpty = (blocks.flatten ++ g).isEmpty := by
      cases blocks.flatten with
      | nil => exact hempty
      | cons => rfl
    rw [List.flatten_cons, List.append_assoc, List.append_assoc, decodeFrom_block hlen, decodeFrom_block hlen, hrest]
    exact ih hblocks _

/-- The empty block adds nothing to the accumulator. -/
theorem decodeFrom_emptyBlock (out : List Byte) : decodeFrom 1 out [0x01#8] = .ok out := by
  simp [decodeFrom, litCount]

/-- Behind a full block no 0x00 is deferred, so an empty block there changes nothing. -/
theorem decodeFrom_full_emptyBlock {lits : List Byte} (hwf : Block.wf (fullLength :: lits) = true)
    (out : List Byte) :
    decodeFrom (fullLength :: lits ++ [0x01#8]).length out (fullLength :: lits ++ [0x01#8]) =
      decodeFrom (fullLength :: lits).length out (fullLength :: lits) := by
  obtain ⟨hlen, -⟩ := Block.wf_cons.1 hwf
  have hnone : impliesSentinel fullLength = false := by decide
  conv_rhs => rw [← List.append_nil (fullLength :: lits)]
  rw [decodeFrom_block hlen, decodeFrom_block hlen, hnone, decodeFrom_nil]
  exact decodeFrom_emptyBlock _

/-- Settles O50: with no block at all, and behind a full block, the empty block gives what nothing gives; the blocks
before that decode alike. -/
theorem emptyBlockAfterFullBlockDecodesAlike : Obligations.EmptyBlockAfterFullBlockDecodesAlike := by
  rintro blocks hwf (rfl | ⟨before, lits, rfl⟩)
  · exact decodeFrom_emptyBlock []
  · obtain ⟨hbefore, hlast⟩ := List.forall_mem_append.1 hwf
    have hfull := hlast _ (List.mem_singleton_self _)
    rw [List.flatten_append, List.flatten_singleton, List.append_assoc]
    exact decodeFrom_congr_behind (f := fullLength :: lits ++ [0x01#8]) (g := fullLength :: lits) hbefore rfl
      (decodeFrom_full_emptyBlock hfull) []

end Sys2Proof.Machine
end

