-- ==== Sys2Proof/Proofs/EncOutcomes.lean ====
section
/-! How an ENC command comes out (42_streaming_encoder.md R134, 60_exceptions.md R177, 70_reset_and_hazards.md R210): it
completes, fails in one of its `SinkWrite`s, or hangs in one; said once, with the chunks it handed over, and from there
the statuses, the fault flag, the errors reported and the append-only sequences. -/

namespace Sys2Proof.Machine

variable {s t u : State} {k : State → Answer} {i : Instr} {c d : List Byte}

/-! ### The three outcomes -/

/-- An ENC command led from `s` to `t` and handed over `chunks`. -/
inductive EncOutcome (s t : State) : List (List Byte) → Prop
  /-- It completed, and all chunks are on the wire. -/
  | done (chunks : List (List Byte)) : EncSent s t 1 chunks → t.enc.fault = false → t.enc.waiting = none →
      EncOutcome s t chunks
  /-- The Sink answered the last chunk with an error. -/
  | failed (e : Byte) (n : Nat) (before : List (List Byte)) (chunk : List Byte) : .err e n ∈ s.sinkAnswers →
      EncFailedWith s t e (before ++ [chunk]) (before.flatten ++ chunk.take n) → EncOutcome s t (before ++ [chunk])
  /-- The Sink does not answer the last chunk. -/
  | hung (before : List (List Byte)) (chunk : List Byte) : .silent ∈ s.sinkAnswers →
      HungWith s t chunk before before.flatten → EncOutcome s t (before ++ [chunk])

/-- In the middle of an operation that began in `s`: the unit is healthy and free, no status is reported yet, and
`before` went out. -/
structure Underway (s u : State) (before : List (List Byte)) : Prop where
  sent : EncSent s u 0 before
  healthy : u.enc.fault = false
  free : u.enc.waiting = none
  inputs : u.inputs = s.inputs
  answers : ∀ a ∈ u.sinkAnswers, a ∈ s.sinkAnswers

theorem underway_refl (hf : s.enc.fault = false) (hw : s.enc.waiting = none) : Underway s s [] :=
  ⟨.refl s, hf, hw, rfl, fun _ => id⟩

theorem underway_buffered (b : Byte) (hf : s.enc.fault = false) (hw : s.enc.waiting = none) :
    Underway s (buffered b s) [] :=
  ⟨EncSent.of_buffered (.refl _), hf, hw, rfl, fun _ => id⟩

/-- A chunk the Sink took takes the operation on. -/
theorem Underway.taken {before : List (List Byte)} (h : Underway s u before) (c : List Byte) :
    Underway s (sinkTake c c u) (before ++ [c]) :=
  ⟨h.sent.trans (sinkTake_sent c u), h.healthy, h.free, h.inputs, fun a ha => h.answers a (List.mem_of_mem_tail ha)⟩

theorem mem_of_nextAnswer_silent (h : s.nextAnswer = .silent) : SinkAnswer.silent ∈ s.sinkAnswers := by
  unfold State.nextAnswer at h
  cases hs : s.sinkAnswers with
  | nil => simp [hs] at h
  | cons a l => simp only [hs, List.headD_cons] at h; simp [h]

/-- A `SinkWrite` in the middle of an operation ends it, or takes it on. -/
theorem Underway.emit {before : List (List Byte)} (h : Underway s u before) (he : emit c k u = .next t) :
    EncOutcome s t (before ++ [c]) ∨ k (sinkTake c c u) = .next t := by
  rcases emit_cases he with ⟨-, hk⟩ | ⟨e, n, hn, rfl⟩ | ⟨hn, rfl⟩
  · exact .inr hk
  · refine .inl (.failed e n before c (h.answers _ (mem_of_nextAnswer_err hn)) ?_)
    simp [EncFailedWith, h.sent.wireTx, h.sent.sinkChunks, h.sent.encStatus, h.sent.dec, h.sent.decResults, h.sent.cfg,
      h.inputs]
  · refine .inl (.hung before c (h.answers _ (mem_of_nextAnswer_silent hn)) ?_)
    simp [HungWith, h.sent.wireTx, h.sent.sinkChunks, h.sent.encStatus, h.sent.dec, h.sent.decResults, h.sent.cfg,
      h.inputs, h.healthy]

/-- An operation that reports `OK` has completed. -/
theorem Underway.finishOk {before : List (List Byte)} {full : Bool} (h : Underway s u before)
    (hk : finishOk full u = .next t) : EncOutcome s t before := by
  obtain rfl := Host.Outcome.next.inj hk
  refine .done before ?_ h.healthy h.free
  constructor <;>
    simp [h.sent.wireTx, h.sent.sinkChunks, h.sent.encStatus, h.sent.dec, h.sent.decResults, h.sent.cfg]

/-- A `SinkWrite` with which an operation completes. -/
theorem Underway.emit_finishOk {before : List (List Byte)} {full : Bool} (h : Underway s u before)
    (he : Machine.emit c (Machine.finishOk full) u = .next t) : EncOutcome s t (before ++ [c]) :=
  (h.emit he).elim id (h.taken c).finishOk

/-- The chunks an ENC command may hand over (R92 to R96, R131). -/
inductive Hands (s : State) : Instr → List Byte → Prop
  /-- The block of the run, for ENC.WRITE 0x00. -/
  | write : Hands s (.encWrite sentinel) s.runBlock
  /-- The block of the run, as the final block of ENC.END. -/
  | final : Hands s .encEnd s.runBlock
  /-- The block of the run, as the final block of ENC.FINISH. -/
  | finish : Hands s .encFinish s.runBlock
  /-- The full block, for the ENC.WRITE that fills the run. -/
  | full (b : Byte) : b ≠ sentinel → s.enc.run.toNat = 253 →
      Hands s (.encWrite b) (fullLength :: (s.pending ++ [b]))
  /-- The delimiter, for ENC.FINISH. -/
  | delim : Hands s .encFinish [sentinel]

/-- Every ENC command that answers a next state has one of the three outcomes, with chunks it may hand over. -/
theorem encOutcome_of_exec (hp : i.port = .enc) (h : exec i s = .next t) :
    ∃ chunks, EncOutcome s t chunks ∧ ∀ c ∈ chunks, Hands s i c := by
  obtain ⟨hw, hrun⟩ := encRun_of_exec hp h
  cases hrun with
  | reset =>
    refine ⟨[], .done [] ?_ rfl hw, by simp⟩
    constructor <;> simp
  | short b _ _ hf =>
    refine ⟨[], .done [] ?_ hf hw, by simp⟩
    exact byteStored_sent b s
  | full b _ hi hb hf hr he =>
    subst hi
    exact ⟨_, (underway_buffered b hf hw).emit_finishOk he, by simpa using Hands.full b hb hr⟩
  | one _ hi hf _ he =>
    refine ⟨_, (underway_refl hf hw).emit_finishOk he, ?_⟩
    rcases hi with rfl | rfl
    · simpa using Hands.final
    · simpa using Hands.write
  | elided _ hf =>
    exact ⟨[], (underway_refl hf hw).finishOk (full := false) rfl, by simp⟩
  | delim _ hi hf he =>
    subst hi
    exact ⟨_, (underway_refl hf hw).emit_finishOk he, by simpa using Hands.delim⟩
  | two _ hi hf _ he =>
    subst hi
    rcases (underway_refl hf hw).emit he with hout | he
    · exact ⟨_, hout, by simpa using Hands.finish⟩
    · refine ⟨_, ((underway_refl hf hw).taken s.runBlock).emit_finishOk he, ?_⟩
      simpa using ⟨Hands.finish, Hands.delim⟩

/-! ### What each outcome has on the wire and in the statuses -/

/-- The chunks are recorded, and the wire got their bytes up to some point. -/
theorem EncOutcome.chunks_and_sent {chunks : List (List Byte)} (h : EncOutcome s t chunks) :
    t.sinkChunks = s.sinkChunks ++ chunks ∧ ∃ sent, t.wireTx = s.wireTx ++ sent ∧ sent <+: chunks.flatten := by
  cases h with
  | done _ h => exact ⟨h.sinkChunks, _, h.wireTx, List.prefix_rfl⟩
  | failed e n before chunk _ h =>
    obtain ⟨-, -, -, hwire, hchunks, -⟩ := h
    refine ⟨hchunks, _, hwire, ?_⟩
    rw [List.flatten_append, List.flatten_singleton]
    exact (List.prefix_append_right_inj _).2 (List.take_prefix n chunk)
  | hung before chunk _ h =>
    obtain ⟨-, -, -, hwire, hchunks, -⟩ := h
    refine ⟨hchunks.trans (List.append_assoc ..), _, hwire, ?_⟩
    rw [List.flatten_append]
    exact List.prefix_append ..

/-- The status, and what it says of the fault flag and the wait. -/
theorem EncOutcome.status_cases {chunks : List (List Byte)} (h : EncOutcome s t chunks) :
    (t.encStatus = s.encStatus ++ [.ok] ∧ t.enc.fault = false ∧ t.enc.waiting = none) ∨
    (∃ e n, SinkAnswer.err e n ∈ s.sinkAnswers ∧
      t.encStatus = s.encStatus ++ [.transportError e] ∧ t.enc.fault = true ∧ t.enc.waiting = none) ∨
    (SinkAnswer.silent ∈ s.sinkAnswers ∧ t.encStatus = s.encStatus ∧ t.enc.waiting ≠ none) := by
  cases h with
  | done _ h hf hw => exact .inl ⟨h.encStatus, hf, hw⟩
  | failed e n before chunk ha h =>
    obtain ⟨hf, hw, hst, -⟩ := h
    exact .inr (.inl ⟨e, n, ha, hst, hf, hw⟩)
  | hung before chunk ha h =>
    obtain ⟨hw, -, hst, -⟩ := h
    exact .inr (.inr ⟨ha, hst, by simp [hw]⟩)

/-- Settles O24: the three outcomes are the three cases, and a DEC command touches no status. -/
theorem oneStatusPerEncCommand : Obligations.OneStatusPerEncCommand := by
  intro i s t h
  refine ⟨fun hp => ?_, fun hp => ?_⟩
  · obtain ⟨chunks, hout, -⟩ := encOutcome_of_exec hp h
    exact hout.status_cases
  · rw [(decRun_of_exec hp h).frame]

theorem exec_dec_enc (hp : i.port = .dec) (h : exec i s = .next t) : t.enc = s.enc := by
  rw [(decRun_of_exec hp h).frame]

/-- While the unit is faulted it accepts ENC.RESET only (R133). -/
theorem eq_encReset_of_faulted (hp : i.port = .enc) (hf : s.enc.fault = true) (h : exec i s = .next t) :
    i = .encReset := by
  have hne : s.enc.fault ≠ false := by simp [hf]
  cases (encRun_of_exec hp h).2 with
  | reset hi => exact hi
  | short _ _ _ hf' => exact absurd hf' hne
  | full _ _ _ _ hf' => exact absurd hf' hne
  | one _ _ hf' => exact absurd hf' hne
  | elided _ hf' => exact absurd hf' hne
  | delim _ _ hf' => exact absurd hf' hne
  | two _ _ hf' => exact absurd hf' hne

/-- Settles O23: of the three outcomes only the failure leaves the flag set; an input that clears it is the reset, or an
ENC command a faulted unit accepts. -/
theorem faultFlagChangesOnlyAsStated : Obligations.FaultFlagChangesOnlyAsStated := by
  refine ⟨fun s t i h hs ht => ?_, fun s t h hs ht => ?_⟩
  · cases hp : i.port with
    | dec => simp [exec_dec_enc hp h, hs] at ht
    | enc =>
      obtain ⟨chunks, hout, -⟩ := encOutcome_of_exec hp h
      refine ⟨rfl, ?_⟩
      cases hout with
      | done _ _ hf => simp [hf] at ht
      | failed e n before chunk ha hfail => exact ⟨e, n, before, chunk, ha, hfail⟩
      | hung _ _ _ hh =>
        obtain ⟨-, hf, -⟩ := hh
        simp [hf] at ht
  · rcases step_cases h with ⟨-, rfl⟩ | ⟨before, x, rest, hi, hx, -, -⟩
    · simp [hs] at ht
    have hin := takeInput_inputs hx
    rcases takeInput_cases hx with ⟨n, rfl, -⟩ | ⟨-, -, rfl⟩ | ⟨c, i, rfl, hc, hexec⟩
    · exact .inl ⟨n, before, rest, hi, hin⟩
    · simp [hs] at ht
    · cases hp : i.port with
      | dec => simp [exec_dec_enc hp hexec, hs] at ht
      | enc =>
        refine .inr ⟨c, before, rest, hi, hin, ?_⟩
        rw [hc, eq_encReset_of_faulted (s := { s with inputs := before ++ rest }) hp hs hexec]

/-! ### The sequences only grow -/

theorem exec_grows (h : exec i s = .next t) :
    s.wireTx <+: t.wireTx ∧ s.encStatus <+: t.encStatus ∧ s.decResults <+: t.decResults := by
  cases hp : i.port with
  | enc =>
    obtain ⟨chunks, hout, -⟩ := encOutcome_of_exec hp h
    obtain ⟨-, sent, hwire, -⟩ := hout.chunks_and_sent
    rw [hwire, (encRun_of_exec hp h).2.decResults_eq]
    refine ⟨List.prefix_append .., ?_, List.prefix_rfl⟩
    rcases hout.status_cases with ⟨hst, -⟩ | ⟨e, n, -, hst, -⟩ | ⟨-, hst, -⟩ <;> rw [hst]
    · exact List.prefix_append ..
    · exact List.prefix_append ..
  | dec =>
    have hrun := decRun_of_exec hp h
    refine ⟨by rw [hrun.frame], by rw [hrun.frame], ?_⟩
    rcases hrun.decResults_cases with ⟨-, r, hr⟩ | ⟨-, hr⟩ <;> rw [hr]
    exact List.prefix_append ..

/-- Settles O29: a command appends; a reset appends to the wire what is out of an abandoned chunk. -/
theorem observableSequencesOnlyGrow : Obligations.ObservableSequencesOnlyGrow := by
  intro s t h
  rcases step_cases h with ⟨-, rfl⟩ | ⟨before, x, rest, -, hx, -, -⟩
  · exact ⟨List.prefix_rfl, List.prefix_rfl, List.prefix_rfl⟩
  rcases takeInput_cases hx with ⟨n, -, rfl⟩ | ⟨-, -, rfl⟩ | ⟨c, i, -, -, hexec⟩
  · exact ⟨List.prefix_append .., List.prefix_rfl, List.prefix_rfl⟩
  · exact ⟨List.prefix_rfl, List.prefix_rfl, List.prefix_rfl⟩
  · exact exec_grows (s := { s with inputs := before ++ rest }) hexec

end Sys2Proof.Machine
end

