-- ==== Sys2Proof/Proofs/ReportedErrors.lean ====
section
/-! Which errors are reported, and by what (60_exceptions.md R174): TransportError of ENC by a command that hands over a
chunk, the errors of DEC by the end of a frame attempt, and MalformedFrame never at the stream level
(43_streaming_decoder.md R156). -/

namespace Sys2Proof.Machine

variable {s t u : State} {i : Instr} {x : CobsError}

/-! ### The report words -/

theorem DecResult.word_inj {r r' : DecResult} (h : r.word = r'.word) : r = r' := by
  rcases r with p | _ | _ | e <;> rcases r' with p' | _ | _ | e' <;> simp_all [DecResult.word]

/-- Settles O4: each word is written out by its definition, and the code tells the results apart, then the payload or
the error code. -/
theorem reportWordsCarryTheirCodes : Obligations.ReportWordsCarryTheirCodes :=
  ⟨fun _ _ _ => ⟨rfl, rfl, rfl, rfl, rfl, rfl, rfl⟩, fun _ _ => DecResult.word_inj⟩

/-! ### Which command reports what -/

/-- The errors the end of a frame body can find (R116). -/
theorem attemptResult_err {v : DecUnit} (h : attemptResult v = .err x) :
    (x = .malformedFrame ∧ v.bad = true) ∨ x = .unexpectedEof := by
  unfold attemptResult at h
  split at h
  · exact .inl ⟨(DecResult.err.inj h).symm, ‹_›⟩
  · split at h
    · exact .inr (DecResult.err.inj h).symm
    · cases h

/-- A DEC command that adds an error ended a frame attempt: by the frame's end, or by the Source's. -/
theorem DecRun.err_cases (h : DecRun i s t) (hx : t.decResults = s.decResults ++ [.err x]) :
    ((i = .decEnd ∨ i = .rxByte sentinel) ∧ attemptResult s.dec = .err x) ∨
    (i = .rxEof ∧ x = .unexpectedEof) ∨
    (∃ e, i = .rxErr e ∧ x = .transportError e) := by
  cases h with
  | byte d _ _ ht =>
    rw [takeFrameByte_frame ht] at hx
    simp at hx
  | complete hi => exact .inl ⟨hi.imp_left And.left, by simpa using hx⟩
  | eof hi => exact .inr (.inl ⟨hi, by simpa using hx.symm⟩)
  | err e hi => exact .inr (.inr ⟨e, hi, by simpa using hx.symm⟩)
  | reset => simp at hx

/-- The ENC commands that may hand over a chunk. -/
theorem Hands.instr_cases {c : List Byte} (h : Hands s i c) :
    (∃ d, i = .encWrite d ∧ (d = sentinel ∨ s.enc.run.toNat = 253)) ∨ i = .encEnd ∨ i = .encFinish := by
  cases h with
  | write => exact .inl ⟨_, rfl, .inl rfl⟩
  | full b _ hr => exact .inl ⟨b, rfl, .inr hr⟩
  | final => exact .inr (.inl rfl)
  | finish => exact .inr (.inr rfl)
  | delim => exact .inr (.inr rfl)

/-- A command that reports TransportError on ENC's status port handed over a chunk. -/
theorem hands_of_transportError {e : Byte} (h : exec i s = .next t)
    (he : t.encStatus = s.encStatus ++ [.transportError e]) : ∃ c, Hands s i c := by
  cases hp : i.port with
  | dec =>
    rw [(decRun_of_exec hp h).frame] at he
    simp at he
  | enc =>
    obtain ⟨chunks, hout, hhands⟩ := encOutcome_of_exec hp h
    cases hout with
    | done _ hsent => simp [hsent.encStatus] at he
    | failed _ _ before chunk => exact ⟨chunk, hhands chunk (by simp)⟩
    | hung _ _ _ hh =>
      obtain ⟨-, -, hst, -⟩ := hh
      simp [hst] at he

/-- Settles O38: an error of DEC is that of the attempt's end, and of ENC that of a chunk handed over. -/
theorem onlyTheTabledErrorsAreReported : Obligations.OnlyTheTabledErrorsAreReported := by
  intro i s t h
  refine ⟨fun hp x hx => ?_, fun hi => ?_, fun e hi => ?_, fun e he => ?_⟩
  · rcases (decRun_of_exec hp h).err_cases hx with ⟨hi, ha⟩ | ⟨rfl, rfl⟩ | ⟨e, rfl, rfl⟩
    · rcases attemptResult_err ha with ⟨rfl, hb⟩ | rfl
      · exact ⟨fun _ => ⟨hi, hb⟩, by simp, by simp⟩
      · exact ⟨by simp, fun _ => hi.imp_right .inl, by simp⟩
    · exact ⟨by simp, by simp, by simp⟩
    · exact ⟨by simp, by simp, by simp⟩
  · subst hi
    rw [← Host.Outcome.next.inj ((exec_rxEof s).symm.trans h), endAttempt_decResults]
  · subst hi
    rw [← Host.Outcome.next.inj ((exec_rxErr e s).symm.trans h), endAttempt_decResults]
  · obtain ⟨c, hc⟩ := hands_of_transportError h he
    exact hc.instr_cases

/-! ### The stream level -/

/-- Between `s` and `t` no MalformedFrame was reported, and the latch is clear. -/
def NoMalformed (s t : State) : Prop :=
  t.dec.bad = false ∧ ∃ added, t.decResults = s.decResults ++ added ∧ DecResult.err .malformedFrame ∉ added

theorem noMalformed_of_eq (hb : t.dec.bad = false) (hr : t.decResults = s.decResults) : NoMalformed s t :=
  ⟨hb, [], by simp [hr], by simp⟩

theorem NoMalformed.trans (h : NoMalformed s t) (h' : NoMalformed t u) : NoMalformed s u := by
  obtain ⟨-, a, ha, hna⟩ := h
  obtain ⟨hb, b, hb', hnb⟩ := h'
  exact ⟨hb, a ++ b, by rw [hb', ha, List.append_assoc], by simp [hna, hnb]⟩

/-- Every DEC command presented is an answer of the Source. -/
def StreamOnly (s : State) : Prop :=
  ∀ c i, .command c ∈ s.inputs → decode c = .ok i → i.port = .dec → isStreamLevel i = true

/-- With the latch clear, an answer of the Source leaves it clear and reports no MalformedFrame. -/
theorem DecRun.noMalformed (h : DecRun i s t) (hi : isStreamLevel i = true) (hb : s.dec.bad = false) :
    NoMalformed s t := by
  cases h with
  | byte d _ hd ht =>
    rcases hd with ⟨rfl, -⟩ | ⟨rfl, hd⟩
    · cases hi
    · exact noMalformed_of_eq ((takeFrameByte_bad hd ht).trans hb) (by rw [takeFrameByte_frame ht]; rfl)
  | complete =>
    refine ⟨rfl, _, rfl, fun hmem => ?_⟩
    rcases attemptResult_err (List.mem_singleton.1 hmem).symm with ⟨-, hb'⟩ | hx
    · simp [hb] at hb'
    · cases hx
  | eof => exact ⟨rfl, _, rfl, by simp⟩
  | err => exact ⟨rfl, _, rfl, by simp⟩
  | reset => exact noMalformed_of_eq rfl rfl

theorem noMalformed_of_step (hb : s.dec.bad = false) (hs : StreamOnly s) (h : step s = .next t) :
    NoMalformed s t ∧ StreamOnly t := by
  rcases step_cases h with ⟨-, rfl⟩ | ⟨before, x, rest, hi, hx, -, -⟩
  · exact ⟨noMalformed_of_eq hb rfl, hs⟩
  have hne : s.inputs ≠ [] := by simp [hi]
  refine ⟨?_, fun c i hc => hs c i ((step_inputs hne h).2 _ hc)⟩
  rcases takeInput_cases hx with ⟨n, -, rfl⟩ | ⟨-, -, rfl⟩ | ⟨c, i, rfl, hc, hexec⟩
  · exact noMalformed_of_eq rfl rfl
  · exact noMalformed_of_eq hb rfl
  · cases hp : i.port with
    | enc =>
      obtain ⟨hdec, hres, -⟩ := encCommandsLeaveTheDecoderAlone i _ t hp hexec
      exact noMalformed_of_eq (by rw [hdec]; exact hb) hres
    | dec => exact (decRun_of_exec hp hexec).noMalformed (hs c i (by simp [hi]) hc hp) hb

/-- Settles O43: every step leaves the latch clear, reports no MalformedFrame and leaves fewer inputs of the same
kind. -/
theorem streamLevelNeverReportsMalformedFrame : Obligations.StreamLevelNeverReportsMalformedFrame := by
  intro n s t hb hs h
  induction n generalizing s with
  | zero =>
    obtain rfl := Host.Outcome.next.inj h
    exact noMalformed_of_eq hb rfl
  | succ n ih =>
    obtain ⟨u, hu, hrun⟩ := exists_step_of_run h
    obtain ⟨hno, hs'⟩ := noMalformed_of_step hb hs hu
    exact hno.trans (ih u hno.1 hs' hrun)

/-- RX.BYTE of a byte other than 0x00 is DEC.BYTE of it, the pull answered (R151). -/
theorem exec_rxByte_eq_answered {d : Byte} (s : State) (hd : d ≠ sentinel) :
    exec (.rxByte d) s = exec (.decByte d) (answerPull s) :=
  (exec_rxByte_of_ne s hd).trans (exec_decByte_free (s := answerPull s) d rfl).symm

/-- Settles O37: RX.BYTE 0x00 is `completeFrame`; any other RX.BYTE is DEC.BYTE with the pull answered, whose cases are
those of a literal byte and of a length byte. -/
theorem rxByteRunsInEveryPhase : Obligations.RxByteRunsInEveryPhase := by
  intro s d
  refine ⟨fun hd => ?_, fun hd hb => ?_, fun hd hb hr hcap => ?_, fun hd hb hr hcap => ?_⟩
  · subst hd
    rfl
  · rw [exec_rxByte_of_ne s hd, takeFrameByte_discard (s := answerPull s) d (phase_discard.2 hb), answerPull]
  · obtain ⟨hroom, -⟩ := decByteCopiesALiteralByte (answerPull s) d rfl hb hr
    exact (exec_rxByte_eq_answered s hd).trans (hroom hcap)
  · obtain ⟨hroom, -, hnone⟩ := decByteTakesALengthByte (answerPull s) d rfl hb hr hd
    rw [exec_rxByte_eq_answered s hd]
    cases hp : s.dec.pend with
    | true => exact hroom hp (hcap hp)
    | false => exact (hnone hp).trans (by simp)

end Sys2Proof.Machine
end

