-- ==== Sys2Proof/Proofs/Invariants.lean ====
section
/-! The invariant of 10_state.md R40 and R41: every input that is taken keeps it, the chunks handed over where it holds
are well-formed blocks or the delimiter (R40 (e)), and every operation completes where it holds and the Sink answers
(70_reset_and_hazards.md section 2). -/

namespace Sys2Proof.Machine

variable {s t u : State} {k : State → Answer} {i : Instr} {c : List Byte}

/-! ### The encoder's half -/

/-- The run of a healthy unit between operations (R40 (a), (b), (c)). -/
structure RunOk (v : EncUnit) : Prop where
  inRange : v.run.toNat ≤ 253
  known : ∀ a, a < v.run.toNat → ∃ b, Memory.read? v.buf a = some b ∧ b ≠ sentinel
  lastFull : v.lastFull = true → v.run = 0#8

/-- What the Sink may be handed: a block or the delimiter (R40 (e), R56). -/
def GoodChunk (c : List Byte) : Prop := Block.wf c = true ∨ c = [sentinel]

/-- The encoder's half of the invariant. -/
def EncGood (s : State) : Prop := Memory.wf s.enc.buf ∧ s.enc.Inv

theorem EncGood.runOk (h : EncGood s) (hf : s.enc.fault = false) (hw : s.enc.waiting = none) : RunOk s.enc := by
  obtain ⟨hrun, hknown, hlast⟩ := h.2.1 hf hw
  exact ⟨hrun, hknown, hlast⟩

theorem encGood_free (hbuf : Memory.wf s.enc.buf) (hw : s.enc.waiting = none)
    (h : s.enc.fault = false → RunOk s.enc) : EncGood s :=
  ⟨hbuf, fun hf _ => ⟨(h hf).inRange, (h hf).known, (h hf).lastFull⟩, fun c hc => by simp [hw] at hc⟩

theorem encGood_waiting (hbuf : Memory.wf s.enc.buf) (hf : s.enc.fault = false) (hw : s.enc.waiting = some c)
    (hc : GoodChunk c) : EncGood s :=
  ⟨hbuf, fun _ hn => by simp [hw] at hn, fun c' hc' => ⟨hf, by rwa [← Option.some.inj (hw.symm.trans hc')]⟩⟩

theorem runOk_zero {v : EncUnit} (h : v.run = 0#8) : RunOk v := ⟨by simp [h], by simp [h], fun _ => h⟩

/-- No byte of a known run is 0x00. -/
theorem sentinel_notMem_pending (h : RunOk s.enc) : sentinel ∉ s.pending := by
  intro hmem
  obtain ⟨a, -, ha, hb⟩ := State.mem_bufBytes hmem
  obtain ⟨b, hread, hne⟩ := h.known a (by omega)
  simp only [State.bufByte, hread, Option.getD_some] at hb
  exact hne hb.symm

theorem wf_runBlock (h : RunOk s.enc) : Block.wf s.runBlock = true := by
  rw [runBlock_eq]
  refine wf_lengthByte_cons ?_ (sentinel_notMem_pending h)
  rw [pending_length]
  exact h.inRange.trans (by decide)

theorem wf_fullBlock (h : RunOk s.enc) (hr : s.enc.run.toNat = 253) {b : Byte} (hb : b ≠ sentinel) :
    Block.wf (fullLength :: (s.pending ++ [b])) = true :=
  Block.wf_cons.2 ⟨by simp [hr], by simp [sentinel_notMem_pending h, hb.symm]⟩

/-- A byte that does not fill the run lengthens it by a known byte. -/
theorem runOk_byteStored {b : Byte} (h : RunOk s.enc) (hr : s.enc.run.toNat < 253) (hb : b ≠ sentinel) :
    RunOk (byteStored b s).enc where
  inRange := (buffered_run_toNat (d := b) h.inRange).trans_le hr
  known := fun a ha => by
    have ha' : a < s.enc.run.toNat + 1 := (buffered_run_toNat (d := b) h.inRange) ▸ ha
    show ∃ v, Memory.read? (Memory.write s.enc.buf s.enc.run.toNat b) a = some v ∧ v ≠ sentinel
    by_cases heq : a = s.enc.run.toNat
    · exact ⟨b, by rw [heq, Memory.read?_write_same], hb⟩
    · rw [Memory.read?_write_other _ _ _ _ heq]
      exact h.known a (by omega)
  lastFull := fun hl => by cases hl

theorem wf_buffered {b : Byte} (hbuf : Memory.wf s.enc.buf) (hr : s.enc.run.toNat ≤ 253) :
    Memory.wf (buffered b s).enc.buf :=
  Memory.write_wf b hbuf (Nat.lt_succ_of_le hr)

/-- A completing operation leaves the run empty, or the unit faulted. -/
theorem finishOk_encGood {full : Bool} (hbuf : Memory.wf u.enc.buf) (hw : u.enc.waiting = none)
    (h : finishOk full u = .next t) : EncGood t := by
  obtain rfl := Host.Outcome.next.inj h
  exact encGood_free hbuf hw fun _ => runOk_zero rfl

/-- However the `SinkWrite` of a good chunk goes, the half holds after it, if it does after what follows. -/
theorem emit_encGood (hbuf : Memory.wf u.enc.buf) (hf : u.enc.fault = false) (hc : GoodChunk c)
    (hk : ∀ t, k (sinkTake c c u) = .next t → EncGood t) (h : emit c k u = .next t) : EncGood t := by
  rcases emit_cases h with ⟨-, h⟩ | ⟨e, n, -, rfl⟩ | ⟨-, rfl⟩
  · exact hk t h
  · exact encGood_free Memory.wf_nil rfl fun hn => by cases hn
  · exact encGood_waiting hbuf hf rfl hc

/-- An ENC command keeps the encoder's half. -/
theorem EncRun.encGood (hw : s.enc.waiting = none) (h : EncRun i s t) (hs : EncGood s) : EncGood t := by
  have hbuf := hs.1
  cases h with
  | reset => exact encGood_free hbuf hw fun _ => runOk_zero rfl
  | elided => exact encGood_free hbuf hw fun _ => runOk_zero rfl
  | short b _ hb hf hr =>
    have hrun := hs.runOk hf hw
    exact encGood_free (wf_buffered hbuf hrun.inRange) hw fun _ => runOk_byteStored hrun hr hb
  | full b _ _ hb hf hr he =>
    have hrun := hs.runOk hf hw
    have hbuf' := wf_buffered (b := b) hbuf hrun.inRange
    exact emit_encGood (u := buffered b s) hbuf' hf (.inl (wf_fullBlock hrun hr hb))
      (fun _ => finishOk_encGood hbuf' hw) he
  | one _ _ hf _ he =>
    exact emit_encGood hbuf hf (.inl (wf_runBlock (hs.runOk hf hw))) (fun _ => finishOk_encGood hbuf hw) he
  | delim _ _ hf he => exact emit_encGood hbuf hf (.inr rfl) (fun _ => finishOk_encGood hbuf hw) he
  | two _ _ hf _ he =>
    refine emit_encGood hbuf hf (.inl (wf_runBlock (hs.runOk hf hw))) (fun _ => ?_) he
    exact emit_encGood (u := sinkTake s.runBlock s.runBlock s) hbuf hf (.inr rfl) fun _ => finishOk_encGood hbuf hw

/-! ### The decoder's half -/

/-- The decoder's half of the invariant. -/
def DecGood (s : State) : Prop := s.dec.Inv ∧ ∀ cap, s.cfg.decOutCap = some cap → s.dec.out.length ≤ cap

theorem inv_iff : s.Inv ↔ EncGood s ∧ DecGood s := by
  simp only [State.Inv, EncGood, DecGood, and_assoc]

theorem decGood_frameStart (h : s.dec = DecUnit.frameStart) : DecGood s := by
  simp [DecGood, DecUnit.Inv, h, DecUnit.frameStart]

/-- An append that fits keeps the accumulator within its capacity. -/
theorem length_append_le_of_room {b : Byte} (h : outHasRoom s = true) :
    ∀ cap, s.cfg.decOutCap = some cap → (s.dec.out ++ [b]).length ≤ cap := fun cap hc => by
  rw [List.length_append]
  exact (outHasRoom_iff s).1 h cap hc

/-- A length byte leaves its literal count, and nothing pending behind the full block's (R41). -/
theorem inv_loadLength {d : Byte} (hb : s.dec.bad = false) : (loadLength d s).dec.Inv := by
  have hrem : (loadLength d s).dec.rem.toNat = d.toNat - 1 := toNat_ofNat_litCount d
  have hd := d.isLt
  refine ⟨by omega, fun h => ?_, fun h => ?_⟩
  · rw [loadLength_dec] at h
    simp [hb] at h
  · show decide (d.toNat < 255) = false
    exact decide_eq_false (by omega)

theorem inv_literalTaken {d : Byte} (hs : s.dec.Inv) (hb : s.dec.bad = false) (hpos : 0 < s.dec.rem.toNat) :
    (literalTaken d s).dec.Inv := by
  have hrem : (literalTaken d s).dec.rem.toNat = s.dec.rem.toNat - 1 := toNat_ofNat_pred _
  obtain ⟨hle, -, -⟩ := hs
  refine ⟨by omega, fun h => ?_, fun h => by omega⟩
  rw [literalTaken_dec] at h
  simp [hb] at h

/-- A frame byte keeps the decoder's half. -/
theorem takeFrameByte_decGood {d : Byte} (h : takeFrameByte d s = .next t) (hs : DecGood s) : DecGood t := by
  obtain ⟨hinv, hcap⟩ := hs
  rcases takeFrameByte_cases h with ⟨-, rfl⟩ | ⟨hp, hr, rfl⟩ | ⟨hp, -, rfl⟩ | ⟨hp, -, -, hr, rfl⟩ | ⟨hp, -, -, rfl⟩
  · exact ⟨hinv, hcap⟩
  · obtain ⟨hb, hpos⟩ := phase_inLiterals.1 hp
    exact ⟨inv_literalTaken hinv hb hpos, length_append_le_of_room hr⟩
  · obtain ⟨hle, -, hpend⟩ := hinv
    exact ⟨⟨hle, fun _ => BitVec.eq_of_toNat_eq (phase_atLength.1 hp).2, hpend⟩, hcap⟩
  · exact ⟨inv_loadLength (s := appendOut sentinel s) (phase_atLength.1 hp).1, length_append_le_of_room hr⟩
  · exact ⟨inv_loadLength (phase_atLength.1 hp).1, hcap⟩

/-- A DEC command keeps the decoder's half. -/
theorem DecRun.decGood (h : DecRun i s t) (hs : DecGood s) : DecGood t := by
  cases h with
  | byte d _ _ ht => exact takeFrameByte_decGood ht hs
  | complete => exact decGood_frameStart rfl
  | eof => exact decGood_frameStart rfl
  | err => exact decGood_frameStart rfl
  | reset => exact decGood_frameStart rfl

/-! ### Both halves -/

theorem exec_inv (h : exec i s = .next t) (hs : s.Inv) : t.Inv := by
  obtain ⟨hEnc, hDec⟩ := inv_iff.1 hs
  refine inv_iff.2 ?_
  cases hp : i.port with
  | enc =>
    obtain ⟨hw, hrun⟩ := encRun_of_exec hp h
    obtain ⟨hdec, -, hcfg, -⟩ := encCommandsLeaveTheDecoderAlone i s t hp h
    exact ⟨hrun.encGood hw hEnc, by rwa [DecGood, hdec, hcfg]⟩
  | dec => exact ⟨by rwa [EncGood, exec_dec_enc hp h], (decRun_of_exec hp h).decGood hDec⟩

theorem hardwareReset_inv (n : Nat) (s : State) : (hardwareReset n s).Inv :=
  inv_iff.2 ⟨encGood_free Memory.wf_nil rfl fun _ => runOk_zero rfl, decGood_frameStart rfl⟩

/-- Settles O57: both units are at frame start, and no cell is listed. -/
theorem resetStateMeetsTheInvariant : Obligations.ResetStateMeetsTheInvariant :=
  inv_iff.2 ⟨encGood_free Memory.wf_nil rfl fun _ => runOk_zero rfl, decGood_frameStart rfl⟩

/-- Settles O58: a reset leaves both halves at frame start, a pull touches neither, and a command keeps each. -/
theorem everyStepKeepsTheInvariant : Obligations.EveryStepKeepsTheInvariant := by
  intro s t hs h
  rcases step_cases h with ⟨-, rfl⟩ | ⟨before, x, rest, -, hx, -, -⟩
  · exact hs
  rcases takeInput_cases hx with ⟨n, -, rfl⟩ | ⟨-, -, rfl⟩ | ⟨c, i, -, -, hexec⟩
  · exact hardwareReset_inv n _
  · exact hs
  · exact exec_inv hexec hs

/-! ### The chunks handed over -/

/-- The chunks a command may hand over where the run is known are good, and ENC.FINISH alone has the delimiter. -/
theorem Hands.good (h : Hands s i c) (hs : RunOk s.enc) : GoodChunk c ∧ (i ≠ .encFinish → Block.wf c = true) := by
  cases h with
  | write => exact ⟨.inl (wf_runBlock hs), fun _ => wf_runBlock hs⟩
  | final => exact ⟨.inl (wf_runBlock hs), fun _ => wf_runBlock hs⟩
  | finish => exact ⟨.inl (wf_runBlock hs), fun _ => wf_runBlock hs⟩
  | full b hb hr => exact ⟨.inl (wf_fullBlock hs hr hb), fun _ => wf_fullBlock hs hr hb⟩
  | delim => exact ⟨.inr rfl, fun hn => absurd rfl hn⟩

/-- A command that hands over a chunk ran in a healthy, free unit. -/
theorem runOk_of_hands (hp : i.port = .enc) (h : exec i s = .next t) (hs : EncGood s) (hc : Hands s i c) :
    RunOk s.enc := by
  refine hs.runOk (Bool.eq_false_of_not_eq_true fun hf => ?_) (encRun_of_exec hp h).1
  rw [eq_encReset_of_faulted hp hf h] at hc
  cases hc

/-- Settles O59: the chunks are those the command may hand over, and what was sent is the beginning of their
bytes. -/
theorem chunksAreBlocksOrTheDelimiter : Obligations.ChunksAreBlocksOrTheDelimiter := by
  intro i s t hs h
  cases hp : i.port with
  | dec =>
    rw [(decRun_of_exec hp h).frame]
    exact ⟨[], [], by simp⟩
  | enc =>
    obtain ⟨chunks, hout, hhands⟩ := encOutcome_of_exec hp h
    obtain ⟨hchunks, sent, hwire, hprefix⟩ := hout.chunks_and_sent
    have hgood : ∀ c ∈ chunks, GoodChunk c ∧ (i ≠ .encFinish → Block.wf c = true) := fun c hc =>
      (hhands c hc).good (runOk_of_hands hp h (inv_iff.1 hs).1 (hhands c hc))
    refine ⟨chunks, sent, hchunks, hwire, fun c hc => (hgood c hc).1, fun hi => ⟨fun c hc => (hgood c hc).2 hi, ?_⟩⟩
    intro hmem
    obtain ⟨c, hc, hcmem⟩ := List.mem_flatten.1 (hprefix.subset hmem)
    exact Block.sentinel_notMem ((hgood c hc).2 hi) hcmem

/-! ### Completion -/

/-- The answer is a next state with no `SinkWrite` outstanding. -/
def Completes (a : Answer) : Prop := ∃ t, a = .next t ∧ t.enc.waiting = none

theorem finishOk_completes {full : Bool} (hw : s.enc.waiting = none) : Completes (finishOk full s) := ⟨_, rfl, hw⟩

theorem State.SinkAnswers.sinkTake (h : s.SinkAnswers) (c sent : List Byte) : (sinkTake c sent s).SinkAnswers :=
  fun ha => h (List.mem_of_mem_tail ha)

/-- A `SinkWrite` that is answered completes, if what follows it does. -/
theorem emit_completes (h : s.SinkAnswers) (hk : Completes (k (sinkTake c c s))) : Completes (emit c k s) := by
  cases hn : s.nextAnswer with
  | ok => rwa [emit_ok c hn]
  | err e n => exact ⟨_, emit_err c hn, rfl⟩
  | silent => exact absurd (mem_of_nextAnswer_silent hn) h

/-- So does FinalBlock, if what follows does behind the final block and without it. -/
theorem finalBlock_completes (h : s.SinkAnswers) (hr : s.enc.run.toNat ≤ bufSize) (hk : Completes (k s))
    (hk' : Completes (k (sinkTake s.runBlock s.runBlock s))) : Completes (finalBlock k s) := by
  cases he : finalBlockElided s.cfg s.enc with
  | true => rwa [finalBlock_elided he]
  | false =>
    rw [finalBlock_emitted he hr]
    exact emit_completes h hk'

theorem exec_encWrite_completes (b : Byte) (hr : s.enc.run.toNat ≤ 253) (hf : s.enc.fault = false)
    (hw : s.enc.waiting = none) (h : s.SinkAnswers) : Completes (exec (.encWrite b) s) := by
  by_cases hb : b = sentinel
  · rw [hb, exec_encWrite_sentinel hf hw hr]
    exact emit_completes h (finishOk_completes hw)
  rcases hr.lt_or_eq with hlt | heq
  · exact ⟨_, exec_encWrite_short hf hw hb hlt, hw⟩
  · rw [exec_encWrite_full hf hw hb heq]
    exact emit_completes (s := buffered b s) h (finishOk_completes hw)

/-- Where the run is in range and the Sink answers, an ENC command of a healthy, free unit completes. -/
theorem exec_enc_completes (hp : i.port = .enc) (hr : s.enc.run.toNat ≤ 253) (hf : s.enc.fault = false)
    (hw : s.enc.waiting = none) (h : s.SinkAnswers) : Completes (exec i s) :=
  have hr' : s.enc.run.toNat ≤ bufSize := hr.trans (by decide)
  match i, hp with
  | .encWrite b, _ => exec_encWrite_completes b hr hf hw h
  | .encEnd, _ => by
    rw [exec_encEnd_healthy hf hw]
    exact finalBlock_completes h hr' (finishOk_completes hw) (finishOk_completes hw)
  | .encFinish, _ => by
    rw [exec_encFinish_healthy hf hw]
    exact finalBlock_completes h hr' (emit_completes h (finishOk_completes hw))
      (emit_completes (h.sinkTake _ _) (finishOk_completes hw))
  | .encReset, _ => ⟨_, exec_encReset_free hw, hw⟩

/-- With an unbounded accumulator a DEC command answers a next state, unless it has to wait for the Source's answer. -/
theorem exec_dec_completes (hp : i.port = .dec) (hcap : s.cfg.decOutCap = none)
    (hw : s.dec.waiting = true → isStreamLevel i = true) : ∃ t, exec i s = .next t :=
  have hfree (hi : isStreamLevel i = false) : s.dec.waiting = false :=
    Bool.eq_false_of_not_eq_true fun h => by simp [hw h] at hi
  match i, hp with
  | .decByte d, _ => exec_decByte_completes d (outHasRoom_of_unbounded hcap) (hfree rfl)
  | .decEnd, _ => ⟨_, exec_decEnd_free (hfree rfl)⟩
  | .decReset, _ => ⟨_, exec_decReset_free (hfree rfl)⟩
  | .rxEof, _ => ⟨_, exec_rxEof s⟩
  | .rxErr e, _ => ⟨_, exec_rxErr e s⟩
  | .rxByte d, _ => by
    by_cases hd : d = sentinel
    · exact ⟨_, hd ▸ exec_rxByte_sentinel s⟩
    · rw [exec_rxByte_of_ne s hd]
      exact takeFrameByte_completes d (outHasRoom_of_unbounded (s := answerPull s) hcap)

theorem exec_completes (hs : s.Inv) (h : s.SinkAnswers) (hcap : s.cfg.decOutCap = none) (hf : s.enc.fault = false)
    (hw : s.enc.waiting = none) (hpull : s.dec.waiting = true → i.port = .enc ∨ isStreamLevel i = true) :
    Completes (exec i s) := by
  cases hp : i.port with
  | enc => exact exec_enc_completes hp ((inv_iff.1 hs).1.runOk hf hw).inRange hf hw h
  | dec =>
    obtain ⟨t, ht⟩ := exec_dec_completes hp hcap fun hd => (hpull hd).resolve_left (by simp [hp])
    exact ⟨t, ht, by rw [exec_dec_enc hp ht, hw]⟩

/-- Settles O60: an ENC command completes in all its `SinkWrite`s, a DEC command has room for its byte; the reset state
meets what this asks. -/
theorem everyOperationCompletes : Obligations.EveryOperationCompletes :=
  ⟨fun _ _ hs h hcap hf hw hpull => exec_completes hs h hcap hf hw hpull, fun _ =>
    exec_completes resetStateMeetsTheInvariant List.not_mem_nil rfl rfl rfl fun hd => by cases hd⟩

end Sys2Proof.Machine
end

