-- ==== Sys2Proof/Proofs/EncFinishing.lean ====
section
/-! What an ENC command that sends the final block leaves, as the Sink answers (40_encode_transform.md R95, R96;
42_streaming_encoder.md R131); the cells of the pending buffer; repeated commands (20_memory.md section 5). -/

namespace Sys2Proof.Machine

variable {s t u : State} {k : State → Answer} {i : Instr} {c : List Byte}

/-! ### How a chunk in the middle of an operation counts -/

theorem finalBlockElided_iff : finalBlockElided s.cfg s.enc = true ↔
    s.cfg.elideEmptyFinal = true ∧ s.enc.lastFull = true := by simp [finalBlockElided]

theorem finalBlockElided_eq_false (h : ¬(s.cfg.elideEmptyFinal = true ∧ s.enc.lastFull = true)) :
    finalBlockElided s.cfg s.enc = false := Bool.eq_false_of_not_eq_true (mt finalBlockElided_iff.1 h)

/-- A failure behind a chunk that is out. -/
theorem EncFailedWith.of_sinkTake {e : Byte} {handed : List (List Byte)} {sent : List Byte}
    (h : EncFailedWith (sinkTake c c s) t e handed sent) : EncFailedWith s t e (c :: handed) (c ++ sent) := by
  simpa [EncFailedWith] using h

/-! ### ENC.END and ENC.FINISH -/

section
variable (hf : s.enc.fault = false) (hw : s.enc.waiting = none)
include hf hw

theorem exec_encEnd_elided (he : finalBlockElided s.cfg s.enc = true) :
    exec .encEnd s = .next (reportStatus .ok (closeRun false s)) := by
  rw [exec_encEnd_healthy hf hw, finalBlock_elided he, finishOk]

theorem exec_encFinish_elided (he : finalBlockElided s.cfg s.enc = true) :
    exec .encFinish s = emit [sentinel] (finishOk false) s := by
  rw [exec_encFinish_healthy hf hw, finalBlock_elided he]

variable (hr : s.enc.run.toNat ≤ 253)
include hr

theorem exec_encEnd_emitted (he : finalBlockElided s.cfg s.enc = false) :
    exec .encEnd s = emit s.runBlock (finishOk false) s := by
  rw [exec_encEnd_healthy hf hw, finalBlock_emitted he (hr.trans (by decide))]

theorem exec_encFinish_emitted (he : finalBlockElided s.cfg s.enc = false) :
    exec .encFinish s = emit s.runBlock (emit [sentinel] (finishOk false)) s := by
  rw [exec_encFinish_healthy hf hw, finalBlock_emitted he (hr.trans (by decide))]

/-- The delimiter's `SinkWrite`, the final block being out. -/
theorem exec_encFinish_delim (he : finalBlockElided s.cfg s.enc = false) (hok : s.nextAnswer = .ok) :
    exec .encFinish s = emit [sentinel] (finishOk false) (sinkTake s.runBlock s.runBlock s) := by
  rw [exec_encFinish_emitted hf hw hr he, emit_ok _ hok]

end

/-- Settles O15: without a final block the operation only closes the run; with one it is a `SinkWrite` of the run's
block, and the Sink's answer decides how it ends. -/
theorem encEndEmitsTheFinalBlock : Obligations.EncEndEmitsTheFinalBlock := by
  intro s hf hw hr
  refine ⟨fun he => exec_encEnd_elided hf hw (finalBlockElided_iff.2 he), fun he => ?_⟩
  rw [exec_encEnd_emitted hf hw hr (finalBlockElided_eq_false he)]
  exact ⟨fun hok => emit_finishOk false _ hok, fun e n herr => emit_failedWith _ herr⟩

/-- Settles O16: the `SinkWrite` of the delimiter follows that of the final block if that is answered `ok`, and is the
first where there is no final block; the Sink's answer to each decides how the operation ends. -/
theorem encFinishSendsFinalBlockThenDelimiter : Obligations.EncFinishSendsFinalBlockThenDelimiter := by
  intro s hf hw hr
  refine ⟨fun he => ?_, fun he => ?_⟩
  · have he := finalBlockElided_eq_false he
    refine ⟨fun hok hok' => ?_, fun e n herr => ?_, fun e n hok herr => ?_⟩
    · rw [exec_encFinish_delim hf hw hr he hok, emit_finishOk (s := sinkTake s.runBlock s.runBlock s) false _ hok']
      rfl
    · rw [exec_encFinish_emitted hf hw hr he]
      exact emit_failedWith _ herr
    · rw [exec_encFinish_delim hf hw hr he hok]
      obtain ⟨t, ht, hfail⟩ := emit_failedWith [sentinel] (s := sinkTake s.runBlock s.runBlock s) herr
      exact ⟨t, ht, hfail.of_sinkTake⟩
  · rw [exec_encFinish_elided hf hw (finalBlockElided_iff.2 he)]
    exact ⟨fun hok => emit_finishOk false _ hok, fun e n herr => emit_failedWith _ herr⟩

/-! ### The cells of the buffer -/

/-- However a `SinkWrite` goes that does not fail, the cells stay, if what follows it keeps them. -/
theorem emit_bufByte {a : Nat} (hf : t.enc.fault = false)
    (hk : ∀ v, k v = .next t → t.bufByte a = v.bufByte a) (h : emit c k u = .next t) : t.bufByte a = u.bufByte a := by
  rcases emit_cases h with ⟨-, h⟩ | ⟨e, n, -, rfl⟩ | ⟨-, rfl⟩
  · exact hk (sinkTake c c u) h
  · cases hf
  · rfl

theorem finishOk_bufByte {full : Bool} {a : Nat} (h : finishOk full u = .next t) : t.bufByte a = u.bufByte a := by
  obtain rfl := Host.Outcome.next.inj h
  rfl

/-- Settles O27: of the branches of an ENC command only those that buffer a byte write a cell, the one at `enc_run`. -/
theorem bufferChangesOnlyAtTheRunCounter : Obligations.BufferChangesOnlyAtTheRunCounter := by
  intro i s t hp h hf a
  cases (encRun_of_exec hp h).2 with
  | reset hi => subst hi; rfl
  | elided hi => subst hi; rfl
  | short b hi hb =>
    subst hi
    exact (buffered_bufByte b s a).trans (by simp [hb])
  | full b _ hi hb _ _ he =>
    subst hi
    rw [emit_bufByte hf (fun _ => finishOk_bufByte) he, buffered_bufByte]
    simp [hb]
  | one _ hi _ _ he =>
    have hcell := emit_bufByte (a := a) hf (fun _ => finishOk_bufByte) he
    rcases hi with rfl | rfl
    · exact hcell
    · simpa using hcell
  | delim _ hi _ he => subst hi; exact emit_bufByte hf (fun _ => finishOk_bufByte) he
  | two _ hi _ _ he =>
    subst hi
    exact emit_bufByte hf (fun _ => emit_bufByte hf fun _ => finishOk_bufByte) he

/-! ### The pending run against `encode` -/

/-- Settles O52: the chunks of the bytes and the block of the run are what the loop of R90 emits for the payload. -/
theorem wireAndPendingRunEncodeThePayload : Obligations.WireAndPendingRunEncodeThePayload := by
  intro s p rest hStart hSink hi
  obtain ⟨hReady, hpend, hlast⟩ := hStart.ready hSink
  obtain ⟨(t : State), chunks, hrun, -, hReady', hSent, hEnc⟩ := run_encWriteV_encodes p hReady hi
  refine ⟨t, chunks.flatten, hrun, hSent.wireTx, ?_, hReady'.inRange⟩
  rw [cobsEncode, hEnc.cobsBlocks_eq hpend hlast false, runBlock_eq]
  simp [blocksFrom]

/-! ### Commands repeated -/

/-- Settles O17: ENC.RESET requires only that the unit is free. -/
theorem encResetIsAlwaysAccepted : Obligations.EncResetIsAlwaysAccepted := fun _ =>
  ⟨fun hw => exec_encReset_free hw, fun hw => requireFree_waiting hw⟩

theorem blockSent_frameStart (c : List Byte) (hf : s.enc.fault = false) (hw : s.enc.waiting = none) :
    (blockSent false c s).enc.FrameStart := ⟨rfl, rfl, hf, hw⟩

/-- With a Sink that answers `ok`, ENC.FINISH leaves a frame start. -/
theorem exec_encFinish_frameStart (hs : s.SinkOk) (h : exec .encFinish s = .next t) : t.enc.FrameStart ∧ t.SinkOk := by
  obtain ⟨hw, hrun⟩ := encRun_of_exec rfl h
  cases hrun with
  | delim _ _ hf he =>
    rw [emit_finishOk false _ hs.next] at he
    obtain rfl := Host.Outcome.next.inj he
    exact ⟨blockSent_frameStart _ hf hw, hs.blockSent _ _⟩
  | two _ _ hf _ he =>
    have hs' : (sinkTake s.runBlock s.runBlock s).SinkOk := hs.sinkTake _ _
    rw [emit_ok _ hs.next, emit_finishOk false _ hs'.next] at he
    obtain rfl := Host.Outcome.next.inj he
    exact ⟨blockSent_frameStart (s := sinkTake s.runBlock s.runBlock s) _ hf hw, hs'.blockSent _ _⟩
  | reset hi => cases hi
  | short _ hi => cases hi
  | full _ _ hi => cases hi
  | one _ hi => rcases hi with hi | hi <;> cases hi
  | elided hi => cases hi

/-- ENC.FINISH at a frame start sends the frame of the empty payload (R131). -/
theorem exec_encFinish_of_frameStart (h : s.enc.FrameStart) (hs : s.SinkOk) :
    ∃ t, exec .encFinish s = .next t ∧ t.wireTx = s.wireTx ++ [0x01#8, 0x00#8] := by
  obtain ⟨hReady, hpend, hlast⟩ := h.ready hs
  obtain ⟨t, ht, -, -, hSent⟩ := exec_encFinish_encodes hReady
  refine ⟨t, ht, hSent.wireTx.trans ?_⟩
  rw [hpend, hlast]
  simp [blocksFrom, lengthByte]

/-- Settles O19: each command leaves its unit where the second does what it does at a frame start. -/
theorem repeatedOperationsActAsStated : Obligations.RepeatedOperationsActAsStated := by
  refine ⟨fun s hw => ?_, fun s hw => ?_, fun s t hs h => ?_, fun s hw => ?_⟩
  · exact ⟨_, _, exec_encReset_free hw, exec_encReset_free hw, rfl⟩
  · exact ⟨_, exec_decReset_free hw, exec_decReset_free rfl⟩
  · obtain ⟨hStart, hs'⟩ := exec_encFinish_frameStart hs h
    exact exec_encFinish_of_frameStart hStart hs'
  · exact ⟨_, _, exec_decEnd_free hw, exec_decEnd_free rfl, rfl⟩

end Sys2Proof.Machine
end

