-- ==== Sys2Proof/Proofs/SinkWaits.lean ====
section
/-! The hang in each `SinkWrite` of each ENC command, what a waiting unit accepts (70_reset_and_hazards.md R210), and the
reset that ends the wait (R201). -/

namespace Sys2Proof.Machine

variable {s t : State} {k : State → Answer} {i : Instr} {c : List Byte}

/-! ### The hangs -/

/-- The command `i`, run in `s`, hangs in the `SinkWrite` of `c`. -/
def Hangs (i : Instr) (s : State) (c : List Byte) (handed : List (List Byte)) (sent : List Byte) : Prop :=
  ∃ t, exec i s = .next t ∧ HungWith s t c handed sent

/-- A command that comes to a `SinkWrite` which is not answered hangs with its chunk outstanding (R210). -/
theorem hangs_of_exec_eq (he : exec i s = emit c k s) (hf : s.enc.fault = false) (h : s.nextAnswer = .silent) :
    Hangs i s c [] [] := ⟨_, he.trans (emit_silent c h), by simp [HungWith, hf]⟩

section
variable (hf : s.enc.fault = false) (hw : s.enc.waiting = none)
include hf hw

theorem hangs_encFinish_elided (he : finalBlockElided s.cfg s.enc = true) (h : s.nextAnswer = .silent) :
    Hangs .encFinish s [sentinel] [] [] :=
  hangs_of_exec_eq (exec_encFinish_elided hf hw he) hf h

theorem hangs_encWrite_full {b : Byte} (hb : b ≠ sentinel) (hr : s.enc.run.toNat = 253) (h : s.nextAnswer = .silent) :
    Hangs (.encWrite b) s (fullLength :: (s.pending ++ [b])) [] [] := by
  refine ⟨_, (exec_encWrite_full hf hw hb hr).trans (emit_silent _ h), ?_⟩
  simp [HungWith, buffered, hf]

variable (hr : s.enc.run.toNat ≤ 253)
include hr

theorem hangs_encWrite_sentinel (h : s.nextAnswer = .silent) : Hangs (.encWrite sentinel) s s.runBlock [] [] :=
  hangs_of_exec_eq (exec_encWrite_sentinel hf hw hr) hf h

theorem hangs_encEnd (he : finalBlockElided s.cfg s.enc = false) (h : s.nextAnswer = .silent) :
    Hangs .encEnd s s.runBlock [] [] :=
  hangs_of_exec_eq (exec_encEnd_emitted hf hw hr he) hf h

theorem hangs_encFinish (he : finalBlockElided s.cfg s.enc = false) (h : s.nextAnswer = .silent) :
    Hangs .encFinish s s.runBlock [] [] :=
  hangs_of_exec_eq (exec_encFinish_emitted hf hw hr he) hf h

theorem hangs_encFinish_delim (he : finalBlockElided s.cfg s.enc = false) (hok : s.nextAnswer = .ok)
    (h : s.secondAnswer = .silent) : Hangs .encFinish s [sentinel] [s.runBlock] s.runBlock := by
  refine ⟨_, (exec_encFinish_delim hf hw hr he hok).trans (emit_silent _ h), ?_⟩
  simp [HungWith, hf]

end

/-- An ENC command offered to a unit that waits is not accepted (R210). -/
theorem exec_enc_waiting (hp : i.port = .enc) (hf : s.enc.fault = false) (hw : s.enc.waiting ≠ none) :
    exec i s = .fault .sinkSilent := by
  have hhealthy (k : State → Answer) : requireHealthy k s = .fault .sinkSilent := by
    rw [requireHealthy_eq hf, requireFree_waiting hw]
  exact match i, hp with
  | .encWrite _, _ => hhealthy _
  | .encEnd, _ => hhealthy _
  | .encFinish, _ => hhealthy _
  | .encReset, _ => requireFree_waiting hw

/-- While ENC waits no input of its own is taken. -/
theorem takeInput_enc_waiting {x : Input} (hx : x.unit? = some .enc) (hw : s.enc.waiting ≠ none) :
    takeInput x s ≠ .next t := fun h => by
  rcases takeInput_cases h with ⟨n, rfl, -⟩ | ⟨rfl, -⟩ | ⟨c, i, rfl, hc, hexec⟩
  · cases hx
  · cases hx
  · exact hw (encRun_of_exec ((port_of_decode hc).symm.trans (Option.some.inj hx)) hexec).1

/-- Settles O20: each `SinkWrite` that is not answered hangs; a waiting unit accepts nothing, so a step passes over its
command and takes the DEC command behind. -/
theorem silentSinkHangsTheEncoder : Obligations.SilentSinkHangsTheEncoder := by
  refine ⟨fun s hf hw hr => ⟨fun h => ?_, hangs_encFinish_delim hf hw hr⟩, fun s hw hf => ⟨fun i hp => ?_, ?_⟩⟩
  · exact ⟨hangs_encWrite_sentinel hf hw hr h, fun b hb hfull => hangs_encWrite_full hf hw hb hfull h,
      fun he => ⟨hangs_encEnd hf hw hr he h, hangs_encFinish hf hw hr he h⟩,
      fun he => hangs_encFinish_elided hf hw he h⟩
  · exact exec_enc_waiting hp hf hw
  · intro c d j rest t hc hd hj hi hexec
    refine step_passing (mid := []) hi (by simp) (fun v => ?_) ?_ ((takeInput_of_decode hj _).trans hexec)
    · exact takeInput_enc_waiting (congrArg some hc) hw
    · simp [Input.waitsFor, Input.sameUnit, Input.unit?, hc, hd]

/-! ### The reset that ends a hang -/

theorem abandonedByReset_of_hungWith {handed : List (List Byte)} {sent : List Byte} (h : HungWith s t c handed sent)
    (n : Nat) (rest : List Input) :
    AbandonedByReset s (hardwareReset n { t with inputs := rest }) (handed ++ [c]) (sent ++ c.take n) := by
  obtain ⟨hw, -, hst, hwire, hchunks, -, hres, hcfg, -⟩ := h
  simp [AbandonedByReset, EncUnit.FrameStart, hw, hst, hwire, hchunks, hres, hcfg]

theorem resetInWrite_of_hangs {handed : List (List Byte)} {sent : List Byte} (h : Hangs i s c handed sent)
    (n : Nat) (rest : List Input) : ResetInWrite i s n rest (handed ++ [c]) (sent ++ c.take n) := by
  obtain ⟨t, ht, hhung⟩ := h
  exact ⟨t, _, ht, by simp [hhung.1], step_rst rfl, rfl, abandonedByReset_of_hungWith hhung n rest⟩

/-- Settles O12: the reset is taken in every state, and from a hang it leaves the frame-start units, the complete chunks
and the first bytes of the outstanding one. -/
theorem resetDuringSinkWriteAbandonsTheOperation : Obligations.ResetDuringSinkWriteAbandonsTheOperation := by
  refine ⟨fun s n rest hf hw hr => ⟨fun h => ?_, fun he hok h => ?_⟩, fun s n rest c hw hi => ?_⟩
  · exact ⟨resetInWrite_of_hangs (hangs_encWrite_sentinel hf hw hr h) n rest,
      fun b hb hfull => resetInWrite_of_hangs (hangs_encWrite_full hf hw hb hfull h) n rest,
      fun he => ⟨resetInWrite_of_hangs (hangs_encEnd hf hw hr he h) n rest,
        resetInWrite_of_hangs (hangs_encFinish hf hw hr he h) n rest⟩,
      fun he => resetInWrite_of_hangs (hangs_encFinish_elided hf hw he h) n rest⟩
  · exact resetInWrite_of_hangs (hangs_encFinish_delim hf hw hr he hok h) n rest
  · exact ⟨_, step_rst hi, by simp [AbandonedByReset, EncUnit.FrameStart, hw], rfl⟩

end Sys2Proof.Machine
end

