-- ==== Sys2Proof/Proofs/Scheduling.lean ====
section
/-! Which input a step takes (10_state.md section 5, 20_memory.md section 7), and a DEC that waits for the Source: what it
accepts, what passes it, and what releases it (60_exceptions.md R193, 70_reset_and_hazards.md R210). -/

namespace Sys2Proof.Machine

variable {s t : State} {i : Instr} {c : CmdWord} {x y : Input}

/-! ### Steps -/

/-- Settles O9: the step looks for an input first. -/
theorem idleMachineKeepsItsState : Obligations.IdleMachineKeepsItsState := by
  intro s hi
  unfold step
  rw [hi]

/-- Where all that is presented behind the oldest command waits for it, the step is that command. -/
theorem step_eq_exec {rest : List Input} (hd : decode c = .ok i) (hi : s.inputs = .command c :: rest)
    (hr : ∀ y ∈ rest, Input.waitsFor s y (.command c) = true) : step s = exec i { s with inputs := rest } := by
  rw [← takeInput_of_decode hd]
  by_cases h : ∃ t, takeInput (.command c) { s with inputs := rest } = .next t
  · obtain ⟨t, ht⟩ := h
    rw [step_head hi ht, ht]
  · exact step_stuck hi hr fun t ht => h ⟨t, ht⟩

/-- Settles O5: taking the command runs its operation; the oldest is taken first if it can be, and one that passes the
others is taken if the oldest cannot be. -/
theorem stepRunsTheDecodedOperation : Obligations.StepRunsTheDecodedOperation := by
  intro s c i hd
  refine ⟨fun rest hi => ⟨fun t h => ?_, step_eq_exec hd hi⟩, fun oldest between rest hi hb hx hn t h => ?_⟩
  · exact step_head hi ((takeInput_of_decode hd _).trans h)
  · exact step_passing hi hb hn hx ((takeInput_of_decode hd _).trans h)

/-- An input passes one of its own unit only as the answer that DEC waits for. -/
theorem answer_of_waitsFor_eq_false (h : Input.waitsFor s x y = false) (hu : x.sameUnit y = true) :
    s.dec.waiting = true ∧ x.isAnswer = true ∧ y.isAnswer = false := by
  simpa [Input.waitsFor, hu, and_assoc] using h

/-- Settles O6: the input taken waits for none before it, and a reset waits for nothing, so none stands there. -/
theorem eachUnitTakesItsCommandsInOrder : Obligations.EachUnitTakesItsCommandsInOrder := by
  intro s t hne h
  rcases step_cases h with ⟨hnil, -⟩ | ⟨before, x, rest, hi, hx, hw, -⟩
  · exact absurd hnil hne
  refine ⟨before, x, rest, hi, takeInput_inputs hx, hx, fun y hy => ?_⟩
  obtain ⟨hwait, p, hp⟩ := hw y hy
  exact ⟨fun k hk => by simp [hk, Input.unit?] at hp, answer_of_waitsFor_eq_false hwait⟩

/-! ### A pull that blocks -/

theorem takeInput_pull_free (h : s.dec.waiting = false) : takeInput .pull s = .next (beginPull s) :=
  requireNoPull_free (k := fun s => .next (beginPull s)) h

theorem takeInput_pull_waiting (h : s.dec.waiting = true) : takeInput .pull s = .fault .sourceSilent :=
  requireNoPull_waiting (k := fun s => .next (beginPull s)) h

/-- While DEC waits it accepts no command but the answer, DEC.RESET included (R210). -/
theorem exec_dec_waiting (hp : i.port = .dec) (hi : isStreamLevel i = false) (hw : s.dec.waiting = true) :
    exec i s = .fault .sourceSilent :=
  match i, hp, hi with
  | .decByte d, _, _ => requireNoPull_waiting (k := takeFrameByte d) hw
  | .decEnd, _, _ => requireNoPull_waiting (k := fun s => .next (completeFrame s)) hw
  | .decReset, _, _ => requireNoPull_waiting (k := fun s => .next (decFrameStart s)) hw

/-- The answer does what it does where no pull has blocked. -/
theorem exec_answerPull (hi : isStreamLevel i = true) (s : State) : exec i s = exec i (answerPull s) :=
  match i, hi with
  | .rxEof, _ | .rxErr _, _ => rfl
  | .rxByte d, _ => by
    by_cases hd : d = sentinel
    · rw [hd]
      rfl
    · rw [exec_rxByte_of_ne _ hd, exec_rxByte_of_ne _ hd]
      rfl

/-- No DEC command leaves DEC waiting. -/
theorem DecRun.waiting_eq (h : DecRun i s t) : t.dec.waiting = false := by
  cases h with
  | byte d _ _ ht => exact takeFrameByte_waiting ht
  | complete => rfl
  | eof => rfl
  | err => rfl
  | reset => rfl

theorem unit?_of_decode (h : decode c = .ok i) : Input.unit? (.command c) = some i.port :=
  congrArg some (port_of_decode h)

/-- No input waits for one of the other unit. -/
theorem Input.waitsFor_other {p q : Port} (s : State) (hx : x.unit? = some p) (hy : y.unit? = some q) (h : p ≠ q) :
    Input.waitsFor s x y = false := by
  simp [Input.waitsFor, Input.sameUnit, hx, hy, h]

theorem isAnswer_of_decode (h : decode c = .ok i) : Input.isAnswer (.command c) = isStreamLevel i := by
  simp [Input.isAnswer, h]

/-- While DEC waits it takes no input of its own but the answer. -/
theorem takeInput_dec_waiting (hx : x.unit? = some .dec) (ha : x.isAnswer = false) (hw : s.dec.waiting = true) :
    takeInput x s ≠ .next t := fun h => by
  rcases takeInput_cases h with ⟨n, rfl, -⟩ | ⟨rfl, hw', -⟩ | ⟨c, i, rfl, hc, hexec⟩
  · cases hx
  · simp [hw] at hw'
  · have hp : i.port = .dec := (port_of_decode hc).symm.trans (Option.some.inj hx)
    rw [exec_dec_waiting hp ((isAnswer_of_decode hc).symm.trans ha) hw] at hexec
    cases hexec

/-- What DEC holds up while it waits. -/
def Held (held : List Input) : Prop := ∀ x ∈ held, x.unit? = some .dec ∧ x.isAnswer = false

/-- A step passes over what DEC holds up and takes a command that waits for none of it. -/
theorem step_past_held {held rest : List Input} (hw : s.dec.waiting = true) (hd : decode c = .ok i)
    (hi : s.inputs = held ++ .command c :: rest) (hheld : Held held)
    (hx : ∀ y ∈ held, Input.waitsFor s (.command c) y = false)
    (h : exec i { s with inputs := held ++ rest } = .next t) : step s = .next t := by
  refine step_eq hi (fun a y b hab => .inr fun v => ?_) hx ((takeInput_of_decode hd _).trans h)
  obtain ⟨hy, ha⟩ := hheld y (by simp [hab])
  exact takeInput_dec_waiting hy ha hw

/-- Settles O21: the pull makes DEC wait; then it takes nothing but the answer, so a step passes over what it holds up
to the answer, or to a command of ENC. -/
theorem blockedPullHoldsTheDecoder : Obligations.BlockedPullHoldsTheDecoder := by
  refine ⟨fun s rest hw hi => ?_, fun s hw => ⟨fun i hp hi => exec_dec_waiting hp hi hw, takeInput_pull_waiting hw⟩,
    fun s i hi => ⟨exec_answerPull hi s, fun t h => (decRun_of_exec (isStreamLevel_port hi) h).waiting_eq⟩,
    fun s t c i held rest hw hd hi hin hheld h => ?_, fun s t c i held rest hw hd hi hin hheld h => ?_⟩
  · exact step_head hi (takeInput_pull_free hw)
  · refine step_past_held hw hd hin hheld (fun y hy => ?_) h
    simp [Input.waitsFor, hw, isAnswer_of_decode hd, hi, (hheld y hy).2]
  · refine step_past_held hw hd hin hheld (fun y hy => ?_) h
    exact Input.waitsFor_other s ((unit?_of_decode hd).trans (congrArg some hi)) (hheld y hy).1 (by decide)

/-! ### What releases a waiting unit -/

/-- What taking one input does to a waiting ENC. -/
theorem takeInput_waiting_enc (hw : s.enc.waiting ≠ none) (h : takeInput x s = .next t) :
    t.enc = s.enc ∨ ∃ k, x = .rst k := by
  rcases takeInput_cases h with ⟨k, rfl, -⟩ | ⟨-, -, rfl⟩ | ⟨c, i, -, -, hexec⟩
  · exact .inr ⟨k, rfl⟩
  · exact .inl rfl
  · cases hp : i.port with
    | enc => exact absurd (encRun_of_exec hp hexec).1 hw
    | dec => exact .inl (exec_dec_enc hp hexec)

/-- What taking one input does to a waiting DEC. -/
theorem takeInput_waiting_dec (hw : s.dec.waiting = true) (h : takeInput x s = .next t) :
    t.dec = s.dec ∨ (∃ k, x = .rst k) ∨ x.isAnswer = true := by
  rcases takeInput_cases h with ⟨k, rfl, -⟩ | ⟨-, hw', -⟩ | ⟨c, i, rfl, hc, hexec⟩
  · exact .inr (.inl ⟨k, rfl⟩)
  · simp [hw] at hw'
  · cases hp : i.port with
    | enc => exact .inl (encCommandsLeaveTheDecoderAlone i s t hp hexec).1
    | dec =>
      refine .inr (.inr (Bool.eq_true_of_not_eq_false fun ha => ?_))
      exact takeInput_dec_waiting ((unit?_of_decode hc).trans (congrArg some hp)) ha hw h

/-- DEC comes to wait by a pull. -/
theorem eq_pull_of_dec_waiting (hw : s.dec.waiting = false) (h : takeInput x s = .next t)
    (ht : t.dec.waiting = true) : x = .pull := by
  rcases takeInput_cases h with ⟨k, -, rfl⟩ | ⟨hx, -, -⟩ | ⟨c, i, -, -, hexec⟩
  · cases ht
  · exact hx
  · cases hp : i.port with
    | enc => simp [(encCommandsLeaveTheDecoderAlone i s t hp hexec).1, hw] at ht
    | dec => simp [(decRun_of_exec hp hexec).waiting_eq] at ht

/-- Settles O22: by what the one input that a step takes does to a waiting unit. -/
theorem waitingUnitsAreReleasedOnlyByTheirAnswer : Obligations.WaitingUnitsAreReleasedOnlyByTheirAnswer := by
  intro s t h
  rcases step_cases h with ⟨-, rfl⟩ | ⟨before, x, rest, hi, hx, -, -⟩
  · exact ⟨fun _ => .inl rfl, fun _ => .inl rfl, fun hf ht => by simp [hf] at ht⟩
  have hin := takeInput_inputs hx
  refine ⟨fun hw => ?_, fun hw => ?_, fun hw ht => ?_⟩
  · rcases takeInput_waiting_enc (s := { s with inputs := before ++ rest }) hw hx with he | ⟨k, rfl⟩
    · exact .inl he
    · exact .inr ⟨k, before, rest, hi, hin⟩
  · rcases takeInput_waiting_dec (s := { s with inputs := before ++ rest }) hw hx with he | ⟨k, rfl⟩ | ha
    · exact .inl he
    · exact .inr (.inl ⟨k, before, rest, hi, hin⟩)
    · exact .inr (.inr ⟨x, before, rest, ha, hi, hin⟩)
  · obtain rfl := eq_pull_of_dec_waiting (s := { s with inputs := before ++ rest }) hw hx ht
    exact ⟨before, rest, hi, hin⟩

end Sys2Proof.Machine
end
